-- ==== Sys2Proof/Word.lean ====
section
/-! DEFINITION. The word types of the VSC: the 8-bit AFE register byte and the 32-bit command word
(spec 00_scope.md R7, 30_encoding.md R60). -/

namespace Sys2Proof

/-- One AFE register's content (R7: "AFE registers are 8 bits"). -/
abbrev Byte := BitVec 8

/-- One command word, and the width of `RES` and `ECMD` (R7, R60). -/
abbrev Word := BitVec 32

end Sys2Proof
end

