-- ==== Sys2Proof/Syntax.lean ====
section
/-! DEFINITION. The commands of the VSC, one constructor per row of the opcode table (30_encoding.md
R65), and the assembler's statements with their pseudo-instructions (R70, R71). -/

namespace Sys2Proof

/-- The kind of a trip threshold, field `K` (R64). -/
inductive TripKind where
  | under
  | over
deriving DecidableEq, Repr

/-- A command with its operand fields, each of the width R62 gives it. Operands stand in the order of
the assembler's table (R70). Every term has a legal encoding: a field cannot hold a value that does
not fit, and `IDX`, `CH` and `RAW` values a command refuses are legal encodings (R68). -/
inductive Instr where
  /-- R180. -/
  | nop
  /-- R113: load the calibration from the two gain-trim bytes and the offset-trim byte. -/
  | calld (g1 g2 ot : Byte)
  /-- R100: combine two register bytes. -/
  | pair (hi lo : Byte)
  /-- R121: cell voltage. -/
  | cellv (hi lo : Byte)
  /-- R123: pack voltage. -/
  | packv (hi lo : Byte)
  /-- R124: target voltage in microvolts to trip-threshold byte. -/
  | tripenc (tgt : BitVec 24)
  /-- R126: trip-threshold byte to voltage. -/
  | tripdec (k : TripKind) (b : Byte)
  /-- R140: coulomb-counter signal. -/
  | ccsig (hi lo : Byte)
  /-- R151: temperature of a thermistor channel. -/
  | temp (ch hi lo : Byte)
  /-- R171: register and bit of a cell's balancing switch. -/
  | balsel (idx : Byte)
  /-- R172: new image of a balancing register. -/
  | balupd (idx : Byte) (en : Bool) (old : Byte)
  /-- R181: clear the sticky fault bit. -/
  | clrflt
deriving DecidableEq, Repr

/-- The first operand of an assembler `TEMP` (R70): a channel name, or a number. -/
inductive AsmChannel where
  | int
  | ext1
  | ext2
  | ext3
  | number (n : Nat)
deriving DecidableEq, Repr

/-- One assembler statement as a host programmer writes it: the numbers may be of any size, and the
assembler refuses those that do not fit (R70). The constructors after `clrflt` are the
pseudo-instructions of R71. -/
inductive Asm where
  | nop
  | calld (g1 g2 : Nat) (ot : Int)
  | pair (hi lo : Nat)
  | cellv (hi lo : Nat)
  | packv (hi lo : Nat)
  | tripenc (tgt : Nat)
  | tripdec (k : TripKind) (b : Nat)
  | ccsig (hi lo : Nat)
  | temp (ch : AsmChannel) (hi lo : Nat)
  | balsel (idx : Nat)
  | balupd (idx en old : Nat)
  | clrflt
  | pairRaw (raw : Nat)
  | cellvRaw (raw : Nat)
  | packvRaw (raw : Nat)
  | ccsigRaw (raw : Nat)
  | tempRaw (ch : AsmChannel) (raw : Nat)
  | tempi (hi lo : Nat)
  | balset (idx old : Nat)
  | balclr (idx old : Nat)
  /-- `TRIPENC.V` of the decimal `digits / 10 ^ places` volts: 4.27 is `⟨427, 2⟩`. -/
  | tripencVolts (digits places : Nat)
deriving DecidableEq, Repr

end Sys2Proof
end

