-- ==== Sys2Proof/WellFormed.lean ====
section
/-! DEFINITION. Which assembler statements are well formed: each operand must fit its field
(30_encoding.md R70), and a pseudo-instruction's operand must have an expansion (R71). A term of
`Instr` needs no check, its fields' types are the check; which 32-bit words are legal is decided in
Decode.lean. -/

namespace Sys2Proof

/-- The number fits an 8-bit field. -/
def fitsByte (n : Nat) : Bool := n < 256

/-- `ot` "may also be written as a signed number -128..127" (R70). -/
def fitsSignedByte (x : Int) : Bool := -128 ≤ x && x < 256

/-- The number fits the 16-bit raw operand (R71). -/
def fitsRaw (n : Nat) : Bool := n < 65536

/-- The number fits the 24-bit field `TGT`. -/
def fitsTarget (n : Nat) : Bool := n < 16777216

/-- The number fits the 1-bit field `EN`. -/
def fitsBit (n : Nat) : Bool := n < 2

/-- A channel name, or a number 0..255 (R70). -/
def AsmChannel.fits : AsmChannel → Bool
  | .number n => fitsByte n
  | _ => true

/-- The microvolts of `digits / 10 ^ places` volts are an integer that fits `TGT` (R71). -/
def fitsVolts (digits places : Nat) : Bool :=
  digits * 1000000 % 10 ^ places == 0 && fitsTarget (digits * 1000000 / 10 ^ places)

/-- The assembler accepts the statement (R70, R71). -/
def Asm.wellFormed : Asm → Bool
  | .nop => true
  | .calld g1 g2 ot => fitsByte g1 && fitsByte g2 && fitsSignedByte ot
  | .pair hi lo => fitsByte hi && fitsByte lo
  | .cellv hi lo => fitsByte hi && fitsByte lo
  | .packv hi lo => fitsByte hi && fitsByte lo
  | .tripenc tgt => fitsTarget tgt
  | .tripdec _ b => fitsByte b
  | .ccsig hi lo => fitsByte hi && fitsByte lo
  | .temp ch hi lo => ch.fits && fitsByte hi && fitsByte lo
  | .balsel idx => fitsByte idx
  | .balupd idx en old => fitsByte idx && fitsBit en && fitsByte old
  | .clrflt => true
  | .pairRaw raw => fitsRaw raw
  | .cellvRaw raw => fitsRaw raw
  | .packvRaw raw => fitsRaw raw
  | .ccsigRaw raw => fitsRaw raw
  | .tempRaw ch raw => ch.fits && fitsRaw raw
  | .tempi hi lo => fitsByte hi && fitsByte lo
  | .balset idx old => fitsByte idx && fitsByte old
  | .balclr idx old => fitsByte idx && fitsByte old
  | .tripencVolts digits places => fitsVolts digits places

end Sys2Proof
end

