-- ==== Sys2Proof/Decode.lean ====
section
/-! DEFINITION. The opcode map, the decoder and the encoder (30_encoding.md R60 to R75), and the
assembler built on them (R70, R71). -/

namespace Sys2Proof

/-! ## The opcode map -/

/-- The operation a command word selects; one per row of R65. -/
inductive Op where
  | nop | calld | pair | cellv | packv | tripenc | tripdec | ccsig | temp | balsel | balupd | clrflt
deriving DecidableEq, Repr

/-- The eight formats of R62. -/
inductive Format where
  | n | p | c | e | d | t | s | u
deriving DecidableEq, Repr

/-- One row of R65: a word `c` is the command exactly when `c &&& mask = pattern`. -/
structure OpRow where
  mnemonic : String
  op : Op
  format : Format
  pattern : Word
  mask : Word
deriving DecidableEq, Repr

/-- The twelve rows of R65. -/
def opcodeMap : List OpRow :=
  [ ⟨"NOP",     .nop,     .n, 0x00000000#32, 0xFFFFFFFF#32⟩,
    ⟨"CALLD",   .calld,   .c, 0x10000000#32, 0xFF000000#32⟩,
    ⟨"PAIR",    .pair,    .p, 0x20000000#32, 0xFFFF0000#32⟩,
    ⟨"CELLV",   .cellv,   .p, 0x30000000#32, 0xFFFF0000#32⟩,
    ⟨"PACKV",   .packv,   .p, 0x40000000#32, 0xFFFF0000#32⟩,
    ⟨"TRIPENC", .tripenc, .e, 0x50000000#32, 0xFF000000#32⟩,
    ⟨"TRIPDEC", .tripdec, .d, 0x60000000#32, 0xFFFFFE00#32⟩,
    ⟨"CCSIG",   .ccsig,   .p, 0x70000000#32, 0xFFFF0000#32⟩,
    ⟨"TEMP",    .temp,    .t, 0x80000000#32, 0xFF000000#32⟩,
    ⟨"BALSEL",  .balsel,  .s, 0x90000000#32, 0xFFFF00FF#32⟩,
    ⟨"BALUPD",  .balupd,  .u, 0xA0000000#32, 0xFFFE0000#32⟩,
    ⟨"CLRFLT",  .clrflt,  .n, 0xB0000000#32, 0xFFFFFFFF#32⟩ ]

/-- The word is the row's command (R65). -/
def OpRow.matches (r : OpRow) (c : Word) : Bool := (c &&& r.mask) == r.pattern

/-! ## Operand fields (R62, R63, R64) -/

/-- `OP = c[31:28]` (R61). -/
def fieldOP (c : Word) : BitVec 4 := c.extractLsb' 28 4

/-- `HI = c[15:8]`, the byte from the register at the lower address (R44, R63). -/
def fieldHI (c : Word) : Byte := c.extractLsb' 8 8

/-- `LO = c[7:0]` (R63). -/
def fieldLO (c : Word) : Byte := c.extractLsb' 0 8

/-- `G1 = c[23:16]`. -/
def fieldG1 (c : Word) : Byte := c.extractLsb' 16 8

/-- `G2 = c[15:8]`. -/
def fieldG2 (c : Word) : Byte := c.extractLsb' 8 8

/-- `OT = c[7:0]`. -/
def fieldOT (c : Word) : Byte := c.extractLsb' 0 8

/-- `TGT = c[23:0]`. -/
def fieldTGT (c : Word) : BitVec 24 := c.extractLsb' 0 24

/-- `K = c[8]`: 1 is overvoltage, 0 is undervoltage. -/
def fieldK (c : Word) : TripKind := if c.getLsbD 8 then .over else .under

/-- `B = c[7:0]`. -/
def fieldB (c : Word) : Byte := c.extractLsb' 0 8

/-- `CH = c[23:16]`. -/
def fieldCH (c : Word) : Byte := c.extractLsb' 16 8

/-- `IDX = c[15:8]`. -/
def fieldIDX (c : Word) : Byte := c.extractLsb' 8 8

/-- `EN = c[16]`. -/
def fieldEN (c : Word) : Bool := c.getLsbD 16

/-- `OLD = c[7:0]`. -/
def fieldOLD (c : Word) : Byte := c.extractLsb' 0 8

/-- The operation's command with the operand fields read from the word. -/
def Op.instr (op : Op) (c : Word) : Instr :=
  match op with
  | .nop => .nop
  | .calld => .calld (fieldG1 c) (fieldG2 c) (fieldOT c)
  | .pair => .pair (fieldHI c) (fieldLO c)
  | .cellv => .cellv (fieldHI c) (fieldLO c)
  | .packv => .packv (fieldHI c) (fieldLO c)
  | .tripenc => .tripenc (fieldTGT c)
  | .tripdec => .tripdec (fieldK c) (fieldB c)
  | .ccsig => .ccsig (fieldHI c) (fieldLO c)
  | .temp => .temp (fieldCH c) (fieldHI c) (fieldLO c)
  | .balsel => .balsel (fieldIDX c)
  | .balupd => .balupd (fieldIDX c) (fieldEN c) (fieldOLD c)
  | .clrflt => .clrflt

/-! ## Decoding -/

/-- Why a word is `ILLEGAL` (R75). Both reasons end in `E_ILL`. -/
inductive Illegal where
  /-- `OP` is 0xC, 0xD, 0xE or 0xF (R66). -/
  | reservedOpcode
  /-- `OP` is defined and a reserved bit of its format is 1 (R67). -/
  | reservedBit
deriving DecidableEq, Repr

/-- Decode a word: the row of R65 that it matches, or `ILLEGAL` (R75). -/
def decode (c : Word) : Except Illegal Instr :=
  match opcodeMap.find? (·.matches c) with
  | some r => .ok (r.op.instr c)
  | none => .error (if 0xC#4 ≤ fieldOP c then .reservedOpcode else .reservedBit)

/-- The command an opcode-table row's bits decode to. A command is one 32-bit word presented whole
(R60), so there is no byte order to choose (R44). -/
def decodeTableWord (nbits w : Nat) : Option Instr :=
  match decode (BitVec.ofNat 32 (w % 2 ^ nbits)) with
  | .ok i => some i
  | .error _ => none

/-! ## Encoding -/

/-- The field `K` of a trip kind (R64). -/
def TripKind.bit : TripKind → BitVec 1
  | .under => 0#1
  | .over => 1#1

/-- The word of a command: its fields laid out as the format tables of R62 draw them, most
significant first, with `OP` in front and zeros in the reserved places. -/
def encode : Instr → Word
  | .nop => 0x0#4 ++ 0#28
  | .calld g1 g2 ot => 0x1#4 ++ 0#4 ++ g1 ++ g2 ++ ot
  | .pair hi lo => 0x2#4 ++ 0#12 ++ hi ++ lo
  | .cellv hi lo => 0x3#4 ++ 0#12 ++ hi ++ lo
  | .packv hi lo => 0x4#4 ++ 0#12 ++ hi ++ lo
  | .tripenc tgt => 0x5#4 ++ 0#4 ++ tgt
  | .tripdec k b => 0x6#4 ++ 0#19 ++ k.bit ++ b
  | .ccsig hi lo => 0x7#4 ++ 0#12 ++ hi ++ lo
  | .temp ch hi lo => 0x8#4 ++ 0#4 ++ ch ++ hi ++ lo
  | .balsel idx => 0x9#4 ++ 0#12 ++ idx ++ 0#8
  | .balupd idx en old => 0xA#4 ++ 0#11 ++ BitVec.ofBool en ++ idx ++ old
  | .clrflt => 0xB#4 ++ 0#28

/-! ## The assembler (R70, R71), on operand values and not on text (log entry 13) -/

/-- The number a channel operand stands for (R70). -/
def AsmChannel.code : AsmChannel → Nat
  | .int => 0
  | .ext1 => 1
  | .ext2 => 2
  | .ext3 => 3
  | .number n => n

/-- The high byte of a raw operand written as one number (R71). -/
def rawHigh (raw : Nat) : Byte := BitVec.ofNat 8 (raw / 256)

/-- The low byte of a raw operand written as one number (R71). -/
def rawLow (raw : Nat) : Byte := BitVec.ofNat 8 raw

/-- The command of a statement whose operands fit, the pseudo-instructions by their expansions. -/
def Asm.expand : Asm → Instr
  | .nop => .nop
  | .calld g1 g2 ot => .calld (BitVec.ofNat 8 g1) (BitVec.ofNat 8 g2) (BitVec.ofInt 8 ot)
  | .pair hi lo => .pair (BitVec.ofNat 8 hi) (BitVec.ofNat 8 lo)
  | .cellv hi lo => .cellv (BitVec.ofNat 8 hi) (BitVec.ofNat 8 lo)
  | .packv hi lo => .packv (BitVec.ofNat 8 hi) (BitVec.ofNat 8 lo)
  | .tripenc tgt => .tripenc (BitVec.ofNat 24 tgt)
  | .tripdec k b => .tripdec k (BitVec.ofNat 8 b)
  | .ccsig hi lo => .ccsig (BitVec.ofNat 8 hi) (BitVec.ofNat 8 lo)
  | .temp ch hi lo => .temp (BitVec.ofNat 8 ch.code) (BitVec.ofNat 8 hi) (BitVec.ofNat 8 lo)
  | .balsel idx => .balsel (BitVec.ofNat 8 idx)
  | .balupd idx en old => .balupd (BitVec.ofNat 8 idx) (en == 1) (BitVec.ofNat 8 old)
  | .clrflt => .clrflt
  | .pairRaw raw => .pair (rawHigh raw) (rawLow raw)
  | .cellvRaw raw => .cellv (rawHigh raw) (rawLow raw)
  | .packvRaw raw => .packv (rawHigh raw) (rawLow raw)
  | .ccsigRaw raw => .ccsig (rawHigh raw) (rawLow raw)
  | .tempRaw ch raw => .temp (BitVec.ofNat 8 ch.code) (rawHigh raw) (rawLow raw)
  | .tempi hi lo => .temp 0#8 (BitVec.ofNat 8 hi) (BitVec.ofNat 8 lo)
  | .balset idx old => .balupd (BitVec.ofNat 8 idx) true (BitVec.ofNat 8 old)
  | .balclr idx old => .balupd (BitVec.ofNat 8 idx) false (BitVec.ofNat 8 old)
  | .tripencVolts digits places => .tripenc (BitVec.ofNat 24 (digits * 1000000 / 10 ^ places))

/-- The word of a statement; "an assembler refuses an operand that does not fit" (R70). -/
def assemble (a : Asm) : Option Word := if a.wellFormed then some (encode a.expand) else none

end Sys2Proof
end

