-- ==== Sys2Proof/Machine/Afe.lean ====
section
/-! DEFINITION. The AFE's register space (20_memory.md R41): one space of 8-bit registers, each with an address,
and the names the spec gives some of them (R48). It is the environment of the VSC (00_scope.md R6). -/

namespace Sys2Proof.Machine

/-- The three external thermistor inputs, `k = 1..3` of R48. -/
inductive ExternalInput where
  | one | two | three
deriving DecidableEq, Repr, Inhabited

/-- The AFE registers by their symbolic names (R48); `VCELL_HI(n)` and `VCELL_LO(n)` have the cell number
less one, since a cell index is one of 1 to 15 (R17). -/
inductive AfeReg where
  | gtrim1 | gtrim2 | otrim
  | vcellHi (n : Fin 15) | vcellLo (n : Fin 15)
  | vpackHi | vpackLo
  | ccHi | ccLo
  | tsHi (k : ExternalInput) | tsLo (k : ExternalInput)
  | balA | balB | balC
  | timingCfg | faultStat | ovTrip | uvTrip | ctrl
deriving DecidableEq, Repr, Inhabited

/-- The factory-trim registers (R48): the two of the gain trim and the one of the offset trim. -/
inductive TrimReg where
  | gtrim1 | gtrim2 | otrim
deriving DecidableEq, Repr, Inhabited

/-- The register's name in the space. -/
def TrimReg.reg : TrimReg → AfeReg
  | .gtrim1 => .gtrim1
  | .gtrim2 => .gtrim2
  | .otrim => .otrim

/-- The single control bits of R48 whose register and position the spec leaves open. -/
inductive AfeBit where
  /-- `TSEL`: internal or external thermistor category. -/
  | tsel
  /-- `ADC_EN`. -/
  | adcEn
  /-- `CC_EN`: continuous coulomb counting. -/
  | ccEn
deriving DecidableEq, Repr, Inhabited

/-- Where a control bit is: the address of its register and its position there. -/
structure BitPlace where
  address : Nat
  bit : Fin 8
deriving DecidableEq, Repr, Inhabited

/-- The AFE's registers at one moment, by address (R41). They change on their own between two transactions
(R50). R41 gives no address width (91_not_in_source.md N9): an address is any natural number and each has a
register. DESIGN CHOICE, unsafe for claims about the host at the last address of a bounded space (log
entry 18). -/
abbrev AfeRegs := Nat → Byte

/-- The AFE as the host meets it. -/
structure Afe where
  /-- The address of each name; the spec gives none, a host takes them as parameters (R48). -/
  base : AfeReg → Nat
  /-- What the AFE does to its own registers before the transaction of each number: anything (R50). -/
  drift : Nat → AfeRegs → AfeRegs

/-- The address of a named register. The low register of a pair is the one after its high register
(R43); addresses do not wrap (log entry 18). -/
def Afe.address (afe : Afe) : AfeReg → Nat
  | .vcellLo n => afe.base (.vcellHi n) + 1
  | .vpackLo => afe.base .vpackHi + 1
  | .ccLo => afe.base .ccHi + 1
  | .tsLo k => afe.base (.tsHi k) + 1
  | .gtrim1 => afe.base .gtrim1
  | .gtrim2 => afe.base .gtrim2
  | .otrim => afe.base .otrim
  | .vcellHi n => afe.base (.vcellHi n)
  | .vpackHi => afe.base .vpackHi
  | .ccHi => afe.base .ccHi
  | .tsHi k => afe.base (.tsHi k)
  | .balA => afe.base .balA
  | .balB => afe.base .balB
  | .balC => afe.base .balC
  | .timingCfg => afe.base .timingCfg
  | .faultStat => afe.base .faultStat
  | .ovTrip => afe.base .ovTrip
  | .uvTrip => afe.base .uvTrip
  | .ctrl => afe.base .ctrl

/-- An AFE that changes nothing on its own. -/
def Afe.Quiet (afe : Afe) : Prop := ∀ n regs, afe.drift n regs = regs

end Sys2Proof.Machine
end

