-- ==== Sys2Proof/Config.lean ====
section
/-! DEFINITION. What an implementation of the VSC fixes and the spec leaves open (00_scope.md R8), as
constants without a body: no proof can see their values, so a claim holds for every value. -/

namespace Sys2Proof

/-- `NUM_CELLS - 1`. R8 bounds `NUM_CELLS` by 1 and 15 and gives no value; a `Fin 15` plus one
ranges over exactly those numbers. DESIGN CHOICE of form, safe (log entry 5). -/
opaque Config.numCellsLessOne : Fin 15

/-- The free part of `LUT_OHM`: by how many ohms beyond one the threshold of row `i` exceeds that of
row `i + 1`. Every strictly descending table that ends in 8313 (R8, R155) is one choice of these
sixteen numbers and every choice is such a table. DESIGN CHOICE of form, safe (log entry 6). -/
opaque Config.lutExcess : Fin 16 → Nat

/-- `LATENCY`, clock cycles per command (R8). R243: no rule depends on it, and nothing here reads it
(log entry 7). -/
opaque Config.latency : Nat

/-- What a quotient with divisor 0 would be, for each dividend. R12 defines `tdiv(a, b)` for `b ≠ 0`
only; by R130 no run divides by 0. A free value, safe (log entry 8). -/
opaque Config.tdivByZero : Int → Int

/-! ## What the spec leaves open of the AFE

For the host's procedures only: the VSC depends on none of these (91_not_in_source.md N9 to N14). All are
free values, safe (log entry 17). -/

/-- The register's address and the position of each control bit (N11). -/
opaque Config.bitPlace : Machine.AfeBit → Machine.BitPlace

/-- The value of `TSEL` that selects the external category (N11). -/
opaque Config.tselExternal : Bool

/-- The address of the high byte of the internal temperature reading (N10); its low byte is at the next
address, like every pair's (R43). -/
opaque Config.internalHigh : Nat

/-- The "fixed recommended value" of `TIMING_CFG` (N11). -/
opaque Config.timingValue : Byte

/-- Which factory-trim register the readiness probe polls (N13): one of the three (70_reset_and_hazards.md
R233). -/
opaque Config.probeTrim : Machine.TrimReg

/-- The position of the device-ready-fault bit in `FAULT_STAT` (N12). -/
opaque Config.faultBit : Fin 8

/-- The write that clears the fault, for the `FAULT_STAT` byte just read: its address and value (N12). -/
opaque Config.faultClear : Byte → Nat × Byte

/-- The position in `CTRL` of the upper bit of the ship-mode patterns (N14). -/
opaque Config.shipUpper : Fin 8

/-- The position of their lower bit, counted among the seven positions that are not the upper bit's
(N14): every pair of two different positions is one choice of these two numbers. -/
opaque Config.shipLowerAmongRest : Fin 7

/-- What the other six bits of `CTRL` hold in the write of each pattern (N14); the two bits at the
pattern's places are not looked at. -/
opaque Config.shipRest : BitVec 2 → Byte

end Sys2Proof
end

