-- ==== Sys2Proof/Machine/State.lean ====
section
/-! DEFINITION. The state of the machine: the VSC's registers (10_state.md R20), and what stands at its
inputs (R11, R32, 70_reset_and_hazards.md R230). -/

namespace Sys2Proof.Machine

/-- One thing the host does to the VSC: it "can change the state only by issuing a command or by
reset" (R32). Reset is a level, asserted and later released (R230). -/
inductive HostAction where
  | issue (c : Word)
  | assertReset
  | releaseReset
deriving DecidableEq, Repr

/-- The registers of R20, 105 bits, and two fields of the MODEL that stand for the VSC's inputs. -/
@[ext]
structure State where
  /-- `GAIN`, microvolts per LSB (R21). -/
  gain : BitVec 9
  /-- `OFFS`, millivolts, two's complement (R22). -/
  offs : BitVec 8
  /-- `RES`, two's complement (R24). -/
  res : BitVec 32
  /-- `AUX` (R24). -/
  aux : BitVec 16
  /-- `STATUS`: `ERR` in bits 7:4, `FLT` in bit 1, `CALV` in bit 0 (R25). -/
  status : BitVec 8
  /-- `ECMD`, the last command word that ended in error (R29). -/
  ecmd : BitVec 32
  /-- The reset input is asserted (R230). An input, not a register (log entry 3). -/
  resetAsserted : Bool
  /-- What the host does from now on, in its order (R18, R244). The environment's, not a buffer of
  the VSC, which has none (R35) (log entry 1). -/
  hostActions : List HostAction
deriving DecidableEq, Repr

/-- The VSC right after reset: every register 0 (R33), reset released, no command presented. -/
def State.reset : State :=
  { gain := 0#9, offs := 0#8, res := 0#32, aux := 0#16, status := 0#8, ecmd := 0#32,
    resetAsserted := false, hostActions := [] }

/-- Why the machine would stop with a fault. There is no such reason: "an error never stops or locks
the block" (R201), "`exec` is total and every command completes" (R244). Nothing raises it, which
is safe (log entry 10). -/
inductive Fault where
deriving DecidableEq, Repr

/-- Why the machine would refuse a command. -/
inductive Refusal where
  /-- Raised by `exec` for a command without a meaning: no command of this model. Safe. -/
  | notModelled (mnemonic : String)
deriving DecidableEq, Repr

/-- One step's outcome on this machine. -/
abbrev Outcome := Host.Outcome State Fault Refusal

end Sys2Proof.Machine
end

