-- ==== Sys2Proof/Machine/Flags.lean ====
section
/-! DEFINITION. The fields of `STATUS` (10_state.md R25) and the error codes (60_exceptions.md R200). -/

namespace Sys2Proof.Machine

/-- The errors a command can end in (R200). -/
inductive ErrorCode where
  | ill | noCal | raw14 | arg | lut | range
deriving DecidableEq, Repr

/-- The value of `ERR` that reports the error (R200). -/
def ErrorCode.code : ErrorCode → BitVec 4
  | .ill => 1#4
  | .noCal => 2#4
  | .raw14 => 3#4
  | .arg => 4#4
  | .lut => 5#4
  | .range => 6#4

/-- `STATUS` made of its fields; bits 3:2 are always 0 (R25; log entry 11). -/
def packStatus (err : BitVec 4) (flt calv : Bool) : BitVec 8 :=
  err ++ 0#2 ++ BitVec.ofBool flt ++ BitVec.ofBool calv

/-- `CALV`: `GAIN` and `OFFS` hold values loaded by CALLD (R26). -/
def State.calv (s : State) : Bool := s.status.getLsbD 0

/-- `FLT`, the sticky fault bit (R27). -/
def State.flt (s : State) : Bool := s.status.getLsbD 1

/-- `ERR`, the error code of the most recent command (R28). -/
def State.err (s : State) : BitVec 4 := s.status.extractLsb' 4 4

/-- The reserved bits 3:2 of `STATUS` (R25). -/
def State.statusReserved (s : State) : BitVec 2 := s.status.extractLsb' 2 2

end Sys2Proof.Machine
end

