-- ==== Sys2Proof/Machine/Ops.lean ====
section
/-! DEFINITION. The named operations over the registers: writing a result, loading the calibration, the
error entry (60_exceptions.md R201), the success epilogue (R202), and reset (R230). The VSC has no
memory (20_memory.md R40) and no return from an error (R204). -/

namespace Sys2Proof.Machine

/-- What a command's rule computes for `RES` and `AUX`. -/
structure Result where
  res : BitVec 32
  aux : BitVec 16
deriving DecidableEq, Repr

/-- Store an integer into `RES` and a number into `AUX` at their widths (R13). -/
def Result.store (res : Int) (aux : Nat) : Result :=
  { res := BitVec.ofInt 32 res, aux := BitVec.ofNat 16 aux }

/-- Write `RES` and `AUX` (R24). -/
def writeResult (r : Result) (s : State) : State := { s with res := r.res, aux := r.aux }

/-- Write `STATUS` by its fields (R25). -/
def writeStatus (err : BitVec 4) (flt calv : Bool) (s : State) : State :=
  { s with status := packStatus err flt calv }

/-- Load `GAIN` and `OFFS` and set `CALV` (R113). -/
def loadCalibration (gain : BitVec 9) (offs : BitVec 8) (s : State) : State :=
  writeStatus s.err s.flt true { s with gain := gain, offs := offs }

/-- `FLT <- 0`, what CLRFLT itself writes (R181). -/
def clearFault (s : State) : State := writeStatus s.err false s.calv s

/-- The error entry (R201): `ERR <- e`, `FLT <- 1`, `ECMD <- c`, nothing else. -/
def raise (e : ErrorCode) (c : Word) (s : State) : State :=
  writeStatus e.code true s.calv { s with ecmd := c }

/-- The success epilogue (R202): `ERR <- 0`. -/
def succeed (s : State) : State := writeStatus 0#4 s.flt s.calv s

/-- End the command whose word is `c`: in the error entry, or with its results and the success
epilogue (R11). A meaning gives `encode` of the command as `c` (log entry 9). -/
def complete (c : Word) (r : Except ErrorCode Result) (s : State) : Outcome :=
  match r with
  | .error e => .next (raise e c s)
  | .ok v => .next (succeed (writeResult v s))

/-- Every register to its reset value (R33, R230); the inputs are not registers. -/
def clearRegisters (s : State) : State :=
  { s with gain := 0#9, offs := 0#8, res := 0#32, aux := 0#16, status := 0#8, ecmd := 0#32 }

/-- While the reset input is asserted the state is the reset state (R230). -/
def holdReset (s : State) : State := if s.resetAsserted then clearRegisters s else s

end Sys2Proof.Machine
end

