-- ==== Sys2Proof/Machine/Operands.lean ====
section
/-! DEFINITION. Operand assembly and the checks that refuse an operand (30_encoding.md R63,
40_pair_extract.md R101), the calibration check (42_voltage.md R120), the division of R12, and the
open parameters of R8 in the form the rules use. -/

namespace Sys2Proof.Machine

/-- `tdiv(a, b)`: division truncated toward zero (R12). The rule is for `b ≠ 0`; for `b = 0` a free
value (log entry 8). -/
def tdiv (a b : Int) : Int := if b = 0 then Config.tdivByZero a else Int.tdiv a b

/-- `RAW = (HI << 8) | LO`, the high byte first (R44, R63). -/
def rawOf (hi lo : Byte) : BitVec 16 := hi ++ lo

/-- The `RawField14` check: bits 15:14 of `RAW` must be 0, and the value is then zero-extended
(R101, R102). -/
def raw14 (hi lo : Byte) : Except ErrorCode Nat :=
  if (rawOf hi lo).extractLsb' 14 2 = 0#2 then .ok (rawOf hi lo).toNat else .error .raw14

/-- An 8-bit image with the bits of a mask set or cleared, every other bit kept (45_balancing.md R172). -/
def withMask (old mask : Byte) (v : Bool) : Byte := if v then old ||| mask else old &&& ~~~mask

/-- `CALV` must be 1, before any operand is looked at (R120, R203); then `r`. -/
def requireCalibration (s : State) (r : Except ErrorCode Result) : Except ErrorCode Result :=
  if s.calv then r else .error .noCal

/-- `G`, microvolts per LSB as an integer (42_voltage.md). -/
def State.gainInt (s : State) : Int := s.gain.toNat

/-- `off = sext_8(OFFS)`, millivolts (R22). -/
def State.offsInt (s : State) : Int := s.offs.toInt

/-- The parameter `NUM_CELLS`, 1 to 15 (R8). -/
def numCells : Nat := Config.numCellsLessOne.val + 1

/-- A strictly descending table of thresholds that ends in 8313 Ω (R8, R155): each number says by how
much more than one a row exceeds the next. -/
def lutFrom : List Nat → List Nat
  | [] => [8313]
  | d :: ds =>
    let below := lutFrom ds
    (below.headD 0 + d + 1) :: below

/-- The parameter `LUT_OHM`, its rows 0 to 16 in order (R8). -/
def lutOhm : List Nat := lutFrom (List.ofFn Config.lutExcess)

end Sys2Proof.Machine
end

