-- ==== Sys2Proof/Machine/Balancing.lean ====
section
/-! DEFINITION. The cell-balancing bit-mapper: BALSEL and BALUPD (45_balancing.md). -/

namespace Sys2Proof.Machine

/-- The three balancing registers (R170). -/
inductive BalReg where
  | a | b | c
deriving DecidableEq, Repr

/-- The register select code `sel` (R170). -/
def BalReg.sel : BalReg → Nat
  | .a => 0
  | .b => 1
  | .c => 2

/-- One range of cell indices, its register, and the index its bit 0 stands for (R170). -/
structure BalRange where
  first : Nat
  last : Nat
  reg : BalReg
  base : Nat
deriving DecidableEq, Repr

/-- The map's three ranges with the source's literal bases (R170, 90_conflicts.md C10). -/
def balRanges : List BalRange := [⟨1, 5, .a, 0⟩, ⟨6, 10, .b, 6⟩, ⟨11, 15, .c, 11⟩]

/-- Where a cell's balancing switch is: its register and its bit there. -/
structure BalTarget where
  reg : BalReg
  bit : Nat
deriving DecidableEq, Repr

/-- The bit as an 8-bit one-hot mask (R170). -/
def BalTarget.mask (t : BalTarget) : Byte := 1#8 <<< t.bit

/-- `balmap` (R170); none for an index outside [1,15] (R173). -/
def balmap (idx : Byte) : Option BalTarget :=
  match balRanges.find? (fun r => r.first ≤ idx.toNat && idx.toNat ≤ r.last) with
  | none => none
  | some r => some { reg := r.reg, bit := idx.toNat - r.base }

/-- BALSEL's rule (R171). -/
def balselResult (idx : Byte) : Except ErrorCode Result :=
  match balmap idx with
  | none => .error .arg
  | some t => .ok (Result.store t.mask.toNat t.reg.sel)

/-- BALSEL (R171). -/
def execBalsel (idx : Byte) (s : State) : Outcome :=
  complete (encode (.balsel idx)) (balselResult idx) s

/-- The new image: the target's bit set or cleared, every other bit kept (R172). -/
def newImage (t : BalTarget) (en : Bool) (old : Byte) : Byte := withMask old t.mask en

/-- BALUPD's rule (R172). -/
def balupdResult (idx : Byte) (en : Bool) (old : Byte) : Except ErrorCode Result :=
  match balmap idx with
  | none => .error .arg
  | some t => .ok (Result.store (newImage t en old).toNat t.reg.sel)

/-- BALUPD (R172). -/
def execBalupd (idx : Byte) (en : Bool) (old : Byte) (s : State) : Outcome :=
  complete (encode (.balupd idx en old)) (balupdResult idx en old) s

end Sys2Proof.Machine
end

