-- ==== Sys2Proof/Machine/Calibration.lean ====
section
/-! DEFINITION. CALLD, loading the calibration (41_calibration.md). -/

namespace Sys2Proof.Machine

/-- `gainTrim = ((G1 & 0x0C) << 1) | (G2 >> 5)`, 0..31 (R110). -/
def gainTrim (g1 g2 : Byte) : Byte := ((g1 &&& 0x0C#8) <<< 1) ||| (g2 >>> 5)

/-- The gain, `365 + gainTrim` microvolts per LSB (R111). -/
def gainOf (trim : Byte) : BitVec 9 := BitVec.ofNat 9 (365 + trim.toNat)

/-- CALLD (R113). No operand value is refused. -/
def execCalld (g1 g2 ot : Byte) (s : State) : Outcome :=
  .next (succeed (writeResult (Result.store (gainTrim g1 g2).toNat 0)
    (loadCalibration (gainOf (gainTrim g1 g2)) ot s)))

end Sys2Proof.Machine
end

