-- ==== Sys2Proof/Machine/Pair.lean ====
section
/-! DEFINITION. PAIR, the register-pair field (40_pair_extract.md), and CCSIG, the coulomb-counter signal
(43_coulomb.md): the two commands over a 16-bit field. -/

namespace Sys2Proof.Machine

/-- PAIR (R100): `RES <- zext_32(RAW)`, no bit masked. -/
def execPair (hi lo : Byte) (s : State) : Outcome :=
  complete (encode (.pair hi lo)) (.ok (Result.store (rawOf hi lo).toNat 0)) s

/-- CCSIG (R140): `RES <- sext_16(RAW) * 844`, in units of 10 nV (R141). -/
def execCcsig (hi lo : Byte) (s : State) : Outcome :=
  complete (encode (.ccsig hi lo)) (.ok (Result.store ((rawOf hi lo).toInt * 844) 0)) s

end Sys2Proof.Machine
end

