-- ==== Sys2Proof/Machine/System.lean ====
section
/-! DEFINITION. The housekeeping commands NOP and CLRFLT (46_system.md). -/

namespace Sys2Proof.Machine

/-- NOP (R180): only the epilogue writes. -/
def execNop (s : State) : Outcome := .next (succeed s)

/-- CLRFLT (R181): `FLT <- 0`, then the epilogue. -/
def execClrflt (s : State) : Outcome := .next (succeed (clearFault s))

end Sys2Proof.Machine
end

