-- ==== Sys2Proof/Machine/Temperature.lean ====
section
/-! DEFINITION. TEMP: the internal sensor's linear formula and the thermistor lookup
(44_temperature.md). Temperatures are millidegrees Celsius (00_scope.md R15). -/

namespace Sys2Proof.Machine

/-- The thermistor channels of R150. -/
inductive Channel where
  | internal | external1 | external2 | external3
deriving DecidableEq, Repr

/-- The channel a `CH` value names; 4 to 255 name none (R150). -/
def channelOf (ch : Byte) : Option Channel :=
  match ch.toNat with
  | 0 => some .internal
  | 1 => some .external1
  | 2 => some .external2
  | 3 => some .external3
  | _ => none

/-- `V = 382 * raw` microvolts (R152). -/
def thermistorMicrovolts (raw : Nat) : Int := 382 * raw

/-- The internal channel's temperature, one division truncated toward zero (R153). -/
def internalMillidegrees (raw : Nat) : Int := tdiv (6525000 - 1910 * raw) 21

/-- `Den = 3_300_000 - V`, the rail less the thermistor voltage (R154). -/
def dividerDen (raw : Nat) : Int := 3300000 - thermistorMicrovolts raw

/-- The resistance exceeds a threshold: `R > L` with the positive denominator multiplied out (R154). -/
def exceeds (raw ohm : Nat) : Bool := ohm * dividerDen raw < 10000 * thermistorMicrovolts raw

/-- The table row of a reading: the first whose threshold the resistance exceeds, none where the
divider voltage is at or above the rail or no threshold is exceeded (R157, R158). -/
def lutRow (lut : List Nat) (raw : Nat) : Option Nat :=
  if dividerDen raw ≤ 0 then none else lut.findIdx? (exceeds raw)

/-- An external channel's result with the table `lut` (R151). -/
def externalResult (lut : List Nat) (raw : Nat) : Except ErrorCode Result :=
  match lutRow lut raw with
  | none => .error .lut
  | some i => .ok (Result.store ((-50 + 5 * i) * 1000) i)

/-- A channel's result (R151); the three external channels convert alike (R160). -/
def channelResult (lut : List Nat) (raw : Nat) : Channel → Except ErrorCode Result
  | .internal => .ok (Result.store (internalMillidegrees raw) 0)
  | .external1 => externalResult lut raw
  | .external2 => externalResult lut raw
  | .external3 => externalResult lut raw

/-- TEMP's rule (R151) with the table `lut`: `E_ARG`, then `E_RAW14`, then the conversion. -/
def tempResult (lut : List Nat) (ch hi lo : Byte) : Except ErrorCode Result :=
  match channelOf ch with
  | none => .error .arg
  | some channel =>
    match raw14 hi lo with
    | .error e => .error e
    | .ok raw => channelResult lut raw channel

/-- TEMP (R151), at the parameter `LUT_OHM`. -/
def execTemp (ch hi lo : Byte) (s : State) : Outcome :=
  complete (encode (.temp ch hi lo)) (tempResult lutOhm ch hi lo) s

end Sys2Proof.Machine
end

