-- ==== Sys2Proof/Machine/Voltage.lean ====
section
/-! DEFINITION. Voltage conversion, forward and inverse: CELLV, PACKV, TRIPENC, TRIPDEC
(42_voltage.md). Voltages are microvolts, exact (00_scope.md R10, R15). -/

namespace Sys2Proof.Machine

/-- The cell formula `raw * G + 1000 * off` (R121), without the zero case. -/
def linearMicrovolts (raw : Nat) (s : State) : Int := raw * s.gainInt + 1000 * s.offsInt

/-- The cell voltage: exactly 0 for a zero field, whatever the calibration (R122). -/
def cellMicrovolts (raw : Nat) (s : State) : Int :=
  if raw = 0 then 0 else linearMicrovolts raw s

/-- The pack voltage of a pack of `cells` cells; no zero case (R123). -/
def packMicrovolts (cells raw : Nat) (s : State) : Int :=
  4 * s.gainInt * raw + cells * 1000 * s.offsInt

/-- CELLV's rule (R121): `E_NOCAL`, then `E_RAW14`, then the voltage. -/
def cellvResult (hi lo : Byte) (s : State) : Except ErrorCode Result :=
  requireCalibration s <|
    match raw14 hi lo with
    | .error e => .error e
    | .ok raw => .ok (Result.store (cellMicrovolts raw s) 0)

/-- CELLV (R121). -/
def execCellv (hi lo : Byte) (s : State) : Outcome :=
  complete (encode (.cellv hi lo)) (cellvResult hi lo s) s

/-- PACKV's rule (R123) for a pack of `cells` cells. -/
def packvResult (cells : Nat) (hi lo : Byte) (s : State) : Except ErrorCode Result :=
  requireCalibration s <|
    match raw14 hi lo with
    | .error e => .error e
    | .ok raw => .ok (Result.store (packMicrovolts cells raw s) 0)

/-- PACKV (R123), at the parameter `NUM_CELLS`. -/
def execPackv (hi lo : Byte) (s : State) : Outcome :=
  complete (encode (.packv hi lo)) (packvResult numCells hi lo s) s

/-- The quotient of the trip encode, before the range check (R124). -/
def tripQuotient (tgt : BitVec 24) (s : State) : Int :=
  tdiv (tgt.toNat - 1000 * s.offsInt) s.gainInt

/-- `q[11:4]`, the byte stored in the trip register (R124, R127). -/
def tripByte (q : BitVec 14) : Byte := q.extractLsb' 4 8

/-- TRIPENC's rule (R124): a quotient outside 0..16383 is refused (R125). -/
def tripencResult (tgt : BitVec 24) (s : State) : Except ErrorCode Result :=
  requireCalibration s <|
    if tripQuotient tgt s < 0 ∨ tripQuotient tgt s > 16383 then .error .range
    else
      let q := BitVec.ofInt 14 (tripQuotient tgt s)
      .ok (Result.store (tripByte q).toNat q.toNat)

/-- TRIPENC (R124). -/
def execTripenc (tgt : BitVec 24) (s : State) : Outcome :=
  complete (encode (.tripenc tgt)) (tripencResult tgt s) s

/-- The fixed prefix and suffix bits of the 14-bit trip field (R126, R127). -/
def tripFixed : TripKind → BitVec 14
  | .over => 0x2008#14
  | .under => 0x1000#14

/-- The 14-bit trip field of a register byte, `(B << 4) | fixed` (R126, R127). -/
def tripField (k : TripKind) (b : Byte) : BitVec 14 := (b.setWidth 14 <<< 4) ||| tripFixed k

/-- TRIPDEC's rule (R126): the cell formula on the trip field, which is never 0. -/
def tripdecResult (k : TripKind) (b : Byte) (s : State) : Except ErrorCode Result :=
  requireCalibration s <|
    .ok (Result.store (linearMicrovolts (tripField k b).toNat s) (tripField k b).toNat)

/-- TRIPDEC (R126). -/
def execTripdec (k : TripKind) (b : Byte) (s : State) : Outcome :=
  complete (encode (.tripdec k b)) (tripdecResult k b s) s

end Sys2Proof.Machine
end

