-- ==== Sys2Proof/Machine/Dispatch.lean ====
section
/-! DEFINITION. The meaning of each decoded command (00_scope.md R11, 30_encoding.md R65). -/

namespace Sys2Proof.Machine

/-- The step of one decoded command. -/
def exec (i : Instr) (s : State) : Host.Outcome State Fault Refusal :=
  match i with
  | .nop => Sys2Proof.Machine.execNop s
  | .calld g1 g2 ot => Sys2Proof.Machine.execCalld g1 g2 ot s
  | .pair hi lo => Sys2Proof.Machine.execPair hi lo s
  | .cellv hi lo => Sys2Proof.Machine.execCellv hi lo s
  | .packv hi lo => Sys2Proof.Machine.execPackv hi lo s
  | .tripenc tgt => Sys2Proof.Machine.execTripenc tgt s
  | .tripdec k b => Sys2Proof.Machine.execTripdec k b s
  | .ccsig hi lo => Sys2Proof.Machine.execCcsig hi lo s
  | .temp ch hi lo => Sys2Proof.Machine.execTemp ch hi lo s
  | .balsel idx => Sys2Proof.Machine.execBalsel idx s
  | .balupd idx en old => Sys2Proof.Machine.execBalupd idx en old s
  | .clrflt => Sys2Proof.Machine.execClrflt s

end Sys2Proof.Machine
end

