-- ==== Sys2Proof/Machine/Command.lean ====
section
/-! DEFINITION. What the VSC does with one action of the host: a command word (00_scope.md R11) or a
change of the reset input (70_reset_and_hazards.md R230). -/

namespace Sys2Proof.Machine

/-- The spec's `exec(S, c)` (R11): decode the word; an illegal word ends in `E_ILL` (R66, R67), a
legal one in its command's rule (log entry 16). -/
def runWord (c : Word) (s : State) : Outcome :=
  match decode c with
  | .ok i => exec i s
  | .error _ => .next (raise .ill c s)

/-- The VSC's answer to one action. While reset is asserted the registers hold their reset values and
a command is not executed (R230). -/
def respond (a : HostAction) (s : State) : Outcome :=
  match a with
  | .assertReset => .next (clearRegisters { s with resetAsserted := true })
  | .releaseReset => .next { holdReset s with resetAsserted := false }
  | .issue c => if s.resetAsserted then .next (holdReset s) else runWord c s

/-- The host presents a command word next. -/
def presentWord (c : Word) (s : State) : State :=
  { s with hostActions := .issue c :: s.hostActions, resetAsserted := false }

end Sys2Proof.Machine
end

