-- ==== Sys2Proof/Machine/Step.lean ====
section
/-! DEFINITION. One step of the machine: the host's next action, or nothing (60_exceptions.md R206). -/

namespace Sys2Proof.Machine

/-- Take the host's next action; with none, nothing happens (R206; log entry 2). -/
def step (s : State) : Host.Outcome State Fault Refusal :=
  match s.hostActions with
  | [] => .next (holdReset s)
  | a :: rest => respond a { s with hostActions := rest }

/-- The state with the command word `w` as what the host presents next, outside reset (log entry 4). -/
def State.withFetchWord (s : State) (nbits w : Nat) : State :=
  presentWord (BitVec.ofNat 32 (w % 2 ^ nbits)) s

end Sys2Proof.Machine
end

