-- ==== Sys2Proof/Machine/HostDuties.lean ====
section
/-! DEFINITION. The host's procedures around the VSC, as the spec writes them out: bus transactions with an
AFE that changes on its own (20_memory.md R42, R43, R50), setting a balancing bit (45_balancing.md R176),
the thermistor category and its settling delay (70_reset_and_hazards.md R237, R238), bring-up (R233, R234),
ship mode (R235) and the AFE's interrupt (R240). They are the environment (00_scope.md R5, R6): `step` uses
none of them (log entries 14, 15 and 17). -/

namespace Sys2Proof.Machine

/-- Issue one command (R14): the VSC's answer, which under reset is not to execute it (R230). It is always
a next state (R244); the other two outcomes stand here for totality only. -/
def issue (i : Instr) (s : State) : State :=
  match respond (.issue (encode i)) s with
  | .next t => t
  | .fault _ => s
  | .refused _ => s

/-! ## The host and its bus -/

/-- One bus transaction: its address and the byte it carried (R42). -/
inductive BusEvent where
  | read (a : Nat) (v : Byte)
  | write (a : Nat) (v : Byte)
deriving DecidableEq, Repr

/-- A thermistor category (44_temperature.md R150). -/
inductive Category where
  | internal | external
deriving DecidableEq, Repr

/-- The host's `DeviceMode` (R234, R235). -/
inductive DeviceMode where
  | uninitialized | normal | ship
deriving DecidableEq, Repr

/-- The host with the VSC and the AFE it talks to. -/
structure Driver where
  vsc : State
  /-- The AFE's registers. -/
  regs : AfeRegs
  /-- The bus transactions so far, oldest first. -/
  bus : List BusEvent
  /-- The host's time in milliseconds; only its waits advance it. -/
  now : Nat
  /-- The thermistor category selected, none while it is unknown (91_not_in_source.md N16). -/
  category : Option Category
  /-- The time from which readings of the category are valid (R238). -/
  validAfter : Nat
  mode : DeviceMode
  /-- Step (e) of R234 is done. -/
  interruptAttached : Bool
  /-- The single flag an interrupt handler sets (R240). -/
  interruptFlag : Bool

/-- A write's effect on the registers (R42). -/
def setReg (a : Nat) (v : Byte) (regs : AfeRegs) : AfeRegs := fun x => if x = a then v else regs x

/-- The AFE's registers at the next transaction. -/
def Driver.regsNext (afe : Afe) (d : Driver) : AfeRegs := afe.drift d.bus.length d.regs

/-- `readByte` of a responsive AFE (R42); the procedures below make no transaction in ship mode. -/
def readByte (afe : Afe) (a : Nat) (d : Driver) : Byte × Driver :=
  (d.regsNext afe a,
    { d with regs := d.regsNext afe, bus := d.bus ++ [.read a (d.regsNext afe a)] })

/-- `writeByte` to a responsive AFE (R42). -/
def writeByte (afe : Afe) (a : Nat) (v : Byte) (d : Driver) : Driver :=
  { d with regs := setReg a v (d.regsNext afe), bus := d.bus ++ [.write a v] }

/-- `readPair` (R43): the byte at `a`, the high one, then the byte at `a + 1`, which never wraps (log
entry 18). The AFE may change in between, and the pair is then torn (R46). -/
def readPair (afe : Afe) (a : Nat) (d : Driver) : (Byte × Byte) × Driver :=
  let hi := readByte afe a d
  let lo := readByte afe (a + 1) hi.2
  ((hi.1, lo.1), lo.2)

/-- A register byte with one bit set or cleared, every other bit kept. -/
def withBit (old : Byte) (bit : Fin 8) (v : Bool) : Byte := withMask old (1#8 <<< bit.val) v

/-- Read-modify-write of one control bit; the other bits of its register keep the values read. -/
def writeBit (afe : Afe) (b : AfeBit) (v : Bool) (d : Driver) : Driver :=
  let old := readByte afe (Config.bitPlace b).address d
  writeByte afe (Config.bitPlace b).address
    (withBit old.1 (Config.bitPlace b).bit v) old.2

/-- A procedure that needs the AFE. In ship mode the AFE is unresponsive and the state terminal (R235): the
host does nothing, and in particular feeds the VSC no byte. -/
def unlessShip {α : Type} (procedure : Driver → α × Driver) (d : Driver) : Option α × Driver :=
  if d.mode = .ship then (none, d) else (some (procedure d).1, (procedure d).2)

/-- Issue a command to the host's VSC. -/
def Driver.issue (i : Instr) (d : Driver) : Driver := { d with vsc := Machine.issue i d.vsc }

/-- Wait for a number of milliseconds. -/
def Driver.wait (ms : Nat) (d : Driver) : Driver := { d with now := d.now + ms }

/-- The register pairs of R48, and the pair of the internal temperature reading. -/
inductive AfePair where
  | vcell (n : Fin 15)
  | vpack
  | cc
  | ts (k : ExternalInput)
  | internal
deriving DecidableEq, Repr

/-- The address of a pair's high byte, the lower one (R44); `readPair` takes it. -/
def Afe.pairAddress (afe : Afe) : AfePair → Nat
  | .vcell n => afe.address (.vcellHi n)
  | .vpack => afe.address .vpackHi
  | .cc => afe.address .ccHi
  | .ts k => afe.address (.tsHi k)
  | .internal => Config.internalHigh

/-- Read a pair and give its two bytes to a command (R43) that `command` makes of the high and the low one,
with a responsive AFE; it answers the bytes. -/
def convertPair (afe : Afe) (pair : AfePair) (command : Byte → Byte → Instr) (d : Driver) :
    (Byte × Byte) × Driver :=
  let bytes := readPair afe (afe.pairAddress pair) d
  (bytes.1, bytes.2.issue (command bytes.1.1 bytes.1.2))

/-- The commands that take a register pair and nothing else (R48, R62). -/
inductive PairCommand where
  | pair | cellv | packv | ccsig
deriving DecidableEq, Repr

/-- The command on the two bytes of a pair. -/
def PairCommand.on : PairCommand → Byte → Byte → Instr
  | .pair => .pair
  | .cellv => .cellv
  | .packv => .packv
  | .ccsig => .ccsig

/-- Measure a register pair: read it and convert it. -/
def measurePair (afe : Afe) (pair : AfePair) (command : PairCommand) :
    Driver → Option (Byte × Byte) × Driver :=
  unlessShip (convertPair afe pair command.on)

/-! ## Balancing -/

/-- The AFE register a select code names (R176). -/
def balRegOf (sel : BitVec 16) : AfeReg :=
  match sel.toNat with
  | 0 => .balA
  | 1 => .balB
  | _ => .balC

/-- How `setBalancing` ends (R176). -/
inductive BalanceReport where
  | done | invalidArgument
deriving DecidableEq, Repr

/-- `setBalancing(idx, en)` (R176) with a responsive AFE. A change of the register between the read and the
write-back is overwritten (R52). -/
def balanceCell (afe : Afe) (idx : Byte) (en : Bool) (d : Driver) : BalanceReport × Driver :=
  let d1 := d.issue (.balsel idx)
  if d1.vsc.err ≠ 0#4 then (.invalidArgument, d1)
  else
    let reg := afe.address (balRegOf d1.vsc.aux)
    let old := readByte afe reg d1
    let d2 := old.2.issue (.balupd idx en old.1)
    (.done, writeByte afe reg (d2.vsc.res.setWidth 8) d2)

/-- `setBalancing(idx, en)` (R176). -/
def setBalancing (afe : Afe) (idx : Byte) (en : Bool) : Driver → Option BalanceReport × Driver :=
  unlessShip (balanceCell afe idx en)

/-! ## Temperature and the settling delay -/

/-- The category of a channel (R150). -/
def Channel.category : Channel → Category
  | .internal => .internal
  | .external1 => .external
  | .external2 => .external
  | .external3 => .external

/-- The `CH` value of a channel (R150). -/
def Channel.byte : Channel → Byte
  | .internal => 0#8
  | .external1 => 1#8
  | .external2 => 2#8
  | .external3 => 3#8

/-- The register pair of a channel (R48). -/
def Channel.pair : Channel → AfePair
  | .internal => .internal
  | .external1 => .ts .one
  | .external2 => .ts .two
  | .external3 => .ts .three

/-- The value of `TSEL` that selects a category. -/
def tselOf : Category → Bool
  | .internal => !Config.tselExternal
  | .external => Config.tselExternal

/-- The first part of `readTemperature` (R238): where the category changes, write `TSEL` and let readings be
valid in two seconds (R237); then wait until they are. -/
def selectCategory (afe : Afe) (ch : Channel) (d : Driver) : Driver :=
  let d1 :=
    if d.category = some ch.category then d
    else
      { writeBit afe .tsel (tselOf ch.category) d with
        category := some ch.category, validAfter := d.now + 2000 }
  { d1 with now := max d1.now d1.validAfter }

/-- `readTemperature` (R238) with a responsive AFE; it answers the bytes given to TEMP. -/
def convertTemperature (afe : Afe) (ch : Channel) (d : Driver) : (Byte × Byte) × Driver :=
  convertPair afe ch.pair (.temp ch.byte) (selectCategory afe ch d)

/-- `readTemperature` (R238). -/
def readTemperature (afe : Afe) (ch : Channel) : Driver → Option (Byte × Byte) × Driver :=
  unlessShip (convertTemperature afe ch)

/-! ## Bring-up -/

/-- The readiness probe (R233) with the number of polls left: polls of one factory-trim register, 100 ms
apart, until one reads nonzero. -/
def probe (afe : Afe) : Nat → Driver → Bool × Driver
  | 0, d => (false, d)
  | n + 1, d =>
    let b := readByte afe (afe.address Config.probeTrim.reg) d
    if b.1 ≠ 0#8 then (true, b.2) else probe afe n (b.2.wait 100)

/-- Step (f) of R234: the three trim bytes, then CALLD. -/
def loadTrims (afe : Afe) (d : Driver) : Driver :=
  let g1 := readByte afe (afe.address .gtrim1) d
  let g2 := readByte afe (afe.address .gtrim2) g1.2
  let ot := readByte afe (afe.address .otrim) g2.2
  ot.2.issue (.calld g1.1 g2.1 ot.1)

/-- What step (g) of R234 reports. -/
inductive FaultReport where
  | none | cleared | unresolved
deriving DecidableEq, Repr

/-- Step (g) of R234: where the fault bit is set, one clear-and-recheck after 500 ms. -/
def faultRecheck (afe : Afe) (d : Driver) : FaultReport × Driver :=
  let first := readByte afe (afe.address .faultStat) d
  if first.1.getLsbD Config.faultBit.val then
    let clear := Config.faultClear first.1
    let again := readByte afe (afe.address .faultStat) (writeByte afe clear.1 clear.2 (first.2.wait 500))
    (if again.1.getLsbD Config.faultBit.val then .unresolved else .cleared, again.2)
  else (.none, first.2)

/-- The trip register of a kind (R48). -/
def tripReg : TripKind → AfeReg
  | .under => .uvTrip
  | .over => .ovTrip

/-- The fixed targets of step (h): 3.32 V under, 4.27 V over (R234). -/
def tripTarget : TripKind → BitVec 24
  | .under => 3320000#24
  | .over => 4270000#24

/-- The two comparisons step (h) allows: of bytes, or of `TRIPDEC` voltages within `16 * GAIN` µV
(R234). -/
inductive TripCompare where
  | bytes | voltages
deriving DecidableEq, Repr

/-- The voltage lies within the quantization tolerance of the target (R234). -/
def withinStep (res : Int) (tgt : BitVec 24) (gain : Int) : Bool :=
  res - tgt.toNat ≤ 16 * gain && tgt.toNat - res ≤ 16 * gain

/-- Whether a register byte is at the target whose encoding is `byte` (R234). -/
def tripMatches (cmp : TripCompare) (k : TripKind) (byte current : Byte) (s : State) :
    Bool × State :=
  match cmp with
  | .bytes => (current == byte, s)
  | .voltages =>
    let t := issue (.tripdec k current) s
    (withinStep t.res.toInt (tripTarget k) t.gainInt, t)

/-- How step (h) ends for one trip register. -/
inductive TripOutcome where
  /-- `TRIPENC` refused the target: there is no byte to compare or write. -/
  | noTarget
  /-- The setting matched: no write. -/
  | unchanged
  /-- The byte was written and read back at the target. -/
  | converged
  /-- The byte was written and what was read back is not at the target (90_conflicts.md C7). -/
  | notConverged
deriving DecidableEq, Repr

/-- Step (h) of R234 for one trip register that reads `current`: write only where it differs, then read
back. -/
def convergeTrip (afe : Afe) (cmp : TripCompare) (k : TripKind) (current : Byte) (d : Driver) :
    TripOutcome × Driver :=
  let d1 := d.issue (.tripenc (tripTarget k))
  if d1.vsc.err ≠ 0#4 then (.noTarget, d1)
  else
    let byte : Byte := d1.vsc.res.setWidth 8
    let before := tripMatches cmp k byte current d1.vsc
    if before.1 then (.unchanged, { d1 with vsc := before.2 })
    else
      let back := readByte afe (afe.address (tripReg k))
        (writeByte afe (afe.address (tripReg k)) byte { d1 with vsc := before.2 })
      let after := tripMatches cmp k byte back.1 back.2.vsc
      (if after.1 then .converged else .notConverged, { back.2 with vsc := after.2 })

/-- What step (h) leaves. -/
structure TripReport where
  uv : TripOutcome
  ov : TripOutcome
  driver : Driver

/-- Step (h) of R234: read both settings, then bring each to its target. -/
def convergeTrips (afe : Afe) (cmp : TripCompare) (d : Driver) : TripReport :=
  let uv := readByte afe (afe.address .uvTrip) d
  let ov := readByte afe (afe.address .ovTrip) uv.2
  let u := convergeTrip afe cmp .under uv.1 ov.2
  let o := convergeTrip afe cmp .over ov.1 u.2
  { uv := u.1, ov := o.1, driver := o.2 }

/-- How bring-up ends. -/
inductive BringUpReport where
  /-- The probe never succeeded: the explicit startup failure of R233. -/
  | startupFailure
  | running (fault : FaultReport) (uv ov : TripOutcome)
deriving DecidableEq, Repr

/-- Steps (b) to (e) of R234. -/
def configure (afe : Afe) (d : Driver) : Driver :=
  let d1 := writeByte afe (afe.address .timingCfg) Config.timingValue d
  let d2 := writeBit afe .adcEn true d1
  { writeBit afe .ccEn true d2 with interruptAttached := true }

/-- The initialization sequence, steps (a) to (h) of R234, with a responsive AFE. -/
def runBringUp (afe : Afe) (cmp : TripCompare) (d : Driver) : BringUpReport × Driver :=
  let ready := probe afe 10 d
  if ready.1 then
    let fault := faultRecheck afe (loadTrims afe (configure afe ready.2))
    let trips := convergeTrips afe cmp fault.2
    (.running fault.1 trips.uv trips.ov, { trips.driver with mode := .normal })
  else (.startupFailure, ready.2)

/-- The initialization sequence (R234): `Uninitialized → Normal`, again from `Normal`, and never out of
`Ship`. -/
def bringUp (afe : Afe) (cmp : TripCompare) : Driver → Option BringUpReport × Driver :=
  unlessShip (runBringUp afe cmp)

/-! ## Ship mode and the interrupt -/

/-- The two-bit patterns of the ship-mode transition, in order (R235). -/
def shipPatterns : List (BitVec 2) := [0b00#2, 0b11#2, 0b01#2, 0b10#2]

/-- The position in `CTRL` of the lower bit of the patterns, never the upper bit's. -/
def shipLower : Fin 8 := Config.shipUpper.succAbove Config.shipLowerAmongRest

/-- The byte of `CTRL` that carries a pattern: its two bits at their two places, free values elsewhere
(R235, 91_not_in_source.md N14). -/
def ctrlByte (pattern : BitVec 2) : Byte :=
  withBit (withBit (Config.shipRest pattern) Config.shipUpper (pattern.getLsbD 1))
    shipLower (pattern.getLsbD 0)

/-- The ship-mode transition `Normal → Ship`: four writes to `CTRL` with no read in between (R234, R235).
None where the host is not in normal mode: nothing is written. -/
def enterShipMode (afe : Afe) (d : Driver) : Option Driver :=
  if d.mode = .normal then
    some { shipPatterns.foldl
             (fun d p => writeByte afe (afe.address .ctrl) (ctrlByte p) d) d with
           mode := .ship }
  else none

/-- The interrupt handler: it sets the flag and does nothing else (R240). -/
def onInterrupt (d : Driver) : Driver :=
  if d.interruptAttached then { d with interruptFlag := true } else d

/-- The control loop's part with a responsive AFE: poll and clear the flag and read the status register
(R240). -/
def serveInterrupt (afe : Afe) (d : Driver) : Option Byte × Driver :=
  if d.interruptFlag then
    let status := readByte afe (afe.address .faultStat) { d with interruptFlag := false }
    (some status.1, status.2)
  else (none, d)

/-- The control loop's part of the interrupt (R240). -/
def pollInterrupt (afe : Afe) : Driver → Option (Option Byte) × Driver :=
  unlessShip (serveInterrupt afe)

/-! ## All of them -/

/-- A call of one of the host's procedures, or an interrupt of the AFE. -/
inductive HostCall where
  | measure (pair : AfePair) (command : PairCommand)
  | setBalancing (idx : Byte) (en : Bool)
  | readTemperature (ch : Channel)
  | bringUp (cmp : TripCompare)
  | enterShipMode
  | interrupt
  | pollInterrupt
deriving DecidableEq, Repr

/-- What a call leaves; a call that the mode does not allow leaves everything. -/
def Driver.perform (afe : Afe) : HostCall → Driver → Driver
  | .measure pair command, d => (Machine.measurePair afe pair command d).2
  | .setBalancing idx en, d => (Machine.setBalancing afe idx en d).2
  | .readTemperature ch, d => (Machine.readTemperature afe ch d).2
  | .bringUp cmp, d => (Machine.bringUp afe cmp d).2
  | .enterShipMode, d => (Machine.enterShipMode afe d).getD d
  | .interrupt, d => onInterrupt d
  | .pollInterrupt, d => (Machine.pollInterrupt afe d).2

/-- Calls one after another. -/
def Driver.performAll (afe : Afe) (calls : List HostCall) (d : Driver) : Driver :=
  calls.foldl (fun d c => d.perform afe c) d

end Sys2Proof.Machine
end

