-- ==== Sys2Proof/Safety.lean ====
section
/-! DEFINITION. The terms statements use: how a command ends, the invariant of the registers, and what a
run without errors is. -/

namespace Sys2Proof.Machine

/-- The unsigned value of the raw operand `HI:LO` (30_encoding.md R63). -/
def rawNat (hi lo : Byte) : Nat := hi.toNat * 256 + lo.toNat

/-- `STATUS` field by field: `ERR`, `FLT` and `CALV` as given, the reserved bits 0 (10_state.md R25). -/
def StatusIs (t : State) (err : Nat) (flt calv : Bool) : Prop :=
  t.err.toNat = err ∧ t.flt = flt ∧ t.calv = calv ∧ t.statusReserved = 0#2

/-- From `s` to `t` a command succeeded with the given `RES` and `AUX`: `FLT`, `CALV` and everything
that is not `RES`, `AUX` or `STATUS` are unchanged (R24, R202). -/
def Succeeds (s t : State) (res : Int) (aux : Nat) : Prop :=
  t.res.toInt = res ∧ t.aux.toNat = aux ∧ StatusIs t 0 s.flt s.calv ∧
    t = { s with res := t.res, aux := t.aux, status := t.status }

/-- From `s` to `t` the command word `c` ended in the error of code `e`: only `STATUS` and `ECMD`
change (R201). -/
def EndsInError (s t : State) (e : Nat) (c : Word) : Prop :=
  StatusIs t e true s.calv ∧ t = { s with status := t.status, ecmd := c }

/-- The command completes on `s` with this result. -/
def Yields (i : Instr) (s : State) (res : Int) (aux : Nat) : Prop :=
  ∃ t, exec i s = .next t ∧ Succeeds s t res aux

/-- The command ends on `s` in the error of code `e`. -/
def Refuses (i : Instr) (s : State) (e : Nat) : Prop :=
  ∃ t, exec i s = .next t ∧ EndsInError s t e (encode i)

/-- The word ends on `s` in `E_ILL` (R66, R67). -/
def IsIllegal (c : Word) (s : State) : Prop :=
  ∃ t, runWord c s = .next t ∧ EndsInError s t 1 c

/-- The word has a defined `OP` and zeros in every reserved place of its format (30_encoding.md R62, R67). -/
abbrev FormatLegal (c : Word) : Prop :=
  let op := (c.extractLsb' 28 4).toNat
  (op = 0 ∧ c.extractLsb' 0 28 = 0#28) ∨ (op = 1 ∧ c.extractLsb' 24 4 = 0#4) ∨
  (op = 2 ∧ c.extractLsb' 16 12 = 0#12) ∨ (op = 3 ∧ c.extractLsb' 16 12 = 0#12) ∨
  (op = 4 ∧ c.extractLsb' 16 12 = 0#12) ∨ (op = 5 ∧ c.extractLsb' 24 4 = 0#4) ∨
  (op = 6 ∧ c.extractLsb' 9 19 = 0#19) ∨ (op = 7 ∧ c.extractLsb' 16 12 = 0#12) ∨
  (op = 8 ∧ c.extractLsb' 24 4 = 0#4) ∨
  (op = 9 ∧ c.extractLsb' 16 12 = 0#12 ∧ c.extractLsb' 0 8 = 0#8) ∨
  (op = 10 ∧ c.extractLsb' 17 11 = 0#11) ∨ (op = 11 ∧ c.extractLsb' 0 28 = 0#28)

/-- A host sequence of command words takes the VSC from `s` to `t` (00_scope.md R11). -/
def RunsTo : List Word → State → State → Prop
  | [], s, t => t = s
  | c :: cs, s, t => ∃ m, runWord c s = .next m ∧ RunsTo cs m t

/-- In the run of `cs` from `s` the word `c`, issued after `before` and followed by `after`, ends in an
error (60_exceptions.md R201). -/
def ErrsAt (cs : List Word) (s : State) (before : List Word) (c : Word) (after : List Word) : Prop :=
  cs = before ++ c :: after ∧
    ∃ m m', RunsTo before s m ∧ runWord c m = .next m' ∧ m'.err ≠ 0#4

/-- "No error occurred during the run" of `cs` from `s` (70_reset_and_hazards.md R244). -/
def NoErrorIn (cs : List Word) (s : State) : Prop := ∀ before c after, ¬ ErrsAt cs s before c after

/-- "The run contains no CLRFLT after the last error" (R244): after a word that ends in an error and has
no such word behind it. -/
def NoClrfltAfterLastError (cs : List Word) (s : State) : Prop :=
  ∀ before c after, ErrsAt cs s before c after →
    (∀ before' c' after', ErrsAt cs s before' c' after' → before'.length ≤ before.length) →
      0xB0000000#32 ∉ after

/-- The register of a valid cell index, as its select code (45_balancing.md R170). -/
def cellSelect (idx : Byte) : Nat :=
  if idx.toNat ≤ 5 then 0 else if idx.toNat ≤ 10 then 1 else 2

/-- The bit of a valid cell index: the index less its range's base (R170). -/
def cellBit (idx : Byte) : Nat :=
  if idx.toNat ≤ 5 then idx.toNat else if idx.toNat ≤ 10 then idx.toNat - 6 else idx.toNat - 11

/-- Bits 13:12 of the trip field of a kind (42_voltage.md R127). -/
def tripPrefix : TripKind → BitVec 2
  | .over => 0b10#2
  | .under => 0b01#2

/-- Bits 3:0 of the trip field of a kind, as a number (R127). -/
def tripNibble : TripKind → Nat
  | .over => 8
  | .under => 0

/-- Every register is at its reset value (10_state.md R33). -/
def RegistersClear (s : State) : Prop :=
  s.gain = 0#9 ∧ s.offs = 0#8 ∧ s.res = 0#32 ∧ s.aux = 0#16 ∧ s.status = 0#8 ∧ s.ecmd = 0#32

/-- What holds of the registers in every state a run from reset reaches: reserved status bits read 0
(R25), `ERR` is a code that is produced (R28) and is 0 unless `FLT` is set (R27), the gain is a legal
one exactly when `CALV` is set and the calibration is 0 otherwise (R21, R26), `RES` and `AUX` lie in
the ranges of the results of R24, and the registers are clear while reset is asserted (R230). -/
structure RegisterInv (s : State) : Prop where
  reserved : s.statusReserved = 0#2
  errCode : s.err.toNat ≤ 6
  errFlt : s.err ≠ 0#4 → s.flt = true
  calibrated : s.calv = true → 365 ≤ s.gain.toNat ∧ s.gain.toNat ≤ 396
  uncalibrated : s.calv = false → s.gain = 0#9 ∧ s.offs = 0#8
  resLow : -27656192 ≤ s.res.toInt
  resHigh : s.res.toInt ≤ 27855672
  auxHigh : s.aux.toNat ≤ 16383
  heldInReset : s.resetAsserted = true → RegistersClear s

/-- `FLT` is 0 at the end of a run, the mark of a run without error (70_reset_and_hazards.md R244). -/
def CleanEnd (s : State) : Prop := s.flt = false

end Sys2Proof.Machine
end

