-- ==== Sys2Proof/Certificates/Slice0/Obligations.lean ====
section
/-! DEFINITION. The statements for the provers. OBLIGATIONS.json lists them with the rules they formalise. -/

open Sys2Proof Sys2Proof.Machine

/-! ## Encoding (30_encoding.md) -/

/-- Decoding an encoded command gives the command back, with every operand at every value. -/
def Obligations.DecodeOfEncode : Prop :=
  ∀ i : Instr, decode (encode i) = .ok i

/-- A legal word is the encoding of what it decodes to, so the word an error records in `ECMD` is the
word issued. -/
def Obligations.EncodeOfDecode : Prop :=
  ∀ (c : Word) (i : Instr), decode c = .ok i → encode i = c

/-- R75 with the match and mask columns of R65 and the field positions of R62 to R64 written out: a word
that matches a row decodes to that row's command with those bits as its fields. In the model's table the
same holds of every row, in whatever order the rows are tried; at most one row matches; a word that matches
none is illegal and ends in `E_ILL`; a decoded word runs its command's rule. -/
def Obligations.DecodeFollowsOpcodeMap : Prop :=
  (∀ c : Word,
    (c &&& 0xFFFFFFFF#32 = 0x00000000#32 → decode c = .ok .nop) ∧
    (c &&& 0xFF000000#32 = 0x10000000#32 →
      decode c = .ok (.calld (c.extractLsb' 16 8) (c.extractLsb' 8 8) (c.extractLsb' 0 8))) ∧
    (c &&& 0xFFFF0000#32 = 0x20000000#32 →
      decode c = .ok (.pair (c.extractLsb' 8 8) (c.extractLsb' 0 8))) ∧
    (c &&& 0xFFFF0000#32 = 0x30000000#32 →
      decode c = .ok (.cellv (c.extractLsb' 8 8) (c.extractLsb' 0 8))) ∧
    (c &&& 0xFFFF0000#32 = 0x40000000#32 →
      decode c = .ok (.packv (c.extractLsb' 8 8) (c.extractLsb' 0 8))) ∧
    (c &&& 0xFF000000#32 = 0x50000000#32 → decode c = .ok (.tripenc (c.extractLsb' 0 24))) ∧
    (c &&& 0xFFFFFE00#32 = 0x60000000#32 →
      decode c = .ok (.tripdec (if c.getLsbD 8 then .over else .under) (c.extractLsb' 0 8))) ∧
    (c &&& 0xFFFF0000#32 = 0x70000000#32 →
      decode c = .ok (.ccsig (c.extractLsb' 8 8) (c.extractLsb' 0 8))) ∧
    (c &&& 0xFF000000#32 = 0x80000000#32 →
      decode c = .ok (.temp (c.extractLsb' 16 8) (c.extractLsb' 8 8) (c.extractLsb' 0 8))) ∧
    (c &&& 0xFFFF00FF#32 = 0x90000000#32 → decode c = .ok (.balsel (c.extractLsb' 8 8))) ∧
    (c &&& 0xFFFE0000#32 = 0xA0000000#32 →
      decode c = .ok (.balupd (c.extractLsb' 8 8) (c.getLsbD 16) (c.extractLsb' 0 8))) ∧
    (c &&& 0xFFFFFFFF#32 = 0xB0000000#32 → decode c = .ok .clrflt)) ∧
  (∀ (c : Word), ∀ r ∈ opcodeMap, r.matches c = true → decode c = .ok (r.op.instr c)) ∧
  (∀ (c : Word), ∀ r ∈ opcodeMap, ∀ r' ∈ opcodeMap,
    r.matches c = true → r'.matches c = true → r = r') ∧
  (∀ (c : Word) (s : State), (∀ r ∈ opcodeMap, r.matches c = false) →
    (∃ e, decode c = .error e) ∧ IsIllegal c s) ∧
  (∀ (c : Word) (i : Instr) (s : State), decode c = .ok i → runWord c s = exec i s)

/-- R67 by the format tables of R62, not by the masks of R65: a word is legal exactly when its `OP` is
defined and the reserved places of its format are 0, and every other word ends in `E_ILL`. -/
def Obligations.LegalWordIffReservedBitsZero : Prop :=
  ∀ (c : Word) (s : State),
    ((∃ i, decode c = .ok i) ↔ FormatLegal c) ∧ (¬ FormatLegal c → IsIllegal c s)

/-- R66: a reserved `OP` ends in `E_ILL` and changes nothing but `STATUS` and `ECMD`. -/
def Obligations.ReservedOpcodeEndsInEIll : Prop :=
  ∀ (c : Word) (s : State), 0xC ≤ (c.extractLsb' 28 4).toNat → IsIllegal c s

/-- R74: the worked encodings, and each of those words decodes to the command it stands for. -/
def Obligations.WorkedEncodings : Prop :=
  assemble (.calld 0x00 0xA0 0x38) = some 0x1000A038#32 ∧
  assemble (.cellv 0x18 0x00) = some 0x30001800#32 ∧
  assemble (.tripenc 4270000) = some 0x504127B0#32 ∧
  assemble (.tripdec .over 0xC7) = some 0x600001C7#32 ∧
  assemble (.temp .ext1 0x10 0xE0) = some 0x800110E0#32 ∧
  assemble (.balsel 7) = some 0x90000700#32 ∧
  assemble (.balupd 7 1 0x00) = some 0xA0010700#32 ∧
  assemble (.balupd 13 0 0x04) = some 0xA0000D04#32 ∧
  assemble (.ccsig 0xFF 0xFF) = some 0x7000FFFF#32 ∧
  decodeTableWord 32 0x1000A038 = some (.calld 0x00#8 0xA0#8 0x38#8) ∧
  decodeTableWord 32 0x504127B0 = some (.tripenc 4270000#24) ∧
  decodeTableWord 32 0x600001C7 = some (.tripdec .over 0xC7#8) ∧
  decodeTableWord 32 0x800110E0 = some (.temp 1#8 0x10#8 0xE0#8) ∧
  decodeTableWord 32 0xA0000D04 = some (.balupd 13#8 false 0x04#8)

/-- R70 and R71: per command the bounds within which its operands fit and the word as the sum of its
encoding column, no word outside the bounds; the channel names as numbers; each pseudo-instruction as its
expansion; and no word the assembler produces is illegal: it decodes to the statement's command. -/
def Obligations.AssemblerEmitsLegalWords : Prop :=
  assemble .nop = some 0x00000000#32 ∧
  (∀ (g1 g2 : Nat) (ot : Int), assemble (.calld g1 g2 ot) =
    if g1 < 256 ∧ g2 < 256 ∧ -128 ≤ ot ∧ ot < 256 then
      some (BitVec.ofNat 32 (0x10000000 + g1 * 65536 + g2 * 256 + (ot % 256).toNat)) else none) ∧
  (∀ hi lo : Nat, assemble (.pair hi lo) =
    if hi < 256 ∧ lo < 256 then some (BitVec.ofNat 32 (0x20000000 + hi * 256 + lo)) else none) ∧
  (∀ hi lo : Nat, assemble (.cellv hi lo) =
    if hi < 256 ∧ lo < 256 then some (BitVec.ofNat 32 (0x30000000 + hi * 256 + lo)) else none) ∧
  (∀ hi lo : Nat, assemble (.packv hi lo) =
    if hi < 256 ∧ lo < 256 then some (BitVec.ofNat 32 (0x40000000 + hi * 256 + lo)) else none) ∧
  (∀ tgt : Nat, assemble (.tripenc tgt) =
    if tgt < 16777216 then some (BitVec.ofNat 32 (0x50000000 + tgt)) else none) ∧
  (∀ b : Nat, assemble (.tripdec .under b) =
      (if b < 256 then some (BitVec.ofNat 32 (0x60000000 + b)) else none) ∧
    assemble (.tripdec .over b) =
      if b < 256 then some (BitVec.ofNat 32 (0x60000000 + 256 + b)) else none) ∧
  (∀ hi lo : Nat, assemble (.ccsig hi lo) =
    if hi < 256 ∧ lo < 256 then some (BitVec.ofNat 32 (0x70000000 + hi * 256 + lo)) else none) ∧
  (∀ ch hi lo : Nat, assemble (.temp (.number ch) hi lo) =
    if ch < 256 ∧ hi < 256 ∧ lo < 256 then
      some (BitVec.ofNat 32 (0x80000000 + ch * 65536 + hi * 256 + lo)) else none) ∧
  (∀ hi lo : Nat, assemble (.temp .int hi lo) = assemble (.temp (.number 0) hi lo) ∧
    assemble (.temp .ext1 hi lo) = assemble (.temp (.number 1) hi lo) ∧
    assemble (.temp .ext2 hi lo) = assemble (.temp (.number 2) hi lo) ∧
    assemble (.temp .ext3 hi lo) = assemble (.temp (.number 3) hi lo)) ∧
  (∀ idx : Nat, assemble (.balsel idx) =
    if idx < 256 then some (BitVec.ofNat 32 (0x90000000 + idx * 256)) else none) ∧
  (∀ idx en old : Nat, assemble (.balupd idx en old) =
    if idx < 256 ∧ en < 2 ∧ old < 256 then
      some (BitVec.ofNat 32 (0xA0000000 + en * 65536 + idx * 256 + old)) else none) ∧
  assemble .clrflt = some 0xB0000000#32 ∧
  (∀ raw : Nat,
    assemble (.pairRaw raw) =
      (if raw < 65536 then assemble (.pair (raw / 256) (raw % 256)) else none) ∧
    assemble (.cellvRaw raw) =
      (if raw < 65536 then assemble (.cellv (raw / 256) (raw % 256)) else none) ∧
    assemble (.packvRaw raw) =
      (if raw < 65536 then assemble (.packv (raw / 256) (raw % 256)) else none) ∧
    assemble (.ccsigRaw raw) =
      if raw < 65536 then assemble (.ccsig (raw / 256) (raw % 256)) else none) ∧
  (∀ (ch : AsmChannel) (raw : Nat), assemble (.tempRaw ch raw) =
    if raw < 65536 then assemble (.temp ch (raw / 256) (raw % 256)) else none) ∧
  (∀ hi lo : Nat, assemble (.tempi hi lo) = assemble (.temp .int hi lo)) ∧
  (∀ idx old : Nat, assemble (.balset idx old) = assemble (.balupd idx 1 old) ∧
    assemble (.balclr idx old) = assemble (.balupd idx 0 old)) ∧
  (∀ digits places tgt : Nat, digits * 1000000 = tgt * 10 ^ places →
    assemble (.tripencVolts digits places) = assemble (.tripenc tgt)) ∧
  (∀ digits places : Nat, ¬ 10 ^ places ∣ digits * 1000000 →
    assemble (.tripencVolts digits places) = none) ∧
  (∀ (a : Asm) (w : Word), assemble a = some w → FormatLegal w ∧ decode w = .ok a.expand)

/-! ## The step (00_scope.md R11, 70_reset_and_hazards.md R230) -/

/-- Outside reset, a step takes the command the host presents next and is its decoded command's
meaning, on the state with that command gone from the host's actions. -/
def Obligations.StepRunsDecodedCommand : Prop :=
  ∀ (s : State) (c : Word) (rest : List HostAction) (i : Instr),
    s.hostActions = .issue c :: rest → s.resetAsserted = false → decode c = .ok i →
      step s = exec i { s with hostActions := rest }

/-- Outside reset, a step on an illegal word ends in `E_ILL`. -/
def Obligations.StepEndsIllegalWordInEIll : Prop :=
  ∀ (s : State) (c : Word) (rest : List HostAction),
    s.hostActions = .issue c :: rest → s.resetAsserted = false → ¬ FormatLegal c →
      ∃ t, step s = .next t ∧ EndsInError { s with hostActions := rest } t 1 c

/-- The model's choice for R206 (log entry 2): with no action of the host a step outside reset
changes nothing. -/
def Obligations.IdleStepChangesNothing : Prop :=
  ∀ s : State, s.hostActions = [] → s.resetAsserted = false → step s = .next s

/-- No step stops the machine: every command completes (R201, R244). That each step takes one action of the
host's list is the form log entry 1 chooses, and that a step with no action left also answers a next state is
the model's reading of R206, log entry 2. -/
def Obligations.EveryStepCompletes : Prop :=
  ∀ s : State, ∃ t, step s = .next t ∧ t.hostActions = s.hostActions.tail

/-- R11: a host sequence `c1, …, cn` runs, and as many steps of the machine take the state where the
words one after another take it, whatever the host does afterwards. -/
def Obligations.HostSequenceRunsWordByWord : Prop :=
  (∀ (cs : List Word) (s : State), ∃ t, RunsTo cs s t) ∧
  ∀ (cs : List Word) (later : List HostAction) (s t : State),
    s.resetAsserted = false → s.hostActions = later → RunsTo cs s t →
      Host.Core.run Sys2Proof.core cs.length
        { s with hostActions := cs.map HostAction.issue ++ later } = .next t

/-- R33: after reset every bit of the state is 0. -/
def Obligations.ResetStateIsZero : Prop :=
  State.reset.gain = 0#9 ∧ State.reset.offs = 0#8 ∧ State.reset.res = 0#32 ∧
  State.reset.aux = 0#16 ∧ State.reset.status = 0x00#8 ∧ State.reset.ecmd = 0#32 ∧
  State.reset.calv = false ∧ State.reset.flt = false ∧ State.reset.err = 0#4

/-- R230 in the model's form of the reset input (log entry 3): asserting reset clears every register,
a command issued while it is asserted is not executed, and the registers are still clear on
release. -/
def Obligations.ResetInputClearsRegisters : Prop :=
  (∀ (s : State) (rest : List HostAction), s.hostActions = .assertReset :: rest →
    ∃ t, step s = .next t ∧ RegistersClear t ∧ t.resetAsserted = true ∧ t.hostActions = rest) ∧
  (∀ (s : State) (c : Word) (rest : List HostAction), s.resetAsserted = true →
    s.hostActions = .issue c :: rest →
    ∃ t, step s = .next t ∧ RegistersClear t ∧ t.resetAsserted = true ∧ t.hostActions = rest) ∧
  (∀ (s : State) (rest : List HostAction), s.resetAsserted = true →
    s.hostActions = .releaseReset :: rest →
    ∃ t, step s = .next t ∧ RegistersClear t ∧ t.resetAsserted = false ∧ t.hostActions = rest)

/-! ## Housekeeping (46_system.md) -/

/-- R180: NOP writes only `ERR`; with a reserved bit set its word is illegal. -/
def Obligations.NopWritesOnlyErr : Prop :=
  (∀ s : State, ∃ t, exec .nop s = .next t ∧ StatusIs t 0 s.flt s.calv ∧
    t = { s with status := t.status }) ∧
  (∀ (c : Word) (s : State), c.extractLsb' 28 4 = 0x0#4 → c.extractLsb' 0 28 ≠ 0#28 →
    IsIllegal c s)

/-- R181: CLRFLT clears `FLT` and `ERR` and writes nothing else; with a reserved bit set its word is
illegal and `FLT` ends as 1. -/
def Obligations.ClrfltClearsFlt : Prop :=
  (∀ s : State, ∃ t, exec .clrflt s = .next t ∧ StatusIs t 0 false s.calv ∧
    t = { s with status := t.status }) ∧
  (∀ (c : Word) (s : State), c.extractLsb' 28 4 = 0xB#4 → c.extractLsb' 0 28 ≠ 0#28 →
    IsIllegal c s)

/-! ## Calibration (41_calibration.md) -/

/-- R113: CALLD loads `GAIN` with 365 plus the trim of R110 and `OFFS` with the byte, sets `CALV`, and
leaves the trim in `RES`; no operand is refused, and a reserved bit makes the word illegal. -/
def Obligations.CalldLoadsCalibration : Prop :=
  (∀ (g1 g2 ot : Byte) (s : State), ∃ t, exec (.calld g1 g2 ot) s = .next t ∧
    (let trim := (g1.extractLsb' 2 2).toNat * 8 + (g2.extractLsb' 5 3).toNat
     t.gain.toNat = 365 + trim ∧ t.res.toInt = trim) ∧
    t.offs = ot ∧ t.aux = 0#16 ∧ StatusIs t 0 s.flt true ∧
    t = { s with gain := t.gain, offs := t.offs, res := t.res, aux := t.aux,
                 status := t.status }) ∧
  (∀ (c : Word) (s : State), c.extractLsb' 28 4 = 0x1#4 → c.extractLsb' 24 4 ≠ 0#4 →
    IsIllegal c s)

/-- R116: after CALLD the gain and the offset are in range, `GAIN - 365 = RES` and `CALV = 1`; CALLD is
idempotent; and the map from the used bits to the trim is a bijection onto 0..31. -/
def Obligations.CalldLaws : Prop :=
  (∀ (g1 g2 ot : Byte) (s t : State), exec (.calld g1 g2 ot) s = .next t →
    365 ≤ t.gain.toNat ∧ t.gain.toNat ≤ 396 ∧ -128 ≤ t.offs.toInt ∧ t.offs.toInt ≤ 127 ∧
    (t.gain.toNat : Int) - 365 = t.res.toInt ∧ t.calv = true ∧
    exec (.calld g1 g2 ot) t = .next t) ∧
  (∀ n : Nat, n ≤ 31 → ∃ g1 g2 : Byte, (gainTrim g1 g2).toNat = n) ∧
  (∀ g1 g2 g1' g2' : Byte,
    (gainTrim g1 g2 = gainTrim g1' g2' ↔
      g1.extractLsb' 2 2 = g1'.extractLsb' 2 2 ∧ g2.extractLsb' 5 3 = g2'.extractLsb' 5 3)) ∧
  (∀ g1 g2 : Byte, (gainTrim g1 g2).toNat ≤ 31)

/-- R182: no command clears `CALV`, and none but CALLD writes `GAIN` or `OFFS`; a step leaves the
calibrated state only by reset. -/
def Obligations.CalibrationWrittenOnlyByCalld : Prop :=
  (∀ (c : Word) (s t : State), runWord c s = .next t →
    (t.gain ≠ s.gain ∨ t.offs ≠ s.offs ∨ t.calv ≠ s.calv) →
      (∃ g1 g2 ot, decode c = .ok (.calld g1 g2 ot)) ∧ t.calv = true) ∧
  (∀ s t : State, step s = .next t → s.calv = true → t.calv = false →
    s.resetAsserted = true ∨ ∃ rest, s.hostActions = .assertReset :: rest)

/-! ## Register pairs and the coulomb counter (40_pair_extract.md, 43_coulomb.md) -/

/-- R100: PAIR leaves all 16 bits of `(HI << 8) | LO`, calibrated or not; a reserved bit makes the word
illegal. -/
def Obligations.PairCombinesBytes : Prop :=
  (∀ (hi lo : Byte) (s : State), Yields (.pair hi lo) s (hi.toNat * 256 + lo.toNat) 0) ∧
  (∀ (c : Word) (s : State), c.extractLsb' 28 4 = 0x2#4 → c.extractLsb' 16 12 ≠ 0#12 →
    IsIllegal c s)

/-- R140, R141: CCSIG leaves 844 times the field read as 16-bit two's complement, for all 65536 fields;
a reserved bit makes the word illegal. -/
def Obligations.CcsigScalesSignedField : Prop :=
  (∀ (hi lo : Byte) (s : State),
    Yields (.ccsig hi lo) s
      ((if rawNat hi lo < 32768 then (rawNat hi lo : Int) else (rawNat hi lo : Int) - 65536) * 844)
      0) ∧
  (∀ (c : Word) (s : State), c.extractLsb' 28 4 = 0x7#4 → c.extractLsb' 16 12 ≠ 0#12 →
    IsIllegal c s)

/-- R143: CCSIG's result is an odd function of the signed field, wherever its negation is representable,
and a multiple of 844; a legal CCSIG always succeeds, and no CCSIG word has an error but `E_ILL`. -/
def Obligations.CcsigLaws : Prop :=
  (∀ (hi lo hi' lo' : Byte) (s t t' : State),
    exec (.ccsig hi lo) s = .next t → exec (.ccsig hi' lo') s = .next t' →
    (rawNat hi lo + rawNat hi' lo') % 65536 = 0 → rawNat hi lo ≠ 32768 →
      t'.res.toInt = - t.res.toInt) ∧
  (∀ (hi lo : Byte) (s : State), ∃ t, exec (.ccsig hi lo) s = .next t ∧ t.err = 0#4 ∧
    (844 : Int) ∣ t.res.toInt) ∧
  (∀ (c : Word) (s t : State), c.extractLsb' 28 4 = 0x7#4 → runWord c s = .next t →
    t.err = 0#4 ∨ t.err = 1#4)

/-! ## Voltage (42_voltage.md) -/

/-- R121 with R122: CELLV leaves 0 for a zero field and `raw * G + 1000 * off` for any other, with no
clamp and no wrap; it ends in `E_NOCAL` uncalibrated, whatever the operand, then in `E_RAW14` for a
field above 14 bits; a reserved bit makes the word illegal; with a gain that CALLD can load the voltage
lies in [-127_635, 6_614_668]. -/
def Obligations.CellvConverts : Prop :=
  (∀ (hi lo : Byte) (s : State), s.calv = true → rawNat hi lo ≤ 0x3FFF →
    Yields (.cellv hi lo) s
      (if rawNat hi lo = 0 then 0
       else (rawNat hi lo : Int) * s.gain.toNat + 1000 * s.offs.toInt) 0) ∧
  (∀ (hi lo : Byte) (s : State), s.calv = false → Refuses (.cellv hi lo) s 2) ∧
  (∀ (hi lo : Byte) (s : State), s.calv = true → 0x3FFF < rawNat hi lo →
    Refuses (.cellv hi lo) s 3) ∧
  (∀ (c : Word) (s : State), c.extractLsb' 28 4 = 0x3#4 → c.extractLsb' 16 12 ≠ 0#12 →
    IsIllegal c s) ∧
  (∀ (hi lo : Byte) (s t : State), s.calv = true → 365 ≤ s.gain.toNat → s.gain.toNat ≤ 396 →
    exec (.cellv hi lo) s = .next t → t.err = 0#4 →
      -127635 ≤ t.res.toInt ∧ t.res.toInt ≤ 6614668)

/-- R123: PACKV leaves `4 * G * raw + NUM_CELLS * 1000 * off`, for a zero field too, whatever
`NUM_CELLS` is; its errors are CELLV's; with a gain that CALLD can load the voltage lies in
[-1_920_000, 27_855_672]. -/
def Obligations.PackvConverts : Prop :=
  (∀ (hi lo : Byte) (s : State), s.calv = true → rawNat hi lo ≤ 0x3FFF →
    Yields (.packv hi lo) s
      (4 * s.gain.toNat * (rawNat hi lo : Int) + (numCells : Int) * 1000 * s.offs.toInt) 0) ∧
  (∀ (hi lo : Byte) (s : State), s.calv = false → Refuses (.packv hi lo) s 2) ∧
  (∀ (hi lo : Byte) (s : State), s.calv = true → 0x3FFF < rawNat hi lo →
    Refuses (.packv hi lo) s 3) ∧
  (∀ (c : Word) (s : State), c.extractLsb' 28 4 = 0x4#4 → c.extractLsb' 16 12 ≠ 0#12 →
    IsIllegal c s) ∧
  (∀ (hi lo : Byte) (s t : State), s.calv = true → 365 ≤ s.gain.toNat → s.gain.toNat ≤ 396 →
    exec (.packv hi lo) s = .next t → t.err = 0#4 →
      -1920000 ≤ t.res.toInt ∧ t.res.toInt ≤ 27855672)

/-- R124 with R125, for a nonzero gain (R12 divides by nothing else): TRIPENC leaves bits 11:4 of the
truncated quotient in `RES` and the quotient in `AUX`; uncalibrated it ends in `E_NOCAL`, and a
quotient outside 0..16383 in `E_RANGE`; a reserved bit makes the word illegal. -/
def Obligations.TripencEncodes : Prop :=
  (∀ (tgt : BitVec 24) (s : State) (q : Nat), s.calv = true → s.gain ≠ 0#9 →
    Int.tdiv (tgt.toNat - 1000 * s.offs.toInt) s.gain.toNat = q → q ≤ 16383 →
      Yields (.tripenc tgt) s ((q / 16 % 256 : Nat) : Int) q) ∧
  (∀ (tgt : BitVec 24) (s : State), s.calv = true → s.gain ≠ 0#9 →
    (Int.tdiv (tgt.toNat - 1000 * s.offs.toInt) s.gain.toNat < 0 ∨
      16383 < Int.tdiv (tgt.toNat - 1000 * s.offs.toInt) s.gain.toNat) →
      Refuses (.tripenc tgt) s 6) ∧
  (∀ (tgt : BitVec 24) (s : State), s.calv = false → Refuses (.tripenc tgt) s 2) ∧
  (∀ (c : Word) (s : State), c.extractLsb' 28 4 = 0x5#4 → c.extractLsb' 24 4 ≠ 0#4 →
    IsIllegal c s)

/-- R126 with the layout of R127: TRIPDEC leaves the cell formula on the 14-bit field
`prefix : B : nibble` and the field in `AUX`; uncalibrated it ends in `E_NOCAL`; a reserved bit makes
the word illegal; with a gain that CALLD can load the voltage lies in [1_367_040, 4_989_880]. -/
def Obligations.TripdecDecodes : Prop :=
  (∀ (b : Byte) (s : State), s.calv = true →
    Yields (.tripdec .over b) s
      (((0b10#2 ++ b ++ 0b1000#4).toNat : Int) * s.gain.toNat + 1000 * s.offs.toInt)
      (0b10#2 ++ b ++ 0b1000#4).toNat ∧
    Yields (.tripdec .under b) s
      (((0b01#2 ++ b ++ 0b0000#4).toNat : Int) * s.gain.toNat + 1000 * s.offs.toInt)
      (0b01#2 ++ b ++ 0b0000#4).toNat) ∧
  (∀ (k : TripKind) (b : Byte) (s : State), s.calv = false → Refuses (.tripdec k b) s 2) ∧
  (∀ (c : Word) (s : State), c.extractLsb' 28 4 = 0x6#4 → c.extractLsb' 9 19 ≠ 0#19 →
    IsIllegal c s) ∧
  (∀ (k : TripKind) (b : Byte) (s t : State), s.calv = true → 365 ≤ s.gain.toNat →
    s.gain.toNat ≤ 396 → exec (.tripdec k b) s = .next t →
      1367040 ≤ t.res.toInt ∧ t.res.toInt ≤ 4989880)

/-- R128: register to voltage to register is lossless. For every legal calibration, kind and byte,
TRIPENC of TRIPDEC's voltage succeeds with the byte, and with TRIPDEC's 14-bit field in `AUX`. -/
def Obligations.TripRegisterRoundTrip : Prop :=
  ∀ (s : State) (k : TripKind) (b : Byte),
    s.calv = true → 365 ≤ s.gain.toNat → s.gain.toNat ≤ 396 →
      ∃ t u, exec (.tripdec k b) s = .next t ∧
        t.res.toInt = (t.res.setWidth 24).toNat ∧
        exec (.tripenc (t.res.setWidth 24)) t = .next u ∧
        u.err = 0#4 ∧ u.res = b.setWidth 32 ∧ u.aux = t.aux

/-- R129: voltage to register to voltage is within one step. Where TRIPENC succeeds with a quotient
`q` that has the prefix of the kind, the voltage its byte decodes to differs from the target by
`(q[3:0] - n) * G + r` with the division's remainder `r`, so by less than `16 * G` for an undervoltage
byte and by at most `8 * G` for an overvoltage byte. Whatever the prefix, the difference has the extra
term `(q[13:12] - prefix) * 4096 * G`. -/
def Obligations.TripVoltageWithinOneStep : Prop :=
  ∀ (s t u : State) (k : TripKind) (tgt : BitVec 24),
    s.calv = true → 365 ≤ s.gain.toNat → s.gain.toNat ≤ 396 →
    exec (.tripenc tgt) s = .next t → t.err = 0#4 →
    exec (.tripdec k (t.res.setWidth 8)) t = .next u →
      (t.aux.extractLsb' 12 2 = tripPrefix k →
        (∃ r : Int, 0 ≤ r ∧ r < s.gain.toNat ∧
          (tgt.toNat : Int) - u.res.toInt =
            (((t.aux.extractLsb' 0 4).toNat : Int) - tripNibble k) * s.gain.toNat + r) ∧
        (k = .under → |(tgt.toNat : Int) - u.res.toInt| < 16 * s.gain.toNat) ∧
        (k = .over → |(tgt.toNat : Int) - u.res.toInt| ≤ 8 * s.gain.toNat)) ∧
      (∃ r : Int, |r| < s.gain.toNat ∧
        (tgt.toNat : Int) - u.res.toInt =
          (((t.aux.extractLsb' 12 2).toNat : Int) - (tripPrefix k).toNat) * 4096 * s.gain.toNat +
            (((t.aux.extractLsb' 0 4).toNat : Int) - tripNibble k) * s.gain.toNat + r)

/-! ## Temperature (44_temperature.md) -/

/-- R153: on the internal channel TEMP leaves `(6_525_000 - 1910 * raw) / 21` truncated toward zero. The
result lies in [-1_179_358, 310_714], differs from the true value by less than one and is never further
from zero; the true value falls strictly with `raw` and the result does not rise. -/
def Obligations.TempInternalFormula : Prop :=
  (∀ (hi lo : Byte) (s : State), rawNat hi lo ≤ 0x3FFF →
    Yields (.temp 0#8 hi lo) s (Int.tdiv (6525000 - 1910 * (rawNat hi lo : Int)) 21) 0) ∧
  (∀ raw : Nat, raw ≤ 0x3FFF →
    -1179358 ≤ Int.tdiv (6525000 - 1910 * (raw : Int)) 21 ∧
    Int.tdiv (6525000 - 1910 * (raw : Int)) 21 ≤ 310714 ∧
    |21 * Int.tdiv (6525000 - 1910 * (raw : Int)) 21 - (6525000 - 1910 * raw)| < 21 ∧
    |21 * Int.tdiv (6525000 - 1910 * (raw : Int)) 21| ≤ |6525000 - 1910 * (raw : Int)|) ∧
  (∀ raw raw' : Nat, raw ≤ raw' →
    Int.tdiv (6525000 - 1910 * (raw' : Int)) 21 ≤ Int.tdiv (6525000 - 1910 * (raw : Int)) 21) ∧
  (∀ raw raw' : Nat, raw < raw' →
    (6525000 - 1910 * (raw' : Rat)) / 21 < (6525000 - 1910 * (raw : Rat)) / 21)

/-- R157 by the comparison of R154: on an external channel, for every table allowed by R8, a reading
from 3922 to 8638 has a row, TEMP leaves that row's temperature and number, and the row is the first
whose threshold the resistance exceeds. -/
def Obligations.TempExternalFirstRow : Prop :=
  ∀ (ch hi lo : Byte) (s : State), 1 ≤ ch.toNat → ch.toNat ≤ 3 →
    3922 ≤ rawNat hi lo → rawNat hi lo ≤ 8638 →
      ∃ i L : Nat, i ≤ 16 ∧ lutOhm[i]? = some L ∧
        (L : Int) * (3300000 - 382 * rawNat hi lo) < 10000 * (382 * rawNat hi lo) ∧
        (∀ j M : Nat, j < i → lutOhm[j]? = some M →
          10000 * (382 * (rawNat hi lo : Int)) ≤ M * (3300000 - 382 * rawNat hi lo)) ∧
        Yields (.temp ch hi lo) s ((-50 + 5 * (i : Int)) * 1000) i

/-- R158: on an external channel a reading without a row ends in `E_LUT`, for every table allowed by
R8: up to 3921, where the resistance is at most the last threshold, 8313 Ω, and from 8639, where the
divider voltage is above the rail; it is never exactly the rail's. -/
def Obligations.TempExternalNoEntry : Prop :=
  (∀ (ch hi lo : Byte) (s : State), 1 ≤ ch.toNat → ch.toNat ≤ 3 → rawNat hi lo ≤ 0x3FFF →
    (rawNat hi lo ≤ 3921 ∨ 8639 ≤ rawNat hi lo) → Refuses (.temp ch hi lo) s 5) ∧
  (∀ raw : Nat, (raw ≤ 3921 ↔ (10000 * (382 * (raw : Int)) ≤ 8313 * (3300000 - 382 * raw))) ∧
    (8639 ≤ raw ↔ (3300000 - 382 * (raw : Int)) ≤ 0) ∧ (3300000 - 382 * (raw : Int)) ≠ 0)

/-- The errors of R151 that do not depend on the table: `E_ARG` for a channel above 3, whatever the raw
operand (R150), then `E_RAW14`; a reserved bit makes the word illegal. -/
def Obligations.TempOperandErrors : Prop :=
  (∀ (ch hi lo : Byte) (s : State), 3 < ch.toNat → Refuses (.temp ch hi lo) s 4) ∧
  (∀ (ch hi lo : Byte) (s : State), ch.toNat ≤ 3 → 0x3FFF < rawNat hi lo →
    Refuses (.temp ch hi lo) s 3) ∧
  (∀ (c : Word) (s : State), c.extractLsb' 28 4 = 0x8#4 → c.extractLsb' 24 4 ≠ 0#4 →
    IsIllegal c s)

/-- R159: over readings that have a row, the temperature does not rise with `raw`, so it does not fall
as the resistance falls; for every table allowed by R8. -/
def Obligations.ThermistorMonotone : Prop :=
  ∀ (ch hi lo ch' hi' lo' : Byte) (s s' t t' : State),
    1 ≤ ch.toNat → 1 ≤ ch'.toNat →
    exec (.temp ch hi lo) s = .next t → exec (.temp ch' hi' lo') s' = .next t' →
    t.err = 0#4 → t'.err = 0#4 → rawNat hi lo ≤ rawNat hi' lo' →
      t'.res.toInt ≤ t.res.toInt ∧ t'.aux.toNat ≤ t.aux.toNat

/-- R160: for equal bytes the three external channels leave the same `RES`, `AUX` and `STATUS`. -/
def Obligations.ExternalChannelsConvertAlike : Prop :=
  ∀ (ch ch' hi lo : Byte) (s t t' : State),
    1 ≤ ch.toNat → ch.toNat ≤ 3 → 1 ≤ ch'.toNat → ch'.toNat ≤ 3 →
    exec (.temp ch hi lo) s = .next t → exec (.temp ch' hi lo) s = .next t' →
      t.res = t'.res ∧ t.aux = t'.aux ∧ t.status = t'.status

/-! ## Balancing (45_balancing.md) -/

/-- R171 by the map of R170: BALSEL leaves the one-hot mask and the register select; an index outside
[1,15] ends in `E_ARG`; a reserved bit makes the word illegal. -/
def Obligations.BalselMapsCell : Prop :=
  (∀ (idx : Byte) (s : State), 1 ≤ idx.toNat → idx.toNat ≤ 15 →
    Yields (.balsel idx) s ((2 ^ cellBit idx : Nat) : Int) (cellSelect idx)) ∧
  (∀ (idx : Byte) (s : State), (idx.toNat = 0 ∨ 16 ≤ idx.toNat) → Refuses (.balsel idx) s 4) ∧
  (∀ (c : Word) (s : State), c.extractLsb' 28 4 = 0x9#4 →
    (c.extractLsb' 16 12 ≠ 0#12 ∨ c.extractLsb' 0 8 ≠ 0#8) → IsIllegal c s)

/-- R172: BALUPD leaves the old image with exactly the cell's bit set or cleared, every other bit kept,
and the register select; its errors are BALSEL's. -/
def Obligations.BalupdWritesOneBit : Prop :=
  (∀ (idx : Byte) (en : Bool) (old : Byte) (s : State), 1 ≤ idx.toNat → idx.toNat ≤ 15 →
    ∃ t, exec (.balupd idx en old) s = .next t ∧
      Succeeds s t (t.res.toNat : Int) (cellSelect idx) ∧ t.res.toNat < 256 ∧
      t.res.getLsbD (cellBit idx) = en ∧
      ∀ j, j < 8 → j ≠ cellBit idx → t.res.getLsbD j = old.getLsbD j) ∧
  (∀ (idx : Byte) (en : Bool) (old : Byte) (s : State),
    (idx.toNat = 0 ∨ 16 ≤ idx.toNat) → Refuses (.balupd idx en old) s 4) ∧
  (∀ (c : Word) (s : State), c.extractLsb' 28 4 = 0xA#4 → c.extractLsb' 17 11 ≠ 0#11 →
    IsIllegal c s)

/-- R174: the new image differs from the old one in at most the mask's bit, and no two cells share a
register and a bit. -/
def Obligations.BalancingIsolation : Prop :=
  (∀ (idx : Byte) (en : Bool) (old : Byte) (s t u : State),
    exec (.balsel idx) s = .next t → t.err = 0#4 → exec (.balupd idx en old) t = .next u →
      (u.res ^^^ old.setWidth 32 = 0#32 ∨ u.res ^^^ old.setWidth 32 = t.res) ∧
      u.aux = t.aux ∧ (u.res &&& t.res = if en then t.res else 0#32)) ∧
  (∀ (idx idx' : Byte) (s t t' : State),
    exec (.balsel idx) s = .next t → exec (.balsel idx') s = .next t' →
    t.err = 0#4 → t'.err = 0#4 → t.res = t'.res → t.aux = t'.aux → idx = idx')

/-- R175: BALSEL is BALUPD on an empty image. -/
def Obligations.BalselIsBalupdOnEmptyImage : Prop :=
  ∀ (idx : Byte) (s t t' : State), 1 ≤ idx.toNat → idx.toNat ≤ 15 →
    exec (.balsel idx) s = .next t → exec (.balupd idx true 0x00#8) s = .next t' →
      t.res = t'.res ∧ t.aux = t'.aux

/-! ## Errors and status (60_exceptions.md, 10_state.md) -/

/-- R203: of the conditions that hold for a word, the one reported is the first in the order `E_ILL`,
`E_NOCAL`, `E_ARG`, `E_RAW14`, and then `E_LUT` by TEMP or `E_RANGE` by TRIPENC. -/
def Obligations.ErrorPriority : Prop :=
  ∀ (c : Word) (s t : State), runWord c s = .next t →
    (let op := (c.extractLsb' 28 4).toNat
     let ch := (c.extractLsb' 16 8).toNat
     let idx := (c.extractLsb' 8 8).toNat
     if ¬ FormatLegal c then t.err = 1#4
     else if (op = 3 ∨ op = 4 ∨ op = 5 ∨ op = 6) ∧ s.calv = false then t.err = 2#4
     else if (op = 8 ∧ 3 < ch) ∨ ((op = 9 ∨ op = 10) ∧ (idx < 1 ∨ 15 < idx)) then t.err = 4#4
     else if (op = 3 ∨ op = 4 ∨ op = 8) ∧ c.extractLsb' 14 2 ≠ 0#2 then t.err = 3#4
     else t.err = 0#4 ∨ (op = 8 ∧ ch ≠ 0 ∧ t.err = 5#4) ∨ (op = 5 ∧ t.err = 6#4))

/-- R201: whatever the word, a command that ends in an error writes `ERR`, `FLT` and `ECMD` and nothing
else, and the VSC accepts the next command. -/
def Obligations.ErrorIsPrecise : Prop :=
  ∀ (c : Word) (s t : State), runWord c s = .next t → t.err ≠ 0#4 →
    EndsInError s t t.err.toNat c ∧ t.gain = s.gain ∧ t.offs = s.offs ∧ t.calv = s.calv ∧
      t.res = s.res ∧ t.aux = s.aux ∧ ∀ c', ∃ t', runWord c' t = .next t'

/-- R202, with R27 and R29: a command that ends without error leaves `ERR` 0 and writes neither `ECMD`
nor, but for CLRFLT, `FLT`. -/
def Obligations.SuccessKeepsFaultRecord : Prop :=
  ∀ (c : Word) (s t : State), runWord c s = .next t → t.err = 0#4 →
    t.ecmd = s.ecmd ∧ (decode c = .ok .clrflt → t.flt = false) ∧
      (decode c ≠ .ok .clrflt → t.flt = s.flt)

/-- R244 with R27, for every run. With R244's proviso, no CLRFLT after the last error: `FLT` 0 at the end
says that no command ended in an error, and a run from `FLT` 0 without error ends with `FLT` 0. Without any
CLRFLT: `FLT` is 0 at the end exactly when it was 0 at the start and no command ended in an error. -/
def Obligations.CleanRunIffNoError : Prop :=
  ∀ (cs : List Word) (s t : State), RunsTo cs s t →
    (NoClrfltAfterLastError cs s →
      (CleanEnd t → NoErrorIn cs s) ∧ (CleanEnd s → NoErrorIn cs s → CleanEnd t)) ∧
    (0xB0000000#32 ∉ cs → (CleanEnd t ↔ CleanEnd s ∧ NoErrorIn cs s))

/-- R24: no command reads `RES` or `AUX`, nor the status bits `FLT` and `ERR` or `ECMD`: two states that
agree on the calibration get the same error code, and on success of a command that writes results the
same results. -/
def Obligations.ResultsIgnoreEarlierResults : Prop :=
  ∀ (c : Word) (s s' t t' : State),
    s.gain = s'.gain → s.offs = s'.offs → s.calv = s'.calv →
    runWord c s = .next t → runWord c s' = .next t' →
      t.err = t'.err ∧ t.gain = t'.gain ∧ t.offs = t'.offs ∧ t.calv = t'.calv ∧
      (t.err = 0#4 → decode c ≠ .ok .nop → decode c ≠ .ok .clrflt →
        t.res = t'.res ∧ t.aux = t'.aux)

/-! ## The invariant -/

/-- Every step keeps the register invariant, from every state that has it, whatever the host does: the
reserved status bits, the error codes, the legal gain while `CALV` is set, the ranges of `RES` and
`AUX` that no store wraps out of, and the clear registers in reset. -/
def Obligations.StepKeepsRegisterInv : Prop :=
  ∀ s t : State, RegisterInv s → step s = .next t → RegisterInv t

/-- The reset state has the register invariant. -/
def Obligations.ResetHasRegisterInv : Prop :=
  RegisterInv State.reset

/-! ## The host's procedures (the environment; log entry 14) -/

/-- R176 with R173, R174 and R50, as log entry 14 writes the host's procedure, for an AFE at any addresses that
changes as it likes between two transactions. For a valid index `setBalancing` reads the cell's register and
writes it back, the cell's bit as asked and every other bit as read, and no other register is touched by it;
for an invalid one there is no bus transaction and `ERR` is `E_ARG`. -/
def Obligations.SetBalancingTouchesOneBit : Prop :=
  (∀ (afe : Afe) (idx : Byte) (en : Bool) (d : Driver), d.vsc.resetAsserted = false →
    d.mode ≠ .ship → 1 ≤ idx.toNat → idx.toNat ≤ 15 →
    ∃ d' new, setBalancing afe idx en d = (some .done, d') ∧
      (let reg := afe.address (if idx.toNat ≤ 5 then .balA else if idx.toNat ≤ 10 then .balB else .balC)
       let atRead := afe.drift d.bus.length d.regs
       d'.bus = d.bus ++ [.read reg (atRead reg), .write reg new] ∧ d'.regs reg = new ∧
       (∀ r, r ≠ reg → d'.regs r = afe.drift (d.bus.length + 1) atRead r) ∧
       new.getLsbD (cellBit idx) = en ∧
       ∀ j, j < 8 → j ≠ cellBit idx → new.getLsbD j = (atRead reg).getLsbD j)) ∧
  (∀ (afe : Afe) (idx : Byte) (en : Bool) (d : Driver), d.vsc.resetAsserted = false →
    d.mode ≠ .ship → (idx.toNat = 0 ∨ 16 ≤ idx.toNat) →
    ∃ d', setBalancing afe idx en d = (some .invalidArgument, d') ∧ d' = { d with vsc := d'.vsc } ∧
      EndsInError d.vsc d'.vsc 4 (encode (.balsel idx)))

/-- R237 and R238, as log entry 14 writes the host's procedure. Where the category is not the channel's,
internal to external, external to internal or unknown, one control bit is read and written and readings
are valid after two seconds, which are waited for; where it is, there is no transaction and no new wait, so
that a second reading of the same category waits no more; the reading itself is TEMP on the two bytes of the
channel's pair, the second of which is read at the address after the first's, which never wraps (the model's
choice, log entry 18). -/
def Obligations.SettlingDelayOnCategoryChange : Prop :=
  (∀ (afe : Afe) (ch : Channel) (d : Driver), d.category ≠ some ch.category →
    (let d' := selectCategory afe ch d
     d'.category = some ch.category ∧ d'.validAfter = d.now + 2000 ∧ d'.now = d.now + 2000 ∧
     d'.vsc = d.vsc ∧
     ∃ reg old new, d'.bus = d.bus ++ [.read reg old, .write reg new] ∧
       reg = (Config.bitPlace .tsel).address ∧
       new.getLsbD (Config.bitPlace .tsel).bit.val =
         (if ch = .internal then !Config.tselExternal else Config.tselExternal) ∧
       ∀ j, j < 8 → j ≠ (Config.bitPlace .tsel).bit.val → new.getLsbD j = old.getLsbD j)) ∧
  (∀ (afe : Afe) (ch : Channel) (d : Driver), d.category = some ch.category →
    selectCategory afe ch d = { d with now := max d.now d.validAfter }) ∧
  (∀ (afe afe' : Afe) (ch ch' : Channel) (d : Driver), d.mode ≠ .ship → ch.category = ch'.category →
    selectCategory afe' ch' (readTemperature afe ch d).2 = (readTemperature afe ch d).2) ∧
  (∀ (afe : Afe) (ch : Channel) (d : Driver), d.mode ≠ .ship →
    ∃ (hi lo : Byte) (d' : Driver), readTemperature afe ch d = (some (hi, lo), d') ∧
      d'.bus = (selectCategory afe ch d).bus ++
        [.read (afe.pairAddress ch.pair) hi, .read (afe.pairAddress ch.pair + 1) lo] ∧
      d'.vsc = issue (.temp ch.byte hi lo) d.vsc)

/-- R233 and R234, in the form log entry 14 chooses (a failed probe ends bring-up, the fault is cleared after
the wait), for an AFE that changes as it likes. A failed probe reads the probed register ten times and issues
no command; otherwise the three trim bytes are read one after the other, the VSC ends calibrated from the
bytes read, and the host is in normal mode with the interrupt attached. The last clause is the model's
choice of reading back and comparing (log entry 14): bringing the trip registers to their targets a second
time only reads them, where the AFE changes nothing by itself, the two are not one register, and the first
time did not end without convergence, which by bytes it never does. -/
def Obligations.BringUpCalibratesAndTripSettingsSettle : Prop :=
  (∀ (afe : Afe) (cmp : TripCompare) (d : Driver), d.mode ≠ .ship → (probe afe 10 d).1 = false →
    ∃ d', bringUp afe cmp d = (some .startupFailure, d') ∧ d'.vsc = d.vsc ∧ d'.mode = d.mode ∧
      d'.now = d.now + 1000 ∧
      d'.bus = d.bus ++ List.replicate 10 (.read (afe.address Config.probeTrim.reg) 0#8)) ∧
  (∀ (afe : Afe) (cmp : TripCompare) (d : Driver), d.vsc.resetAsserted = false → d.mode ≠ .ship →
    (probe afe 10 d).1 = true →
    ∃ fault uv ov d', bringUp afe cmp d = (some (.running fault uv ov), d') ∧ d'.mode = .normal ∧
      d'.interruptAttached = true ∧ d'.vsc.calv = true ∧
      ∃ before after g1 g2 ot,
        d'.bus = before ++ [.read (afe.address .gtrim1) g1, .read (afe.address .gtrim2) g2,
          .read (afe.address .otrim) ot] ++ after ∧
        d'.vsc.offs = ot ∧
        d'.vsc.gain.toNat = 365 + ((g1.extractLsb' 2 2).toNat * 8 + (g2.extractLsb' 5 3).toNat)) ∧
  (∀ (afe : Afe) (cmp : TripCompare) (d : Driver), d.vsc.resetAsserted = false → afe.Quiet →
    afe.address .uvTrip ≠ afe.address .ovTrip →
    (let first := convergeTrips afe cmp d
     (cmp = .bytes → first.uv ≠ .notConverged ∧ first.ov ≠ .notConverged) ∧
     (first.uv ≠ .notConverged → first.ov ≠ .notConverged →
       (convergeTrips afe cmp first.driver).driver.bus =
         first.driver.bus ++
           [.read (afe.address .uvTrip) (first.driver.regs (afe.address .uvTrip)),
            .read (afe.address .ovTrip) (first.driver.regs (afe.address .ovTrip))])))

/-- 90_conflicts.md C7 and 93_implementation_defined.md U14 in the host's step (h) of R234 (log entry 14): comparing voltages, with
a calibration whose largest undervoltage setting lies more than a step below 3.32 V, the undervoltage
register never converges, whatever the AFE does: the byte is written and the outcome is `notConverged`. -/
def Obligations.UnderTripNeverConverges : Prop :=
  ∀ (afe : Afe) (current : Byte) (d : Driver), d.vsc.resetAsserted = false →
    d.vsc.calv = true → 365 ≤ d.vsc.gain.toNat → d.vsc.gain.toNat ≤ 396 →
    (8176 * d.vsc.gain.toNat : Int) + 1000 * d.vsc.offs.toInt + 16 * d.vsc.gain.toNat < 3320000 →
    ∃ byte back d', convergeTrip afe .voltages .under current d = (.notConverged, d') ∧
      d'.bus = d.bus ++ [.write (afe.address .uvTrip) byte, .read (afe.address .uvTrip) back]

/-- R235 (host, log entry 14): the ship-mode transition is four writes to `CTRL`, one per pattern in the
rule's order with no read in between, and leaves the VSC as it is. Each byte written carries its pattern at
two places of `CTRL`, the same two in every write; the other bits are free values (log entry 17). By R234 it
starts from `Normal`; from the other modes, by the model's choice (log entry 14), it does nothing. -/
def Obligations.ShipModeIsFourWrites : Prop :=
  (∀ (afe : Afe) (d : Driver), d.mode = .normal →
    ∃ d', enterShipMode afe d = some d' ∧
      d'.bus = d.bus ++
        [.write (afe.address .ctrl) (ctrlByte 0b00#2), .write (afe.address .ctrl) (ctrlByte 0b11#2),
         .write (afe.address .ctrl) (ctrlByte 0b01#2), .write (afe.address .ctrl) (ctrlByte 0b10#2)] ∧
      d'.mode = .ship ∧ d'.vsc = d.vsc) ∧
  (∃ upper lower : Nat, upper < 8 ∧ lower < 8 ∧ upper ≠ lower ∧ ∀ pattern : BitVec 2,
    (ctrlByte pattern).getLsbD upper = pattern.getLsbD 1 ∧
    (ctrlByte pattern).getLsbD lower = pattern.getLsbD 0 ∧
    ∀ j, j < 8 → j ≠ upper → j ≠ lower →
      (ctrlByte pattern).getLsbD j = (Config.shipRest pattern).getLsbD j) ∧
  (∀ (afe : Afe) (d : Driver), d.mode ≠ .normal → enterShipMode afe d = none)

/-- R43, R44 and R46 in the host's measurement of a pair (log entry 14): the byte at the pair's address, then
the byte at the next one, back to back, high before low, whatever the AFE does in between; a command takes
them as `HI` and `LO`; and where the AFE changes nothing by itself, they are the two registers as they
stood. The pairs of R48, the internal temperature's too, are measured alike. That the next address never
wraps is the model's choice (log entry 18). -/
def Obligations.PairReadIsHighThenLow : Prop :=
  ∀ (afe : Afe) (pair : AfePair) (command : PairCommand) (d : Driver), d.mode ≠ .ship →
    ∃ (hi lo : Byte) (d' : Driver), measurePair afe pair command d = (some (hi, lo), d') ∧
      (let a := afe.pairAddress pair
       let atHigh := afe.drift d.bus.length d.regs
       hi = atHigh a ∧ lo = afe.drift (d.bus.length + 1) atHigh (a + 1) ∧
       d'.bus = d.bus ++ [.read a hi, .read (a + 1) lo] ∧
       d'.vsc = issue (command.on hi lo) d.vsc ∧
       (afe.Quiet → hi = d.regs a ∧ lo = d.regs (a + 1) ∧ d'.regs = d.regs))

/-- R234 and R235 over the host's procedures (log entry 14): the mode goes from `Uninitialized` to `Normal`
by bring-up alone and from `Normal` to `Ship` by the ship-mode transition alone, and never back. In `Ship`
every procedure answers that it did nothing, and no sequence of calls makes a bus transaction, changes the
VSC or leaves the mode. -/
def Obligations.ShipIsTerminal : Prop :=
  (∀ (afe : Afe) (call : HostCall) (d : Driver),
    (d.perform afe call).mode = d.mode ∨
    (d.mode = .uninitialized ∧ (∃ cmp, call = .bringUp cmp) ∧ (d.perform afe call).mode = .normal) ∨
    (d.mode = .normal ∧ call = .enterShipMode ∧ (d.perform afe call).mode = .ship)) ∧
  (∀ (afe : Afe) (d : Driver), d.mode = .ship →
    (∀ pair command, measurePair afe pair command d = (none, d)) ∧
    (∀ idx en, setBalancing afe idx en d = (none, d)) ∧
    (∀ ch, readTemperature afe ch d = (none, d)) ∧
    (∀ cmp, bringUp afe cmp d = (none, d)) ∧
    pollInterrupt afe d = (none, d) ∧ enterShipMode afe d = none) ∧
  (∀ (afe : Afe) (calls : List HostCall) (d : Driver), d.mode = .ship →
    (let t := d.performAll afe calls
     t.mode = .ship ∧ t.vsc = d.vsc ∧ t.bus = d.bus ∧ t.regs = d.regs ∧ t.now = d.now)) ∧
  (∀ (afe : Afe) (calls : List HostCall) (d : Driver), d.mode = .normal →
    (d.performAll afe calls).mode ≠ .uninitialized)

/-- R233 (host, log entry 14): there is one register among `GTRIM1`, `GTRIM2` and `OTRIM` that the probe polls,
for every AFE. It ends at the first poll that reads nonzero, or fails after ten zeros; a poll of zero is
followed by 100 ms; it issues no command. Where the AFE changes nothing by itself it succeeds exactly when
that register is not zero, so whenever all three trims are nonzero. -/
def Obligations.ProbePollsOneTrimRegister : Prop :=
  ∃ reg : AfeReg, (reg = .gtrim1 ∨ reg = .gtrim2 ∨ reg = .otrim) ∧
    ∀ (afe : Afe) (d : Driver),
      (let a := afe.address reg
       let r := probe afe 10 d
       r.2.vsc = d.vsc ∧ r.2.mode = d.mode ∧
       ((r.1 = false ∧ r.2.bus = d.bus ++ List.replicate 10 (.read a 0#8) ∧ r.2.now = d.now + 1000) ∨
        (r.1 = true ∧ ∃ k v, k < 10 ∧ v ≠ 0#8 ∧ r.2.now = d.now + 100 * k ∧
          r.2.bus = d.bus ++ List.replicate k (.read a 0#8) ++ [.read a v])) ∧
       (afe.Quiet → (r.1 = true ↔ d.regs a ≠ 0#8)))
end

