-- ==== Sys2Proof/Laws/State.lean ====
section
/-! SUPPORT. What each named update of the state leaves in each field, and the fields of a packed
`STATUS`. -/

namespace Sys2Proof.Machine

/-! ## The fields of a packed status -/

theorem packStatus_err (e : BitVec 4) (f c : Bool) : (packStatus e f c).extractLsb' 4 4 = e := by
  revert e f c; decide

theorem packStatus_flt (e : BitVec 4) (f c : Bool) : (packStatus e f c).getLsbD 1 = f := by
  revert e f c; decide

theorem packStatus_calv (e : BitVec 4) (f c : Bool) : (packStatus e f c).getLsbD 0 = c := by
  revert e f c; decide

theorem packStatus_reserved (e : BitVec 4) (f c : Bool) :
    (packStatus e f c).extractLsb' 2 2 = 0#2 := by
  revert e f c; decide

@[simp] theorem writeStatus_err (e f c s) : (writeStatus e f c s).err = e := packStatus_err e f c
@[simp] theorem writeStatus_flt (e f c s) : (writeStatus e f c s).flt = f := packStatus_flt e f c
@[simp] theorem writeStatus_calv (e f c s) : (writeStatus e f c s).calv = c := packStatus_calv e f c
@[simp] theorem writeStatus_reserved (e f c s) : (writeStatus e f c s).statusReserved = 0#2 :=
  packStatus_reserved e f c

/-! ## writeStatus -/

@[simp] theorem writeStatus_gain (e f c s) : (writeStatus e f c s).gain = s.gain := rfl
@[simp] theorem writeStatus_offs (e f c s) : (writeStatus e f c s).offs = s.offs := rfl
@[simp] theorem writeStatus_res (e f c s) : (writeStatus e f c s).res = s.res := rfl
@[simp] theorem writeStatus_aux (e f c s) : (writeStatus e f c s).aux = s.aux := rfl
@[simp] theorem writeStatus_ecmd (e f c s) : (writeStatus e f c s).ecmd = s.ecmd := rfl
@[simp] theorem writeStatus_resetAsserted (e f c s) :
    (writeStatus e f c s).resetAsserted = s.resetAsserted := rfl
@[simp] theorem writeStatus_hostActions (e f c s) :
    (writeStatus e f c s).hostActions = s.hostActions := rfl

/-! ## writeResult -/

@[simp] theorem writeResult_gain (r s) : (writeResult r s).gain = s.gain := rfl
@[simp] theorem writeResult_offs (r s) : (writeResult r s).offs = s.offs := rfl
@[simp] theorem writeResult_res (r s) : (writeResult r s).res = r.res := rfl
@[simp] theorem writeResult_aux (r s) : (writeResult r s).aux = r.aux := rfl
@[simp] theorem writeResult_status (r s) : (writeResult r s).status = s.status := rfl
@[simp] theorem writeResult_err (r s) : (writeResult r s).err = s.err := rfl
@[simp] theorem writeResult_flt (r s) : (writeResult r s).flt = s.flt := rfl
@[simp] theorem writeResult_calv (r s) : (writeResult r s).calv = s.calv := rfl
@[simp] theorem writeResult_ecmd (r s) : (writeResult r s).ecmd = s.ecmd := rfl
@[simp] theorem writeResult_resetAsserted (r s) :
    (writeResult r s).resetAsserted = s.resetAsserted := rfl
@[simp] theorem writeResult_hostActions (r s) :
    (writeResult r s).hostActions = s.hostActions := rfl

/-! ## loadCalibration -/

@[simp] theorem loadCalibration_gain (g o s) : (loadCalibration g o s).gain = g := rfl
@[simp] theorem loadCalibration_offs (g o s) : (loadCalibration g o s).offs = o := rfl
@[simp] theorem loadCalibration_res (g o s) : (loadCalibration g o s).res = s.res := rfl
@[simp] theorem loadCalibration_aux (g o s) : (loadCalibration g o s).aux = s.aux := rfl
@[simp] theorem loadCalibration_err (g o s) : (loadCalibration g o s).err = s.err :=
  packStatus_err _ _ _
@[simp] theorem loadCalibration_flt (g o s) : (loadCalibration g o s).flt = s.flt :=
  packStatus_flt _ _ _
@[simp] theorem loadCalibration_calv (g o s) : (loadCalibration g o s).calv = true :=
  packStatus_calv _ _ _
@[simp] theorem loadCalibration_ecmd (g o s) : (loadCalibration g o s).ecmd = s.ecmd := rfl
@[simp] theorem loadCalibration_resetAsserted (g o s) :
    (loadCalibration g o s).resetAsserted = s.resetAsserted := rfl
@[simp] theorem loadCalibration_hostActions (g o s) :
    (loadCalibration g o s).hostActions = s.hostActions := rfl

/-! ## clearFault -/

@[simp] theorem clearFault_gain (s) : (clearFault s).gain = s.gain := rfl
@[simp] theorem clearFault_offs (s) : (clearFault s).offs = s.offs := rfl
@[simp] theorem clearFault_res (s) : (clearFault s).res = s.res := rfl
@[simp] theorem clearFault_aux (s) : (clearFault s).aux = s.aux := rfl
@[simp] theorem clearFault_err (s) : (clearFault s).err = s.err := packStatus_err _ _ _
@[simp] theorem clearFault_flt (s) : (clearFault s).flt = false := packStatus_flt _ _ _
@[simp] theorem clearFault_calv (s) : (clearFault s).calv = s.calv := packStatus_calv _ _ _
@[simp] theorem clearFault_ecmd (s) : (clearFault s).ecmd = s.ecmd := rfl
@[simp] theorem clearFault_resetAsserted (s) :
    (clearFault s).resetAsserted = s.resetAsserted := rfl
@[simp] theorem clearFault_hostActions (s) : (clearFault s).hostActions = s.hostActions := rfl

/-! ## raise -/

@[simp] theorem raise_gain (e c s) : (raise e c s).gain = s.gain := rfl
@[simp] theorem raise_offs (e c s) : (raise e c s).offs = s.offs := rfl
@[simp] theorem raise_res (e c s) : (raise e c s).res = s.res := rfl
@[simp] theorem raise_aux (e c s) : (raise e c s).aux = s.aux := rfl
@[simp] theorem raise_err (e c s) : (raise e c s).err = e.code := packStatus_err _ _ _
@[simp] theorem raise_flt (e c s) : (raise e c s).flt = true := packStatus_flt _ _ _
@[simp] theorem raise_calv (e c s) : (raise e c s).calv = s.calv := packStatus_calv _ _ _
@[simp] theorem raise_reserved (e c s) : (raise e c s).statusReserved = 0#2 :=
  packStatus_reserved _ _ _
@[simp] theorem raise_ecmd (e c s) : (raise e c s).ecmd = c := rfl
@[simp] theorem raise_resetAsserted (e c s) :
    (raise e c s).resetAsserted = s.resetAsserted := rfl
@[simp] theorem raise_hostActions (e c s) : (raise e c s).hostActions = s.hostActions := rfl

/-! ## succeed -/

@[simp] theorem succeed_gain (s) : (succeed s).gain = s.gain := rfl
@[simp] theorem succeed_offs (s) : (succeed s).offs = s.offs := rfl
@[simp] theorem succeed_res (s) : (succeed s).res = s.res := rfl
@[simp] theorem succeed_aux (s) : (succeed s).aux = s.aux := rfl
@[simp] theorem succeed_err (s) : (succeed s).err = 0#4 := packStatus_err _ _ _
@[simp] theorem succeed_flt (s) : (succeed s).flt = s.flt := packStatus_flt _ _ _
@[simp] theorem succeed_calv (s) : (succeed s).calv = s.calv := packStatus_calv _ _ _
@[simp] theorem succeed_reserved (s) : (succeed s).statusReserved = 0#2 :=
  packStatus_reserved _ _ _
@[simp] theorem succeed_ecmd (s) : (succeed s).ecmd = s.ecmd := rfl
@[simp] theorem succeed_resetAsserted (s) : (succeed s).resetAsserted = s.resetAsserted := rfl
@[simp] theorem succeed_hostActions (s) : (succeed s).hostActions = s.hostActions := rfl

/-! ## clearRegisters -/

@[simp] theorem clearRegisters_gain (s) : (clearRegisters s).gain = 0#9 := rfl
@[simp] theorem clearRegisters_offs (s) : (clearRegisters s).offs = 0#8 := rfl
@[simp] theorem clearRegisters_res (s) : (clearRegisters s).res = 0#32 := rfl
@[simp] theorem clearRegisters_aux (s) : (clearRegisters s).aux = 0#16 := rfl
@[simp] theorem clearRegisters_status (s) : (clearRegisters s).status = 0#8 := rfl
@[simp] theorem clearRegisters_ecmd (s) : (clearRegisters s).ecmd = 0#32 := rfl
@[simp] theorem clearRegisters_resetAsserted (s) :
    (clearRegisters s).resetAsserted = s.resetAsserted := rfl
@[simp] theorem clearRegisters_hostActions (s) :
    (clearRegisters s).hostActions = s.hostActions := rfl

end Sys2Proof.Machine
end

