-- ==== Sys2Proof/Laws/Ops.lean ====
section
/-! SUPPORT. Once each, everything a shared operation can do: how a command ends, the raw operand and its
check, the division, and reset. -/

namespace Sys2Proof.Machine

/-! ## How a command ends -/

/-- The error entry is an error ending (R201). -/
theorem raise_endsInError (e : ErrorCode) (c : Word) (s : State) :
    EndsInError s (raise e c s) e.code.toNat c := by
  refine ⟨⟨by simp, by simp, by simp, by simp⟩, rfl⟩

/-- A result stored within the widths of `RES` and `AUX`, then the epilogue, is a successful ending
with that result (R13, R202). -/
theorem succeed_store (s : State) (v : Int) (a : Nat) (hlo : -2147483648 ≤ v)
    (hhi : v < 2147483648) (ha : a < 65536) :
    Succeeds s (succeed (writeResult (Result.store v a) s)) v a := by
  refine ⟨?_, ?_, ⟨by simp, by simp, by simp, by simp⟩, rfl⟩
  · show (BitVec.ofInt 32 v).toInt = v
    rw [BitVec.toInt_ofInt]
    exact Int.bmod_eq_of_le (by norm_num; omega) (by norm_num; omega)
  · show (BitVec.ofNat 16 a).toNat = a
    rw [BitVec.toNat_ofNat]
    exact Nat.mod_eq_of_lt ha

/-- A command that computed an error ends in the error entry. -/
@[simp] theorem complete_error (c : Word) (e : ErrorCode) (s : State) :
    complete c (.error e) s = .next (raise e c s) := rfl

/-- A command that computed a result writes it and succeeds. -/
@[simp] theorem complete_ok (c : Word) (r : Result) (s : State) :
    complete c (.ok r) s = .next (succeed (writeResult r s)) := rfl

/-- Everything `complete` can do. -/
theorem complete_cases {c : Word} {r : Except ErrorCode Result} {s t : State}
    (h : complete c r s = .next t) :
    (∃ e, r = .error e ∧ t = raise e c s) ∨
      (∃ v, r = .ok v ∧ t = succeed (writeResult v s)) := by
  cases r with
  | error e => exact .inl ⟨e, rfl, by simpa [complete] using h.symm⟩
  | ok v => exact .inr ⟨v, rfl, by simpa [complete] using h.symm⟩

/-- `complete` always answers a next state. -/
theorem complete_next (c : Word) (r : Except ErrorCode Result) (s : State) :
    ∃ t, complete c r s = .next t := by
  cases r <;> exact ⟨_, rfl⟩

/-- Every error code is one of 1 to 6 (R200). -/
theorem code_range (e : ErrorCode) : 1 ≤ e.code.toNat ∧ e.code.toNat ≤ 6 := by
  cases e <;> decide

/-! ## The calibration check -/

theorem requireCalibration_true {s : State} (h : s.calv = true) (r : Except ErrorCode Result) :
    requireCalibration s r = r := by simp [requireCalibration, h]

theorem requireCalibration_false {s : State} (h : s.calv = false) (r : Except ErrorCode Result) :
    requireCalibration s r = .error .noCal := by simp [requireCalibration, h]

/-! ## The raw operand -/

theorem rawNat_lt (hi lo : Byte) : rawNat hi lo < 65536 := by
  have := hi.isLt; have := lo.isLt; unfold rawNat; omega

theorem rawOf_toNat (hi lo : Byte) : (rawOf hi lo).toNat = rawNat hi lo := by
  rw [rawOf, BitVec.toNat_append, rawNat, ← Nat.shiftLeft_add_eq_or_of_lt lo.isLt,
    Nat.shiftLeft_eq]

/-- The 14-bit check as a comparison of numbers (R101). -/
theorem raw14_eq (hi lo : Byte) :
    raw14 hi lo =
      if rawNat hi lo ≤ 16383 then .ok (rawNat hi lo) else .error .raw14 := by
  have hlt := rawNat_lt hi lo
  have hdiv : ((rawOf hi lo).extractLsb' 14 2 = 0#2) ↔ rawNat hi lo ≤ 16383 := by
    rw [BitVec.toNat_eq, BitVec.extractLsb'_toNat, rawOf_toNat, Nat.shiftRight_eq_div_pow]
    simp only [BitVec.toNat_ofNat, Nat.zero_mod]
    omega
  unfold raw14
  by_cases h : rawNat hi lo ≤ 16383
  · rw [if_pos (hdiv.2 h), if_pos h, rawOf_toNat]
  · rw [if_neg (fun h2 => h (hdiv.1 h2)), if_neg h]

/-- The sign of the 16-bit field (R141). -/
theorem rawOf_toInt (hi lo : Byte) :
    (rawOf hi lo).toInt =
      if rawNat hi lo < 32768 then (rawNat hi lo : Int) else (rawNat hi lo : Int) - 65536 := by
  rw [BitVec.toInt_eq_toNat_cond, rawOf_toNat]
  have := rawNat_lt hi lo
  split <;> split <;> push_cast <;> omega

/-! ## Division -/

theorem tdiv_of_ne {b : Int} (a : Int) (h : b ≠ 0) : tdiv a b = Int.tdiv a b := by
  simp [tdiv, h]

/-! ## The calibration as integers -/

theorem gainInt_range (s : State) : 0 ≤ s.gainInt ∧ s.gainInt ≤ 511 := by
  have := s.gain.isLt; unfold State.gainInt; omega

theorem offsInt_range (s : State) : -128 ≤ s.offsInt ∧ s.offsInt ≤ 127 := by
  have h1 := BitVec.le_toInt s.offs
  have h2 := BitVec.toInt_lt (x := s.offs)
  unfold State.offsInt; norm_num at h1 h2; omega

/-! ## Reset -/

theorem clearRegisters_clear (s : State) : RegistersClear (clearRegisters s) :=
  ⟨rfl, rfl, rfl, rfl, rfl, rfl⟩

theorem holdReset_asserted {s : State} (h : s.resetAsserted = true) :
    holdReset s = clearRegisters s := by simp [holdReset, h]

theorem holdReset_released {s : State} (h : s.resetAsserted = false) : holdReset s = s := by
  simp [holdReset, h]

end Sys2Proof.Machine
end

