-- ==== Sys2Proof/Laws/Commands.lean ====
section
/-! SUPPORT. The pure parts of the commands as numbers: the gain trim, the trip field, the balancing map
and the thermistor table. -/

namespace Sys2Proof.Machine

/-! ## The gain trim (41_calibration.md R110) -/

theorem gainTrim_fields (g1 g2 : Byte) :
    gainTrim g1 g2 = 0#3 ++ g1.extractLsb' 2 2 ++ g2.extractLsb' 5 3 := by
  have h1 : ((g1 &&& 0x0C#8) <<< 1) = 0#3 ++ g1.extractLsb' 2 2 ++ 0#3 := by
    revert g1; decide
  have h2 : g2 >>> 5 = 0#3 ++ 0#2 ++ g2.extractLsb' 5 3 := by revert g2; decide
  rw [gainTrim, h1, h2]
  generalize g1.extractLsb' 2 2 = a
  generalize g2.extractLsb' 5 3 = b
  revert a b; decide

theorem gainTrim_toNat (g1 g2 : Byte) :
    (gainTrim g1 g2).toNat =
      (g1.extractLsb' 2 2).toNat * 8 + (g2.extractLsb' 5 3).toNat := by
  rw [gainTrim_fields]
  generalize g1.extractLsb' 2 2 = a
  generalize g2.extractLsb' 5 3 = b
  revert a b; decide

theorem gainTrim_le (g1 g2 : Byte) : (gainTrim g1 g2).toNat ≤ 31 := by
  rw [gainTrim_toNat]
  have := (g1.extractLsb' 2 2).isLt
  have := (g2.extractLsb' 5 3).isLt
  omega

theorem gainOf_toNat {trim : Byte} (h : trim.toNat ≤ 31) :
    (gainOf trim).toNat = 365 + trim.toNat := by
  rw [gainOf, BitVec.toNat_ofNat]; omega

/-! ## The trip field (42_voltage.md R127) -/

theorem tripField_over (b : Byte) : (tripField .over b).toNat = 8200 + 16 * b.toNat := by
  revert b; decide

theorem tripField_under (b : Byte) : (tripField .under b).toNat = 4096 + 16 * b.toNat := by
  revert b; decide

theorem tripByte_toNat (q : BitVec 14) : (tripByte q).toNat = q.toNat / 16 % 256 := by
  rw [tripByte, BitVec.extractLsb'_toNat, Nat.shiftRight_eq_div_pow]

/-! ## The balancing map (45_balancing.md R170) -/

theorem balmap_eq (idx : Byte) :
    balmap idx =
      if 1 ≤ idx.toNat ∧ idx.toNat ≤ 5 then some ⟨.a, idx.toNat⟩
      else if 6 ≤ idx.toNat ∧ idx.toNat ≤ 10 then some ⟨.b, idx.toNat - 6⟩
      else if 11 ≤ idx.toNat ∧ idx.toNat ≤ 15 then some ⟨.c, idx.toNat - 11⟩
      else none := by
  revert idx; decide

theorem balmap_none_iff (idx : Byte) :
    balmap idx = none ↔ idx.toNat < 1 ∨ 15 < idx.toNat := by
  rw [balmap_eq]; split_ifs <;> simp <;> omega

/-- A target's bit is within the register. -/
theorem balmap_bit {idx : Byte} {t : BalTarget} (h : balmap idx = some t) : t.bit ≤ 5 := by
  rw [balmap_eq] at h
  split_ifs at h <;> injection h with h <;> subst h <;> simp <;> omega

/-! ## The thermistor table (44_temperature.md R155) -/

theorem lutFrom_length (ds : List Nat) : (lutFrom ds).length = ds.length + 1 := by
  induction ds with
  | nil => rfl
  | cons d ds ih => simp [lutFrom, ih]

theorem lutFrom_ne_nil (ds : List Nat) : lutFrom ds ≠ [] := by
  intro h; have := lutFrom_length ds; rw [h] at this; simp at this

/-- Every table so built ends in 8313. -/
theorem lutFrom_getLast (ds : List Nat) : (lutFrom ds).getLast (lutFrom_ne_nil ds) = 8313 := by
  induction ds with
  | nil => rfl
  | cons d ds ih =>
    simp only [lutFrom]
    rw [List.getLast_cons (lutFrom_ne_nil ds)]
    exact ih

/-- Every table so built is strictly descending. -/
theorem lutFrom_descending (ds : List Nat) : (lutFrom ds).Pairwise (· > ·) := by
  induction ds with
  | nil => simp [lutFrom]
  | cons d ds ih =>
    simp only [lutFrom, List.pairwise_cons]
    refine ⟨?_, ih⟩
    cases h : lutFrom ds with
    | nil => exact absurd h (lutFrom_ne_nil ds)
    | cons x xs =>
      rw [h, List.pairwise_cons] at ih
      intro y hy
      rcases List.mem_cons.1 hy with rfl | hy
      · simp only [List.headD_cons]; omega
      · have := ih.1 y hy
        simp only [List.headD_cons]; omega

/-- Every strictly descending table that ends in 8313 is so built. -/
theorem lutFrom_complete (t : List Nat) (hne : t ≠ []) (hlast : t.getLast hne = 8313)
    (hd : t.Pairwise (· > ·)) : ∃ ds, lutFrom ds = t := by
  induction t with
  | nil => exact absurd rfl hne
  | cons x xs ih =>
    cases xs with
    | nil => exact ⟨[], by simpa [lutFrom] using hlast.symm⟩
    | cons y ys =>
      rw [List.pairwise_cons] at hd
      obtain ⟨ds, hds⟩ := ih (by simp) (by simpa using hlast) hd.2
      have hxy : x > y := hd.1 y (by simp)
      refine ⟨(x - y - 1) :: ds, ?_⟩
      simp only [lutFrom, hds, List.headD_cons]
      congr 1
      omega

/-- The parameter `LUT_OHM` has the seventeen rows of R155. -/
theorem lutOhm_length : lutOhm.length = 17 := by
  simp [lutOhm, lutFrom_length]

theorem lutOhm_descending : lutOhm.Pairwise (· > ·) := lutFrom_descending _

theorem lutOhm_ne_nil : lutOhm ≠ [] := lutFrom_ne_nil _

theorem lutOhm_last : lutOhm.getLast lutOhm_ne_nil = 8313 := lutFrom_getLast _

/-- `LUT_OHM[16] = 8313` (R8). -/
theorem lutOhm_row16 : lutOhm[16]? = some 8313 := by
  have h := lutOhm_last
  rw [List.getLast_eq_getElem] at h
  simp only [lutOhm_length] at h
  exact List.getElem?_eq_some_iff.2 ⟨_, h⟩

/-- No threshold is below the last one. -/
theorem lutOhm_ge {j ohm : Nat} (h : lutOhm[j]? = some ohm) : 8313 ≤ ohm := by
  obtain ⟨hj, hohm⟩ := List.getElem?_eq_some_iff.1 h
  obtain ⟨h16, hlast⟩ := List.getElem?_eq_some_iff.1 lutOhm_row16
  rw [lutOhm_length] at hj
  rcases Nat.lt_or_ge j 16 with hlt | hge
  · have := List.pairwise_iff_getElem.1 lutOhm_descending j 16 (by rw [lutOhm_length]; omega)
      h16 hlt
    omega
  · have : j = 16 := by omega
    subst this
    omega

theorem numCells_range : 1 ≤ numCells ∧ numCells ≤ 15 := by
  have := Config.numCellsLessOne.isLt; unfold numCells; omega

/-- Everything a table lookup can answer: no row, or the first row the resistance exceeds (R157). -/
theorem lutRow_some_iff (lut : List Nat) (raw i : Nat) :
    lutRow lut raw = some i ↔
      0 < dividerDen raw ∧ ∃ h : i < lut.length, exceeds raw lut[i] = true ∧
        ∀ j (hj : j < i), exceeds raw (lut[j]'(by omega)) = false := by
  unfold lutRow
  split
  · rename_i h
    constructor
    · intro h2; exact absurd h2 (by simp)
    · rintro ⟨h2, _⟩; omega
  · rename_i h
    rw [List.findIdx?_eq_some_iff_getElem]
    constructor
    · rintro ⟨h1, h2, h3⟩
      exact ⟨by omega, h1, h2, fun j hj => by simpa using h3 j hj⟩
    · rintro ⟨_, h1, h2, h3⟩
      exact ⟨h1, h2, fun j hj => by simpa using h3 j hj⟩

/-- A reading whose resistance exceeds the last threshold has a row, whatever the other rows are. -/
theorem lutRow_exists {raw : Nat} (hden : 0 < dividerDen raw) (h : exceeds raw 8313 = true) :
    ∃ i, lutRow lutOhm raw = some i := by
  rw [← Option.isSome_iff_exists, lutRow, if_neg (by omega), List.findIdx?_isSome, List.any_eq_true]
  exact ⟨8313, List.mem_of_getElem? lutOhm_row16, h⟩

end Sys2Proof.Machine
end

