-- ==== Sys2Proof/Laws/Decode.lean ====
section
/-! SUPPORT. The rows of the opcode map read through the format tables: a word matches a row exactly when
its `OP` is the row's and its reserved bits are 0 (30_encoding.md R62, R65, R67). -/

namespace Sys2Proof

/-- A mask of high ones keeps exactly the bits from `k` up. -/
theorem and_highOnes (c : Word) (k : Nat) : c &&& (BitVec.allOnes 32 <<< k) = (c >>> k) <<< k := by
  ext i hi
  simp only [BitVec.getElem_and, BitVec.getElem_shiftLeft, BitVec.getElem_allOnes,
    BitVec.getElem_ushiftRight]
  by_cases h : i < k
  · simp [h]
  · have hk : k + (i - k) = i := by omega
    simp [h, hk, BitVec.getLsbD_eq_getElem hi]

/-- Comparing under a mask of high ones is comparing the bits from `k` up. -/
theorem masked_eq_iff (c : Word) (k : Nat) (v : Word) (hv : (v <<< k) >>> k = v) :
    c &&& (BitVec.allOnes 32 <<< k) = v <<< k ↔ c >>> k = v := by
  rw [and_highOnes]
  constructor
  · intro h
    have h2 : ((c >>> k) <<< k) >>> k = (v <<< k) >>> k := by rw [h]
    rw [hv] at h2
    rw [← h2]
    ext i hi
    simp only [BitVec.getElem_ushiftRight, BitVec.getLsbD_shiftLeft, BitVec.getLsbD_ushiftRight]
    by_cases hk : k + i < 32
    · simp [hk]
    · simp [hk, BitVec.getLsbD_of_ge c (k + i) (by omega)]
  · intro h
    rw [h]

/-- The bits from `k` up, as a number. -/
theorem shiftRight_eq_iff (c : Word) (k : Nat) (v : Word) :
    c >>> k = v ↔ c.toNat / 2 ^ k = v.toNat := by
  rw [BitVec.toNat_eq, BitVec.toNat_ushiftRight, Nat.shiftRight_eq_div_pow]

/-- A row whose mask is high ones matches by the number its bits from `k` up form. -/
theorem matches_iff_div (r : OpRow) (k : Nat) (v : Word) (hm : r.mask = BitVec.allOnes 32 <<< k)
    (hp : r.pattern = v <<< k) (hv : (v <<< k) >>> k = v) (c : Word) :
    r.matches c = true ↔ c.toNat / 2 ^ k = v.toNat := by
  rw [OpRow.matches, beq_iff_eq, hm, hp, masked_eq_iff c k v hv, shiftRight_eq_iff]

/-- BALSEL's row, whose reserved bits lie on both sides of its operand. -/
theorem balsel_matches_iff (c : Word) :
    (OpRow.mk "BALSEL" .balsel .s 0x90000000#32 0xFFFF00FF#32).matches c = true ↔
      c.toNat / 2 ^ 16 = 0x9000 ∧ c.toNat % 2 ^ 8 = 0 := by
  have hsplit : (0xFFFF00FF#32 : Word) = (BitVec.allOnes 32 <<< 16) ||| 0xFF#32 := by decide
  have hlow : (c &&& 0xFF#32).toNat = c.toNat % 2 ^ 8 := by
    rw [BitVec.toNat_and]; exact Nat.and_two_pow_sub_one_eq_mod c.toNat 8
  rw [OpRow.matches, beq_iff_eq]
  constructor
  · intro h
    have hh : c &&& (BitVec.allOnes 32 <<< 16) = 0x9000#32 <<< 16 := by
      have : (c &&& 0xFFFF00FF#32) &&& (BitVec.allOnes 32 <<< 16) = 0x9000#32 <<< 16 := by
        rw [h]; decide
      rwa [BitVec.and_assoc, show (0xFFFF00FF#32 : Word) &&& (BitVec.allOnes 32 <<< 16)
        = BitVec.allOnes 32 <<< 16 by decide] at this
    have hl : c &&& 0xFF#32 = 0#32 := by
      have : (c &&& 0xFFFF00FF#32) &&& 0xFF#32 = 0#32 := by rw [h]; decide
      rwa [BitVec.and_assoc, show (0xFFFF00FF#32 : Word) &&& 0xFF#32 = 0xFF#32 by decide] at this
    refine ⟨(shiftRight_eq_iff c 16 0x9000#32).1
      ((masked_eq_iff c 16 0x9000#32 (by decide)).1 hh), ?_⟩
    rw [← hlow, hl]; rfl
  · rintro ⟨hh, hl⟩
    have h1 := (masked_eq_iff c 16 0x9000#32 (by decide)).2
      ((shiftRight_eq_iff c 16 0x9000#32).2 hh)
    have h2 : c &&& 0xFF#32 = 0#32 := by
      apply BitVec.eq_of_toNat_eq; rw [hlow, hl]; rfl
    have h3 : c &&& (BitVec.allOnes 32 <<< 16 ||| 0xFF#32)
        = (c &&& BitVec.allOnes 32 <<< 16) ||| (c &&& 0xFF#32) := by
      ext i hi
      simp only [BitVec.getElem_and, BitVec.getElem_or, Bool.and_or_distrib_left]
    rw [hsplit, h3, h1, h2]; decide

theorem nop_matches_iff (c : Word) :
    (OpRow.mk "NOP" .nop .n 0x00000000#32 0xFFFFFFFF#32).matches c = true ↔
      c.toNat / 2 ^ 0 = 0x0 :=
  matches_iff_div _ 0 0x0#32 (by decide) (by decide) (by decide) c

theorem calld_matches_iff (c : Word) :
    (OpRow.mk "CALLD" .calld .c 0x10000000#32 0xFF000000#32).matches c = true ↔
      c.toNat / 2 ^ 24 = 0x10 :=
  matches_iff_div _ 24 0x10#32 (by decide) (by decide) (by decide) c

theorem pair_matches_iff (c : Word) :
    (OpRow.mk "PAIR" .pair .p 0x20000000#32 0xFFFF0000#32).matches c = true ↔
      c.toNat / 2 ^ 16 = 0x2000 :=
  matches_iff_div _ 16 0x2000#32 (by decide) (by decide) (by decide) c

theorem cellv_matches_iff (c : Word) :
    (OpRow.mk "CELLV" .cellv .p 0x30000000#32 0xFFFF0000#32).matches c = true ↔
      c.toNat / 2 ^ 16 = 0x3000 :=
  matches_iff_div _ 16 0x3000#32 (by decide) (by decide) (by decide) c

theorem packv_matches_iff (c : Word) :
    (OpRow.mk "PACKV" .packv .p 0x40000000#32 0xFFFF0000#32).matches c = true ↔
      c.toNat / 2 ^ 16 = 0x4000 :=
  matches_iff_div _ 16 0x4000#32 (by decide) (by decide) (by decide) c

theorem tripenc_matches_iff (c : Word) :
    (OpRow.mk "TRIPENC" .tripenc .e 0x50000000#32 0xFF000000#32).matches c = true ↔
      c.toNat / 2 ^ 24 = 0x50 :=
  matches_iff_div _ 24 0x50#32 (by decide) (by decide) (by decide) c

theorem tripdec_matches_iff (c : Word) :
    (OpRow.mk "TRIPDEC" .tripdec .d 0x60000000#32 0xFFFFFE00#32).matches c = true ↔
      c.toNat / 2 ^ 9 = 0x300000 :=
  matches_iff_div _ 9 0x300000#32 (by decide) (by decide) (by decide) c

theorem ccsig_matches_iff (c : Word) :
    (OpRow.mk "CCSIG" .ccsig .p 0x70000000#32 0xFFFF0000#32).matches c = true ↔
      c.toNat / 2 ^ 16 = 0x7000 :=
  matches_iff_div _ 16 0x7000#32 (by decide) (by decide) (by decide) c

theorem temp_matches_iff (c : Word) :
    (OpRow.mk "TEMP" .temp .t 0x80000000#32 0xFF000000#32).matches c = true ↔
      c.toNat / 2 ^ 24 = 0x80 :=
  matches_iff_div _ 24 0x80#32 (by decide) (by decide) (by decide) c

theorem balupd_matches_iff (c : Word) :
    (OpRow.mk "BALUPD" .balupd .u 0xA0000000#32 0xFFFE0000#32).matches c = true ↔
      c.toNat / 2 ^ 17 = 0x5000 :=
  matches_iff_div _ 17 0x5000#32 (by decide) (by decide) (by decide) c

theorem clrflt_matches_iff (c : Word) :
    (OpRow.mk "CLRFLT" .clrflt .n 0xB0000000#32 0xFFFFFFFF#32).matches c = true ↔
      c.toNat / 2 ^ 0 = 0xB0000000 :=
  matches_iff_div _ 0 0xB0000000#32 (by decide) (by decide) (by decide) c

/-- `find?` one element at a time, as an `if`. -/
theorem find?_cons_ite {α : Type} (p : α → Bool) (a : α) (l : List α) :
    (a :: l).find? p = if p a = true then some a else l.find? p := by
  by_cases h : p a = true <;> simp [h]

/-- Which row of the opcode map a word matches, as numbers: the value of the bits above the format's
operands, and for BALSEL the low byte too. -/
theorem find_opcodeMap (c : Word) :
    opcodeMap.find? (·.matches c) =
      if c.toNat / 2 ^ 0 = 0x0 then
        some (OpRow.mk "NOP" .nop .n 0x00000000#32 0xFFFFFFFF#32)
      else if c.toNat / 2 ^ 24 = 0x10 then
        some (OpRow.mk "CALLD" .calld .c 0x10000000#32 0xFF000000#32)
      else if c.toNat / 2 ^ 16 = 0x2000 then
        some (OpRow.mk "PAIR" .pair .p 0x20000000#32 0xFFFF0000#32)
      else if c.toNat / 2 ^ 16 = 0x3000 then
        some (OpRow.mk "CELLV" .cellv .p 0x30000000#32 0xFFFF0000#32)
      else if c.toNat / 2 ^ 16 = 0x4000 then
        some (OpRow.mk "PACKV" .packv .p 0x40000000#32 0xFFFF0000#32)
      else if c.toNat / 2 ^ 24 = 0x50 then
        some (OpRow.mk "TRIPENC" .tripenc .e 0x50000000#32 0xFF000000#32)
      else if c.toNat / 2 ^ 9 = 0x300000 then
        some (OpRow.mk "TRIPDEC" .tripdec .d 0x60000000#32 0xFFFFFE00#32)
      else if c.toNat / 2 ^ 16 = 0x7000 then
        some (OpRow.mk "CCSIG" .ccsig .p 0x70000000#32 0xFFFF0000#32)
      else if c.toNat / 2 ^ 24 = 0x80 then
        some (OpRow.mk "TEMP" .temp .t 0x80000000#32 0xFF000000#32)
      else if c.toNat / 2 ^ 16 = 0x9000 ∧ c.toNat % 2 ^ 8 = 0 then
        some (OpRow.mk "BALSEL" .balsel .s 0x90000000#32 0xFFFF00FF#32)
      else if c.toNat / 2 ^ 17 = 0x5000 then
        some (OpRow.mk "BALUPD" .balupd .u 0xA0000000#32 0xFFFE0000#32)
      else if c.toNat / 2 ^ 0 = 0xB0000000 then
        some (OpRow.mk "CLRFLT" .clrflt .n 0xB0000000#32 0xFFFFFFFF#32)
      else none := by
  unfold opcodeMap
  simp only [find?_cons_ite, List.find?_nil,
    nop_matches_iff, calld_matches_iff, pair_matches_iff, cellv_matches_iff,
    packv_matches_iff, tripenc_matches_iff,
    tripdec_matches_iff, ccsig_matches_iff, temp_matches_iff,
    balsel_matches_iff, balupd_matches_iff, clrflt_matches_iff]

/-- The decoder as one comparison per row, in numbers: everything it can answer. -/
theorem decode_eq (c : Word) :
    decode c =
      if c.toNat / 2 ^ 0 = 0x0 then .ok .nop
      else if c.toNat / 2 ^ 24 = 0x10 then .ok (.calld (fieldG1 c) (fieldG2 c) (fieldOT c))
      else if c.toNat / 2 ^ 16 = 0x2000 then .ok (.pair (fieldHI c) (fieldLO c))
      else if c.toNat / 2 ^ 16 = 0x3000 then .ok (.cellv (fieldHI c) (fieldLO c))
      else if c.toNat / 2 ^ 16 = 0x4000 then .ok (.packv (fieldHI c) (fieldLO c))
      else if c.toNat / 2 ^ 24 = 0x50 then .ok (.tripenc (fieldTGT c))
      else if c.toNat / 2 ^ 9 = 0x300000 then .ok (.tripdec (fieldK c) (fieldB c))
      else if c.toNat / 2 ^ 16 = 0x7000 then .ok (.ccsig (fieldHI c) (fieldLO c))
      else if c.toNat / 2 ^ 24 = 0x80 then .ok (.temp (fieldCH c) (fieldHI c) (fieldLO c))
      else if c.toNat / 2 ^ 16 = 0x9000 ∧ c.toNat % 2 ^ 8 = 0 then .ok (.balsel (fieldIDX c))
      else if c.toNat / 2 ^ 17 = 0x5000 then .ok (.balupd (fieldIDX c) (fieldEN c) (fieldOLD c))
      else if c.toNat / 2 ^ 0 = 0xB0000000 then .ok .clrflt
      else .error (if 0xC#4 ≤ fieldOP c then .reservedOpcode else .reservedBit) := by
  unfold decode
  rw [find_opcodeMap]
  by_cases hnop : c.toNat / 2 ^ 0 = 0x0
  · rw [if_pos hnop, if_pos hnop]; rfl
  rw [if_neg hnop, if_neg hnop]
  by_cases hcalld : c.toNat / 2 ^ 24 = 0x10
  · rw [if_pos hcalld, if_pos hcalld]; rfl
  rw [if_neg hcalld, if_neg hcalld]
  by_cases hpair : c.toNat / 2 ^ 16 = 0x2000
  · rw [if_pos hpair, if_pos hpair]; rfl
  rw [if_neg hpair, if_neg hpair]
  by_cases hcellv : c.toNat / 2 ^ 16 = 0x3000
  · rw [if_pos hcellv, if_pos hcellv]; rfl
  rw [if_neg hcellv, if_neg hcellv]
  by_cases hpackv : c.toNat / 2 ^ 16 = 0x4000
  · rw [if_pos hpackv, if_pos hpackv]; rfl
  rw [if_neg hpackv, if_neg hpackv]
  by_cases htripenc : c.toNat / 2 ^ 24 = 0x50
  · rw [if_pos htripenc, if_pos htripenc]; rfl
  rw [if_neg htripenc, if_neg htripenc]
  by_cases htripdec : c.toNat / 2 ^ 9 = 0x300000
  · rw [if_pos htripdec, if_pos htripdec]; rfl
  rw [if_neg htripdec, if_neg htripdec]
  by_cases hccsig : c.toNat / 2 ^ 16 = 0x7000
  · rw [if_pos hccsig, if_pos hccsig]; rfl
  rw [if_neg hccsig, if_neg hccsig]
  by_cases htemp : c.toNat / 2 ^ 24 = 0x80
  · rw [if_pos htemp, if_pos htemp]; rfl
  rw [if_neg htemp, if_neg htemp]
  by_cases hbalsel : c.toNat / 2 ^ 16 = 0x9000 ∧ c.toNat % 2 ^ 8 = 0
  · rw [if_pos hbalsel, if_pos hbalsel]; rfl
  rw [if_neg hbalsel, if_neg hbalsel]
  by_cases hbalupd : c.toNat / 2 ^ 17 = 0x5000
  · rw [if_pos hbalupd, if_pos hbalupd]; rfl
  rw [if_neg hbalupd, if_neg hbalupd]
  by_cases hclrflt : c.toNat / 2 ^ 0 = 0xB0000000
  · rw [if_pos hclrflt, if_pos hclrflt]; rfl
  rw [if_neg hclrflt, if_neg hclrflt]

/-- A legal word is one of the twelve, with the fields of its format. -/
theorem decode_ok_cases {c : Word} {i : Instr} (h : decode c = .ok i) :
    (c.toNat / 2 ^ 0 = 0x0 ∧ i = .nop) ∨
    (c.toNat / 2 ^ 24 = 0x10 ∧ i = .calld (fieldG1 c) (fieldG2 c) (fieldOT c)) ∨
    (c.toNat / 2 ^ 16 = 0x2000 ∧ i = .pair (fieldHI c) (fieldLO c)) ∨
    (c.toNat / 2 ^ 16 = 0x3000 ∧ i = .cellv (fieldHI c) (fieldLO c)) ∨
    (c.toNat / 2 ^ 16 = 0x4000 ∧ i = .packv (fieldHI c) (fieldLO c)) ∨
    (c.toNat / 2 ^ 24 = 0x50 ∧ i = .tripenc (fieldTGT c)) ∨
    (c.toNat / 2 ^ 9 = 0x300000 ∧ i = .tripdec (fieldK c) (fieldB c)) ∨
    (c.toNat / 2 ^ 16 = 0x7000 ∧ i = .ccsig (fieldHI c) (fieldLO c)) ∨
    (c.toNat / 2 ^ 24 = 0x80 ∧ i = .temp (fieldCH c) (fieldHI c) (fieldLO c)) ∨
    ((c.toNat / 2 ^ 16 = 0x9000 ∧ c.toNat % 2 ^ 8 = 0) ∧ i = .balsel (fieldIDX c)) ∨
    (c.toNat / 2 ^ 17 = 0x5000 ∧ i = .balupd (fieldIDX c) (fieldEN c) (fieldOLD c)) ∨
    (c.toNat / 2 ^ 0 = 0xB0000000 ∧ i = .clrflt) := by
  rw [decode_eq] at h
  by_cases hnop : c.toNat / 2 ^ 0 = 0x0
  · rw [if_pos hnop] at h
    injection h with h
    exact Or.inl ⟨hnop, h.symm⟩
  rw [if_neg hnop] at h
  right
  by_cases hcalld : c.toNat / 2 ^ 24 = 0x10
  · rw [if_pos hcalld] at h
    injection h with h
    exact Or.inl ⟨hcalld, h.symm⟩
  rw [if_neg hcalld] at h
  right
  by_cases hpair : c.toNat / 2 ^ 16 = 0x2000
  · rw [if_pos hpair] at h
    injection h with h
    exact Or.inl ⟨hpair, h.symm⟩
  rw [if_neg hpair] at h
  right
  by_cases hcellv : c.toNat / 2 ^ 16 = 0x3000
  · rw [if_pos hcellv] at h
    injection h with h
    exact Or.inl ⟨hcellv, h.symm⟩
  rw [if_neg hcellv] at h
  right
  by_cases hpackv : c.toNat / 2 ^ 16 = 0x4000
  · rw [if_pos hpackv] at h
    injection h with h
    exact Or.inl ⟨hpackv, h.symm⟩
  rw [if_neg hpackv] at h
  right
  by_cases htripenc : c.toNat / 2 ^ 24 = 0x50
  · rw [if_pos htripenc] at h
    injection h with h
    exact Or.inl ⟨htripenc, h.symm⟩
  rw [if_neg htripenc] at h
  right
  by_cases htripdec : c.toNat / 2 ^ 9 = 0x300000
  · rw [if_pos htripdec] at h
    injection h with h
    exact Or.inl ⟨htripdec, h.symm⟩
  rw [if_neg htripdec] at h
  right
  by_cases hccsig : c.toNat / 2 ^ 16 = 0x7000
  · rw [if_pos hccsig] at h
    injection h with h
    exact Or.inl ⟨hccsig, h.symm⟩
  rw [if_neg hccsig] at h
  right
  by_cases htemp : c.toNat / 2 ^ 24 = 0x80
  · rw [if_pos htemp] at h
    injection h with h
    exact Or.inl ⟨htemp, h.symm⟩
  rw [if_neg htemp] at h
  right
  by_cases hbalsel : (c.toNat / 2 ^ 16 = 0x9000 ∧ c.toNat % 2 ^ 8 = 0)
  · rw [if_pos hbalsel] at h
    injection h with h
    exact Or.inl ⟨hbalsel, h.symm⟩
  rw [if_neg hbalsel] at h
  right
  by_cases hbalupd : c.toNat / 2 ^ 17 = 0x5000
  · rw [if_pos hbalupd] at h
    injection h with h
    exact Or.inl ⟨hbalupd, h.symm⟩
  rw [if_neg hbalupd] at h
  right
  by_cases hclrflt : c.toNat / 2 ^ 0 = 0xB0000000
  · rw [if_pos hclrflt] at h
    injection h with h
    exact ⟨hclrflt, h.symm⟩
  rw [if_neg hclrflt] at h
  cases h

/-- A word that is none of the twelve is illegal. -/
theorem decode_error_of_none {c : Word} (h : ∀ i, decode c ≠ .ok i) : ∃ e, decode c = .error e := by
  cases hd : decode c with
  | ok i => exact absurd hd (h i)
  | error e => exact ⟨e, rfl⟩

/-! ## Words as numbers -/

/-- Concatenation as arithmetic (00_scope.md R13). -/
theorem toNat_append_add {n m : Nat} (x : BitVec n) (y : BitVec m) :
    (x ++ y).toNat = x.toNat * 2 ^ m + y.toNat := by
  rw [BitVec.toNat_append, ← Nat.shiftLeft_add_eq_or_of_lt y.isLt, Nat.shiftLeft_eq]

/-- A field of a word as arithmetic (R13). -/
theorem toNat_field (c : Word) (lo len : Nat) :
    (c.extractLsb' lo len).toNat = c.toNat / 2 ^ lo % 2 ^ len := by
  rw [BitVec.extractLsb'_toNat, Nat.shiftRight_eq_div_pow]

/-- One bit of a word as arithmetic (R13). -/
theorem getLsbD_eq_decide (c : Word) (k : Nat) : c.getLsbD k = decide (c.toNat / 2 ^ k % 2 = 1) := by
  rw [BitVec.getLsbD, Nat.testBit_eq_decide_div_mod_eq]

end Sys2Proof
end

