-- ==== Sys2Proof/Laws/HostDuties.lean ====
section
/-! SUPPORT. What the host's bus transactions, commands and waits leave in each field, and everything the
shared steps of its procedures can do. -/

namespace Sys2Proof.Machine

/-! ## One masked bit -/

/-- Setting or clearing one bit writes that bit and keeps every other. -/
theorem withBit_getLsbD (old : Byte) (b : Fin 8) (v : Bool) (j : Nat) (hj : j < 8) :
    (withBit old b v).getLsbD j = if j = b.val then v else old.getLsbD j := by
  have key : ∀ b j : Fin 8, ∀ (v : Bool) (old : Byte),
      (withBit old b v).getLsbD j.val = if j.val = b.val then v else old.getLsbD j.val := by
    intro b j
    fin_cases b <;> fin_cases j <;> decide
  exact key b ⟨j, hj⟩ v old

/-- The two bits of a ship-mode pattern have two places. -/
theorem shipLower_ne_upper : shipLower ≠ Config.shipUpper := Fin.succAbove_ne _ _

/-- A bit of the byte that carries a pattern. -/
theorem ctrlByte_getLsbD (p : BitVec 2) (j : Nat) (hj : j < 8) :
    (ctrlByte p).getLsbD j =
      if j = shipLower.val then p.getLsbD 0
      else if j = Config.shipUpper.val then p.getLsbD 1
      else (Config.shipRest p).getLsbD j := by
  simp only [ctrlByte, withBit_getLsbD _ _ _ j hj]

/-! ## Commands -/

/-- Outside reset an issued command is its word's run (R11, R14). -/
theorem respond_issue_released {s : State} (h : s.resetAsserted = false) (c : Word) :
    respond (.issue c) s = runWord c s := by simp [respond, h]

theorem issue_of_next {i : Instr} {s t : State} (hr : s.resetAsserted = false)
    (h : runWord (encode i) s = .next t) : issue i s = t := by
  unfold issue; rw [respond_issue_released hr, h]

@[simp] theorem driverIssue_vsc (i d) : (Driver.issue i d).vsc = Machine.issue i d.vsc := rfl
@[simp] theorem driverIssue_regs (i d) : (Driver.issue i d).regs = d.regs := rfl
@[simp] theorem driverIssue_bus (i d) : (Driver.issue i d).bus = d.bus := rfl
@[simp] theorem driverIssue_now (i d) : (Driver.issue i d).now = d.now := rfl
@[simp] theorem driverIssue_category (i d) : (Driver.issue i d).category = d.category := rfl
@[simp] theorem driverIssue_validAfter (i d) : (Driver.issue i d).validAfter = d.validAfter := rfl
@[simp] theorem driverIssue_mode (i d) : (Driver.issue i d).mode = d.mode := rfl
@[simp] theorem driverIssue_interruptAttached (i d) :
    (Driver.issue i d).interruptAttached = d.interruptAttached := rfl

/-! ## Waits -/

@[simp] theorem wait_vsc (ms d) : (Driver.wait ms d).vsc = d.vsc := rfl
@[simp] theorem wait_regs (ms d) : (Driver.wait ms d).regs = d.regs := rfl
@[simp] theorem wait_bus (ms d) : (Driver.wait ms d).bus = d.bus := rfl
@[simp] theorem wait_now (ms d) : (Driver.wait ms d).now = d.now + ms := rfl
@[simp] theorem wait_mode (ms d) : (Driver.wait ms d).mode = d.mode := rfl
@[simp] theorem wait_interruptAttached (ms d) :
    (Driver.wait ms d).interruptAttached = d.interruptAttached := rfl

/-! ## Reading a byte -/

@[simp] theorem readByte_value (afe a d) : (readByte afe a d).1 = d.regsNext afe a := rfl
@[simp] theorem readByte_vsc (afe a d) : (readByte afe a d).2.vsc = d.vsc := rfl
@[simp] theorem readByte_regs (afe a d) : (readByte afe a d).2.regs = d.regsNext afe := rfl
@[simp] theorem readByte_bus (afe a d) :
    (readByte afe a d).2.bus = d.bus ++ [.read a (d.regsNext afe a)] := rfl
@[simp] theorem readByte_now (afe a d) : (readByte afe a d).2.now = d.now := rfl
@[simp] theorem readByte_category (afe a d) : (readByte afe a d).2.category = d.category := rfl
@[simp] theorem readByte_validAfter (afe a d) : (readByte afe a d).2.validAfter = d.validAfter := rfl
@[simp] theorem readByte_mode (afe a d) : (readByte afe a d).2.mode = d.mode := rfl
@[simp] theorem readByte_interruptAttached (afe a d) :
    (readByte afe a d).2.interruptAttached = d.interruptAttached := rfl

/-! ## Writing a byte -/

@[simp] theorem writeByte_vsc (afe a v d) : (writeByte afe a v d).vsc = d.vsc := rfl
@[simp] theorem writeByte_regs (afe a v d) :
    (writeByte afe a v d).regs = setReg a v (d.regsNext afe) := rfl
@[simp] theorem writeByte_bus (afe a v d) : (writeByte afe a v d).bus = d.bus ++ [.write a v] := rfl
@[simp] theorem writeByte_now (afe a v d) : (writeByte afe a v d).now = d.now := rfl
@[simp] theorem writeByte_category (afe a v d) : (writeByte afe a v d).category = d.category := rfl
@[simp] theorem writeByte_validAfter (afe a v d) : (writeByte afe a v d).validAfter = d.validAfter := rfl
@[simp] theorem writeByte_mode (afe a v d) : (writeByte afe a v d).mode = d.mode := rfl
@[simp] theorem writeByte_interruptAttached (afe a v d) :
    (writeByte afe a v d).interruptAttached = d.interruptAttached := rfl

@[simp] theorem setReg_same (a v regs) : setReg a v regs a = v := by simp [setReg]

theorem setReg_other {a x : Nat} (h : x ≠ a) (v regs) : setReg a v regs x = regs x := by
  simp [setReg, h]

theorem regsNext_of_quiet {afe : Afe} (h : afe.Quiet) (d : Driver) : d.regsNext afe = d.regs :=
  h _ _

/-! ## Reading a pair -/

/-- A pair is two reads back to back, at the given address and at the next one (R43). -/
theorem readPair_bus (afe : Afe) (a : Nat) (d : Driver) :
    (readPair afe a d).2.bus =
      d.bus ++ [.read a (readPair afe a d).1.1, .read (a + 1) (readPair afe a d).1.2] := by
  simp [readPair]

@[simp] theorem readPair_vsc (afe a d) : (readPair afe a d).2.vsc = d.vsc := rfl
@[simp] theorem readPair_mode (afe a d) : (readPair afe a d).2.mode = d.mode := rfl

/-! ## Ship mode -/

/-- In ship mode a procedure does nothing. -/
theorem unlessShip_ship {α : Type} {d : Driver} (h : d.mode = .ship) (p : Driver → α × Driver) :
    unlessShip p d = (none, d) := by simp [unlessShip, h]

/-- Outside ship mode a procedure runs. -/
theorem unlessShip_run {α : Type} {d : Driver} (h : d.mode ≠ .ship) (p : Driver → α × Driver) :
    unlessShip p d = (some (p d).1, (p d).2) := by simp [unlessShip, h]

/-! ## The procedures' parts -/

@[simp] theorem writeBit_vsc (afe b v d) : (writeBit afe b v d).vsc = d.vsc := rfl
@[simp] theorem writeBit_now (afe b v d) : (writeBit afe b v d).now = d.now := rfl
@[simp] theorem writeBit_mode (afe b v d) : (writeBit afe b v d).mode = d.mode := rfl

/-- A control bit's read-modify-write is two transactions on its register, and differs from what was read
in that bit alone. -/
theorem writeBit_bus (afe : Afe) (b : AfeBit) (v : Bool) (d : Driver) :
    ∃ new, (writeBit afe b v d).bus = d.bus ++
        [.read (Config.bitPlace b).address (d.regsNext afe (Config.bitPlace b).address),
         .write (Config.bitPlace b).address new] ∧
      ∀ j, j < 8 → new.getLsbD j = if j = (Config.bitPlace b).bit.val then v
        else (d.regsNext afe (Config.bitPlace b).address).getLsbD j :=
  ⟨_, by simp [writeBit], fun j hj => withBit_getLsbD _ _ _ j hj⟩

/-- Selecting a category does not concern the VSC. -/
@[simp] theorem selectCategory_vsc (afe ch d) : (selectCategory afe ch d).vsc = d.vsc := by
  unfold selectCategory; split <;> rfl

/-- After selecting a channel's category it is selected and its readings are valid. -/
theorem selectCategory_ready (afe : Afe) (ch : Channel) (d : Driver) :
    (selectCategory afe ch d).category = some ch.category ∧
      (selectCategory afe ch d).validAfter ≤ (selectCategory afe ch d).now := by
  refine ⟨?_, Nat.le_max_right _ _⟩
  unfold selectCategory
  split
  · assumption
  · rfl

end Sys2Proof.Machine
end

