-- ==== Sys2Proof/Laws/PerInstr.lean ====
section
/-! SUPPORT. Statements made per instruction: each command's word fits its row of the opcode table. -/

namespace Sys2Proof.Laws.EncodingFitsRow

/-- The mnemonic of a command's row of R65. -/
def mnemonicOf : Instr → String
  | .nop => "NOP"
  | .calld _ _ _ => "CALLD"
  | .pair _ _ => "PAIR"
  | .cellv _ _ => "CELLV"
  | .packv _ _ => "PACKV"
  | .tripenc _ => "TRIPENC"
  | .tripdec _ _ => "TRIPDEC"
  | .ccsig _ _ => "CCSIG"
  | .temp _ _ _ => "TEMP"
  | .balsel _ => "BALSEL"
  | .balupd _ _ _ => "BALUPD"
  | .clrflt => "CLRFLT"

/-- The command's word matches the row of its mnemonic: `OP` and every reserved bit are the row's
(30_encoding.md R65, R67). -/
def Statement (i : Instr) : Prop :=
  ∃ r ∈ opcodeMap, r.mnemonic = mnemonicOf i ∧ r.matches (encode i) = true

theorem nop : Statement .nop :=
  ⟨_, List.mem_of_getElem? (i := 0) rfl, rfl, by decide⟩

theorem calld (g1 g2 ot : Byte) : Statement (.calld g1 g2 ot) := by
  refine ⟨_, List.mem_of_getElem? (i := 1) rfl, rfl, (calld_matches_iff _).2 ?_⟩
  have := g1.isLt; have := g2.isLt; have := ot.isLt
  simp only [encode, toNat_append_add, BitVec.toNat_ofNat]; omega

theorem pair (hi lo : Byte) : Statement (.pair hi lo) := by
  refine ⟨_, List.mem_of_getElem? (i := 2) rfl, rfl, (pair_matches_iff _).2 ?_⟩
  have := hi.isLt; have := lo.isLt
  simp only [encode, toNat_append_add, BitVec.toNat_ofNat]; omega

theorem cellv (hi lo : Byte) : Statement (.cellv hi lo) := by
  refine ⟨_, List.mem_of_getElem? (i := 3) rfl, rfl, (cellv_matches_iff _).2 ?_⟩
  have := hi.isLt; have := lo.isLt
  simp only [encode, toNat_append_add, BitVec.toNat_ofNat]; omega

theorem packv (hi lo : Byte) : Statement (.packv hi lo) := by
  refine ⟨_, List.mem_of_getElem? (i := 4) rfl, rfl, (packv_matches_iff _).2 ?_⟩
  have := hi.isLt; have := lo.isLt
  simp only [encode, toNat_append_add, BitVec.toNat_ofNat]; omega

theorem tripenc (tgt : BitVec 24) : Statement (.tripenc tgt) := by
  refine ⟨_, List.mem_of_getElem? (i := 5) rfl, rfl, (tripenc_matches_iff _).2 ?_⟩
  have := tgt.isLt
  simp only [encode, toNat_append_add, BitVec.toNat_ofNat]; omega

theorem tripdec (k : TripKind) (b : Byte) : Statement (.tripdec k b) := by
  refine ⟨_, List.mem_of_getElem? (i := 6) rfl, rfl, (tripdec_matches_iff _).2 ?_⟩
  have := k.bit.isLt; have := b.isLt
  simp only [encode, toNat_append_add, BitVec.toNat_ofNat]; omega

theorem ccsig (hi lo : Byte) : Statement (.ccsig hi lo) := by
  refine ⟨_, List.mem_of_getElem? (i := 7) rfl, rfl, (ccsig_matches_iff _).2 ?_⟩
  have := hi.isLt; have := lo.isLt
  simp only [encode, toNat_append_add, BitVec.toNat_ofNat]; omega

theorem temp (ch hi lo : Byte) : Statement (.temp ch hi lo) := by
  refine ⟨_, List.mem_of_getElem? (i := 8) rfl, rfl, (temp_matches_iff _).2 ?_⟩
  have := ch.isLt; have := hi.isLt; have := lo.isLt
  simp only [encode, toNat_append_add, BitVec.toNat_ofNat]; omega

theorem balsel (idx : Byte) : Statement (.balsel idx) := by
  refine ⟨_, List.mem_of_getElem? (i := 9) rfl, rfl, (balsel_matches_iff _).2 ?_⟩
  have := idx.isLt
  simp only [encode, toNat_append_add, BitVec.toNat_ofNat]; omega

theorem balupd (idx : Byte) (en : Bool) (old : Byte) : Statement (.balupd idx en old) := by
  refine ⟨_, List.mem_of_getElem? (i := 10) rfl, rfl, (balupd_matches_iff _).2 ?_⟩
  have := idx.isLt; have := old.isLt; have := (BitVec.ofBool en).isLt
  simp only [encode, toNat_append_add, BitVec.toNat_ofNat]; omega

theorem clrflt : Statement .clrflt :=
  ⟨_, List.mem_of_getElem? (i := 11) rfl, rfl, by decide⟩

end Sys2Proof.Laws.EncodingFitsRow
end

