-- ==== Sys2Proof/Tests/Slice0.lean ====
section
/-! SUPPORT. The model's own tests: ill-formed statements refused, words written out from the encoding
tables (30_encoding.md R62, R65, R74), single steps from the vectors of 95_test_vectors.md (V numbers), and
for each obligation with hypotheses a witness that meets them. -/

namespace Sys2Proof.Tests

open Sys2Proof Sys2Proof.Machine

/-! ## Helpers -/

/-- The next state of an outcome. -/
def nextOf : Outcome → Option State
  | .next t => some t
  | .fault _ => none
  | .refused _ => none

/-- The outcome is a next state with the property. -/
def answers (o : Outcome) (p : State → Bool) : Bool :=
  match o with
  | .next t => p t
  | .fault _ => false
  | .refused _ => false

theorem of_answers {o : Outcome} {p : State → Bool} (h : answers o p = true) :
    ∃ t, o = .next t ∧ p t = true := by
  cases o with
  | next t => exact ⟨t, rfl, h⟩
  | fault r => cases r
  | refused r => exact absurd h (by simp [answers])

/-- One step on the word from `s`. -/
def stepOn (s : State) (w : Nat) : Option State := nextOf (step (s.withFetchWord 32 w))

/-- The state after `CALLD 0x00, 0xA0, 0x38`, with `RES` left 0: gain 370, offset +56. -/
def calibrated : State := { State.reset with gain := 370#9, offs := 0x38#8, status := 0x01#8 }

/-- Gain 396, offset -128 (the start of V29). -/
def lowOffset : State := { State.reset with gain := 396#9, offs := 0x80#8, status := 0x01#8 }

/-- Gain 396, offset +127 (the start of V33). -/
def highOffset : State := { State.reset with gain := 396#9, offs := 0x7F#8, status := 0x01#8 }

/-- Addresses for the AFE's registers, test data only: no two names share one. -/
def testBase : AfeReg → Nat
  | .gtrim1 => 0 | .gtrim2 => 1 | .otrim => 2 | .balA => 3 | .balB => 4 | .balC => 5
  | .timingCfg => 6 | .faultStat => 7 | .ovTrip => 8 | .uvTrip => 9 | .ctrl => 10
  | .vpackHi | .vpackLo => 12 | .ccHi | .ccLo => 14
  | .tsHi .one | .tsLo .one => 16 | .tsHi .two | .tsLo .two => 18 | .tsHi .three | .tsLo .three => 20
  | .vcellHi n | .vcellLo n => 32 + 2 * n.val

/-- An AFE that changes nothing on its own. -/
def quietAfe : Afe := { base := testBase, drift := fun _ regs => regs }

/-- An AFE whose every register reads zero. -/
def zeroAfe : Afe := { base := testBase, drift := fun _ _ _ => 0#8 }

/-- An AFE whose every register reads 1 from its tenth transaction on, and 0 before. -/
def readyAtTenth : Afe := { base := testBase, drift := fun n _ _ => if n < 9 then 0#8 else 1#8 }

/-- A host outside ship mode with the given VSC and an AFE that reads zero but for the two trip registers of
program P4 (95_test_vectors.md). -/
def driverOf (vsc : State) : Driver :=
  { vsc := vsc, regs := setReg 8 0xC7#8 (setReg 9 0x27#8 fun _ => 0#8), bus := [], now := 0,
    category := none, validAfter := 0, mode := .normal, interruptAttached := false,
    interruptFlag := false }

/-- The candidate table of 44_temperature.md R156, test data only. -/
def candidateLut : List Nat :=
  [329500, 247700, 188500, 144100, 111300, 86430, 67770, 53410, 42470] ++
  [33900, 27280, 22050, 17960, 14690, 12090, 10000, 8313]

/-! ## Well-formedness: an ill-formed statement for each check -/

theorem test_refuse_byte : assemble (.pair 256 0) = none := by decide
theorem test_refuse_signedByte_low : assemble (.calld 0 0 (-129)) = none := by decide
theorem test_refuse_signedByte_high : assemble (.calld 0 0 256) = none := by decide
theorem test_refuse_target : assemble (.tripenc 16777216) = none := by decide
theorem test_refuse_channel : assemble (.temp (.number 256) 0 0) = none := by decide
theorem test_refuse_bit : assemble (.balupd 7 2 0) = none := by decide
theorem test_refuse_raw : assemble (.cellvRaw 65536) = none := by decide
theorem test_refuse_volts : assemble (.tripencVolts 42700001 7) = none := by decide
theorem test_refuse_volts_range : assemble (.tripencVolts 16777216 6) = none := by decide

/-- R70: `ot` as a signed number. -/
theorem test_assemble_signed : assemble (.calld 0 0 (-128)) = some 0x10000080#32 := by decide

/-- R71: 4.27 V is 4270000 µV. -/
theorem test_assemble_volts : assemble (.tripencVolts 427 2) = some 0x504127B0#32 := by decide

/-- R71: a raw operand, V17. -/
theorem test_assemble_raw : assemble (.cellvRaw 0x1800) = some 0x30001800#32 := by decide

/-- R71: `TEMPI`, V72. -/
theorem test_assemble_tempi : assemble (.tempi 0x0C 0x45) = some 0x80000C45#32 := by decide

/-- R71: `BALCLR 13, 0x04`, V101. -/
theorem test_assemble_balclr : assemble (.balclr 13 4) = some 0xA0000D04#32 := by decide

/-! ## Decoding: words written out by the format tables of R62 -/

theorem test_decode_nop : decodeTableWord 32 0b00000000000000000000000000000000 = some .nop := by
  decide
/-- OP 0001, rsv 0000, G1 00001100, G2 11100000, OT 10000000. -/
theorem test_decode_calld : decodeTableWord 32 0b00010000000011001110000010000000
    = some (.calld 0x0C#8 0xE0#8 0x80#8) := by decide
/-- OP 0010, rsv twelve zeros, HI 00101100, LO 01111000. -/
theorem test_decode_pair : decodeTableWord 32 0b00100000000000000010110001111000
    = some (.pair 0x2C#8 0x78#8) := by decide
/-- OP 0011, HI 00011000, LO 00000000. -/
theorem test_decode_cellv : decodeTableWord 32 0b00110000000000000001100000000000
    = some (.cellv 0x18#8 0x00#8) := by decide
/-- OP 0100, HI 00111111, LO 11111111. -/
theorem test_decode_packv : decodeTableWord 32 0b01000000000000000011111111111111
    = some (.packv 0x3F#8 0xFF#8) := by decide
/-- OP 0101, rsv 0000, TGT 010000010010011110110000. -/
theorem test_decode_tripenc : decodeTableWord 32 0b01010000010000010010011110110000
    = some (.tripenc 4270000#24) := by decide
/-- OP 0110, rsv nineteen zeros, K 1, B 11000111. -/
theorem test_decode_tripdec_over : decodeTableWord 32 0b01100000000000000000000111000111
    = some (.tripdec .over 0xC7#8) := by decide
theorem test_decode_tripdec_under : decodeTableWord 32 0b01100000000000000000000000100111
    = some (.tripdec .under 0x27#8) := by decide
/-- OP 0111, HI 00010010, LO 00110100. -/
theorem test_decode_ccsig : decodeTableWord 32 0b01110000000000000001001000110100
    = some (.ccsig 0x12#8 0x34#8) := by decide
/-- OP 1000, rsv 0000, CH 00000001, HI 00010000, LO 11100000. -/
theorem test_decode_temp : decodeTableWord 32 0b10000000000000010001000011100000
    = some (.temp 1#8 0x10#8 0xE0#8) := by decide
/-- OP 1001, rsv twelve zeros, IDX 00000111, rsv eight zeros. -/
theorem test_decode_balsel : decodeTableWord 32 0b10010000000000000000011100000000
    = some (.balsel 7#8) := by decide
/-- OP 1010, rsv eleven zeros, EN 1, IDX 00000111, OLD 11111110. -/
theorem test_decode_balupd : decodeTableWord 32 0b10100000000000010000011111111110
    = some (.balupd 7#8 true 0xFE#8) := by decide
theorem test_decode_clrflt : decodeTableWord 32 0b10110000000000000000000000000000
    = some .clrflt := by decide

/-- One reserved bit in each format, and the reserved opcodes (V5, V16, V23, V28, V51, V54, V81, V104,
V109 to V113). -/
theorem test_decode_illegal :
    ([0x20010000, 0x18000000, 0x31001800, 0x40018000, 0x58000000, 0x60000200, 0x88000000,
      0x90000701, 0xA0020700, 0x00000001, 0xB0000001, 0xC0000000, 0xD0000000, 0xE0000000,
      0xFFFFFFFF].all fun w => decodeTableWord 32 w == none) = true := by decide

/-- The two reasons for a refusal. -/
theorem test_decode_reasons :
    decode 0x00000001#32 = .error .reservedBit ∧ decode 0xC0000000#32 = .error .reservedOpcode := by
  decide

/-! ## Single steps -/

/-- V106. -/
theorem test_nop : stepOn { calibrated with status := 0x33#8, ecmd := 0x30004000#32 } 0x00000000
    = some { calibrated with status := 0x03#8, ecmd := 0x30004000#32 } := by decide
/-- V107. -/
theorem test_clrflt :
    stepOn { calibrated with status := 0x63#8, ecmd := 0x505D5AC0#32 } 0xB0000000
      = some { calibrated with status := 0x01#8, ecmd := 0x505D5AC0#32 } := by decide
/-- V110: the sticky fault ends 1. -/
theorem test_clrflt_illegal : stepOn State.reset 0xB0000001
    = some { State.reset with status := 0x12#8, ecmd := 0xB0000001#32 } := by decide
/-- V12. -/
theorem test_calld : stepOn State.reset 0x1000A038 = some { calibrated with res := 5#32 } := by
  decide
/-- V9: every ignored bit is 1. -/
theorem test_calld_ignored : stepOn State.reset 0x10F31F00
    = some { State.reset with gain := 365#9, status := 0x01#8 } := by decide
/-- V2. -/
theorem test_pair : stepOn State.reset 0x2000FFFF
    = some { State.reset with res := 0x0000FFFF#32 } := by decide
/-- V17. -/
theorem test_cellv : stepOn calibrated 0x30001800
    = some { calibrated with res := 0x00238AC0#32 } := by decide
/-- V35, the least result. -/
theorem test_cellv_negative : stepOn { calibrated with gain := 365#9, offs := 0x80#8 } 0x30000001
    = some { calibrated with gain := 365#9, offs := 0x80#8, res := 0xFFFE0D6D#32 } := by decide
/-- V25 and V24, at five cells. -/
theorem test_packv : packvResult 5 0x18#8 0x00#8 calibrated = .ok ⟨0x008F05C0#32, 0#16⟩ ∧
    packvResult 5 0x00#8 0x00#8 calibrated = .ok ⟨0x000445C0#32, 0#16⟩ := by decide
/-- V27. -/
theorem test_packv_raw14 : stepOn calibrated 0x40004000
    = some { calibrated with status := 0x33#8, ecmd := 0x40004000#32 } := by decide
/-- V43. -/
theorem test_tripenc : stepOn calibrated 0x504127B0
    = some { calibrated with res := 0xC7#32, aux := 0x2C7D#16 } := by decide
/-- V47 and V48: the quotient is truncated, not floored. -/
theorem test_tripenc_truncates : stepOn calibrated 0x5000D94F = some calibrated ∧
    stepOn calibrated 0x5000D94E
      = some { calibrated with status := 0x63#8, ecmd := 0x5000D94E#32 } := by decide
/-- V52. -/
theorem test_tripdec_over : stepOn calibrated 0x600001C7
    = some { calibrated with res := 0x00412030#32, aux := 0x2C78#16 } := by decide
/-- V53. -/
theorem test_tripdec_under : stepOn calibrated 0x60000027
    = some { calibrated with res := 0x001B80A0#32, aux := 0x1270#16 } := by decide
/-- V68. -/
theorem test_ccsig_least : stepOn State.reset 0x70008000
    = some { State.reset with res := 0xFE5A0000#32 } := by decide
/-- V70. -/
theorem test_ccsig : stepOn State.reset 0x70001234
    = some { State.reset with res := 0x003C0370#32 } := by decide
/-- V76: toward zero. -/
theorem test_temp_internal : stepOn State.reset 0x80003FFF
    = some { State.reset with res := 0xFFEE0122#32 } := by decide
/-- V83 to V90 with the candidate table: the ends of rows 16, 15 and 0 and both regions without a
row. -/
theorem test_temp_external :
    tempResult candidateLut 1#8 0x0F#8 0x51#8 = .error .lut ∧
    tempResult candidateLut 1#8 0x0F#8 0x52#8 = .ok ⟨0x00007530#32, 16#16⟩ ∧
    tempResult candidateLut 2#8 0x10#8 0xE0#8 = .ok ⟨0x000061A8#32, 15#16⟩ ∧
    tempResult candidateLut 3#8 0x21#8 0xBE#8 = .ok ⟨0xFFFF3CB0#32, 0#16⟩ ∧
    tempResult candidateLut 1#8 0x21#8 0xBF#8 = .error .lut := by decide
/-- The table of R170 at both ends of each range. -/
theorem test_balsel :
    ([1, 5, 6, 10, 11, 15].map fun i => balselResult (BitVec.ofNat 8 i)) =
      [.ok ⟨0x02#32, 0#16⟩, .ok ⟨0x20#32, 0#16⟩, .ok ⟨0x01#32, 1#16⟩, .ok ⟨0x10#32, 1#16⟩,
       .ok ⟨0x01#32, 2#16⟩, .ok ⟨0x10#32, 2#16⟩] := by decide
theorem test_balsel_invalid : stepOn State.reset 0x90001000
    = some { State.reset with status := 0x42#8, ecmd := 0x90001000#32 } := by decide
/-- V99. -/
theorem test_balupd_set : stepOn State.reset 0xA00101C1
    = some { State.reset with res := 0xC3#32 } := by decide
/-- V96. -/
theorem test_balupd_clear : stepOn State.reset 0xA00007FF
    = some { State.reset with res := 0xFD#32, aux := 1#16 } := by decide
/-- Program P4: by bytes neither trip register is written, by voltages the overvoltage one is not and the
undervoltage one never converges. -/
theorem test_convergeTrips :
    (convergeTrips quietAfe .bytes (driverOf calibrated)).uv = .unchanged ∧
    (convergeTrips quietAfe .bytes (driverOf calibrated)).ov = .unchanged ∧
    (convergeTrips quietAfe .bytes (driverOf calibrated)).driver.bus
      = [.read 9 0x27#8, .read 8 0xC7#8] ∧
    (convergeTrips quietAfe .voltages (driverOf calibrated)).uv = .notConverged ∧
    (convergeTrips quietAfe .voltages (driverOf calibrated)).ov = .unchanged := by decide

/-- Program P2, its first write and its refused index; and R235: in ship mode no transaction. -/
theorem test_setBalancing :
    (setBalancing quietAfe 7#8 true (driverOf State.reset)).2.bus
      = [.read 4 0x00#8, .write 4 0x02#8] ∧
    (setBalancing quietAfe 16#8 true (driverOf State.reset)).2.bus = [] ∧
    (setBalancing quietAfe 7#8 true { driverOf State.reset with mode := .ship }).2.bus = [] := by
  decide

/-- R43: the low byte of a pair is at the next address. -/
theorem test_measurePair :
    (measurePair quietAfe (.vcell 0) .cellv (driverOf calibrated)).2.bus
      = [.read 32 0x00#8, .read 33 0x00#8] := by decide

/-- V40, V42, V80: the order of R203. -/
theorem test_priority :
    stepOn State.reset 0x30004000
      = some { State.reset with status := 0x22#8, ecmd := 0x30004000#32 } ∧
    stepOn State.reset 0x3F004000
      = some { State.reset with status := 0x12#8, ecmd := 0x3F004000#32 } ∧
    stepOn State.reset 0x80044000
      = some { State.reset with status := 0x42#8, ecmd := 0x80044000#32 } := by decide

/-! ## Witnesses: hypotheses of the obligations that can be met, at boundary values -/

theorem witness_EncodeOfDecode : decode 0xA0010700#32 = .ok (.balupd 7#8 true 0x00#8) := by decide

theorem witness_DecodeFollowsOpcodeMap_fields :
    (0xA001FFFF#32 : Word) &&& 0xFFFE0000#32 = 0xA0000000#32 ∧
    (0x600001FF#32 : Word) &&& 0xFFFFFE00#32 = 0x60000000#32 ∧
    (0x10FFFFFF#32 : Word) &&& 0xFF000000#32 = 0x10000000#32 ∧
    (0x9000FF00#32 : Word) &&& 0xFFFF00FF#32 = 0x90000000#32 := by decide

theorem witness_DecodeFollowsOpcodeMap :
    (∃ r ∈ opcodeMap, r.matches 0x90000F00#32 = true) ∧
    (∀ r ∈ opcodeMap, r.matches 0x900000FF#32 = false) ∧
    decode 0x90000F00#32 = .ok (.balsel 15#8) := by decide

theorem witness_LegalWordIffReservedBitsZero :
    FormatLegal 0xB0000000#32 ∧ ¬ FormatLegal 0xB0000001#32 ∧ ¬ FormatLegal 0xC0000000#32 := by
  refine ⟨?_, ?_, ?_⟩ <;> dsimp only [FormatLegal] <;> decide

theorem witness_ReservedOpcodeEndsInEIll :
    0xC ≤ ((0xC0000000#32 : Word).extractLsb' 28 4).toNat ∧
      0xC ≤ ((0xFFFFFFFF#32 : Word).extractLsb' 28 4).toNat := by decide

theorem witness_AssemblerEmitsLegalWords :
    assemble (.tripenc 16777215) = some 0x50FFFFFF#32 ∧ 427 * 1000000 = 4270000 * 10 ^ 2 ∧
    ¬ 10 ^ 7 ∣ 42700001 * 1000000 := by decide

theorem witness_StepRunsDecodedCommand :
    (calibrated.withFetchWord 32 0x30001800).hostActions = [.issue 0x30001800#32] ∧
    (calibrated.withFetchWord 32 0x30001800).resetAsserted = false ∧
    decode 0x30001800#32 = .ok (.cellv 0x18#8 0x00#8) := by decide

theorem witness_StepEndsIllegalWordInEIll :
    (calibrated.withFetchWord 32 0xC0000000).hostActions = [.issue 0xC0000000#32] ∧
    (calibrated.withFetchWord 32 0xC0000000).resetAsserted = false ∧
    ¬ FormatLegal 0xC0000000#32 := by
  refine ⟨by decide, by decide, ?_⟩
  dsimp only [FormatLegal]; decide

theorem witness_IdleStepChangesNothing :
    calibrated.hostActions = [] ∧ calibrated.resetAsserted = false := by decide

theorem witness_HostSequenceRunsWordByWord :
    calibrated.resetAsserted = false ∧ calibrated.hostActions = [] ∧
      RunsTo [0x00000000#32, 0xB0000000#32] calibrated calibrated :=
  ⟨rfl, rfl, calibrated, rfl, calibrated, rfl, rfl⟩

theorem witness_ResetInputClearsRegisters :
    ({ calibrated with hostActions := [.assertReset] } : State).hostActions = [.assertReset] ∧
    ({ State.reset with resetAsserted := true, hostActions := [.issue 0#32] } : State).hostActions
      = [.issue 0#32] ∧
    ({ State.reset with resetAsserted := true, hostActions := [.releaseReset] } : State).hostActions
      = [.releaseReset] ∧
    ({ State.reset with resetAsserted := true } : State).resetAsserted = true := by decide

/-- The reserved-bit clause of NopWritesOnlyErr, CalldLoadsCalibration, PairCombinesBytes, CellvConverts,
PackvConverts and TripencEncodes: the `OP` with the lowest or the highest reserved bit at 1. -/
theorem witness_reserved_bits :
    (0x00000001#32 : Word).extractLsb' 28 4 = 0x0#4 ∧ (0x00000001#32 : Word).extractLsb' 0 28 ≠ 0#28 ∧
    (0x18000000#32 : Word).extractLsb' 28 4 = 0x1#4 ∧ (0x18000000#32 : Word).extractLsb' 24 4 ≠ 0#4 ∧
    (0x20010000#32 : Word).extractLsb' 28 4 = 0x2#4 ∧ (0x20010000#32 : Word).extractLsb' 16 12 ≠ 0#12 ∧
    (0x38000000#32 : Word).extractLsb' 28 4 = 0x3#4 ∧ (0x38000000#32 : Word).extractLsb' 16 12 ≠ 0#12 ∧
    (0x40010000#32 : Word).extractLsb' 28 4 = 0x4#4 ∧ (0x40010000#32 : Word).extractLsb' 16 12 ≠ 0#12 ∧
    (0x51000000#32 : Word).extractLsb' 28 4 = 0x5#4 ∧ (0x51000000#32 : Word).extractLsb' 24 4 ≠ 0#4 := by
  decide

/-- The reserved-bit clause of TripdecDecodes, CcsigScalesSignedField, TempOperandErrors, BalselMapsCell,
BalupdWritesOneBit and ClrfltClearsFlt. -/
theorem witness_reserved_bits_2 :
    (0x60000200#32 : Word).extractLsb' 28 4 = 0x6#4 ∧ (0x60000200#32 : Word).extractLsb' 9 19 ≠ 0#19 ∧
    (0x78000000#32 : Word).extractLsb' 28 4 = 0x7#4 ∧ (0x78000000#32 : Word).extractLsb' 16 12 ≠ 0#12 ∧
    (0x81000000#32 : Word).extractLsb' 28 4 = 0x8#4 ∧ (0x81000000#32 : Word).extractLsb' 24 4 ≠ 0#4 ∧
    (0x90000701#32 : Word).extractLsb' 28 4 = 0x9#4 ∧ (0x90000701#32 : Word).extractLsb' 0 8 ≠ 0#8 ∧
    (0x90010700#32 : Word).extractLsb' 16 12 ≠ 0#12 ∧
    (0xA0020700#32 : Word).extractLsb' 28 4 = 0xA#4 ∧ (0xA0020700#32 : Word).extractLsb' 17 11 ≠ 0#11 ∧
    (0xB0000001#32 : Word).extractLsb' 28 4 = 0xB#4 ∧ (0xB0000001#32 : Word).extractLsb' 0 28 ≠ 0#28 := by
  decide

theorem witness_CalldLaws :
    (∃ t, exec (.calld 0x0C#8 0xE0#8 0x80#8) State.reset = .next t ∧ t.gain = 396#9) ∧
    gainTrim 0xF3#8 0x1F#8 = gainTrim 0#8 0#8 := by
  refine ⟨?_, by decide⟩
  obtain ⟨t, h, hp⟩ := of_answers (o := exec (.calld 0x0C#8 0xE0#8 0x80#8) State.reset)
    (p := fun t => t.gain == 396#9) (by decide)
  exact ⟨t, h, by simpa using hp⟩

theorem witness_CalibrationWrittenOnlyByCalld :
    (∃ t, runWord 0x1000A038#32 State.reset = .next t ∧
      (t.gain ≠ State.reset.gain ∧ t.offs ≠ State.reset.offs ∧ t.calv ≠ State.reset.calv)) ∧
    (∃ t, step { calibrated with hostActions := [.assertReset] } = .next t ∧
      calibrated.calv = true ∧ t.calv = false) := by
  constructor
  · obtain ⟨t, h, hp⟩ := of_answers (o := runWord 0x1000A038#32 State.reset)
      (p := fun t => t.gain != State.reset.gain && t.offs != State.reset.offs &&
        t.calv != State.reset.calv) (by decide)
    exact ⟨t, h, by simpa [and_assoc] using hp⟩
  · exact ⟨_, rfl, by decide, by decide⟩

theorem witness_CcsigLaws :
    (rawNat 0x00#8 0x01#8 + rawNat 0xFF#8 0xFF#8) % 65536 = 0 ∧ rawNat 0x00#8 0x01#8 ≠ 32768 ∧
    (rawNat 0x80#8 0x01#8 + rawNat 0x7F#8 0xFF#8) % 65536 = 0 ∧
    (0x70008000#32 : Word).extractLsb' 28 4 = 0x7#4 ∧
    (∃ t, exec (.ccsig 0x00#8 0x01#8) State.reset = .next t) ∧
    (∃ t, exec (.ccsig 0xFF#8 0xFF#8) State.reset = .next t) :=
  ⟨by decide, by decide, by decide, by decide, ⟨_, rfl⟩, ⟨_, rfl⟩⟩

theorem witness_CellvConverts :
    calibrated.calv = true ∧ rawNat 0x00#8 0x00#8 ≤ 0x3FFF ∧ rawNat 0x3F#8 0xFF#8 ≤ 0x3FFF ∧
    0x3FFF < rawNat 0x40#8 0x00#8 ∧ State.reset.calv = false := by decide

/-- V35 and V33: the range clause at its two ends, CELLV's least and greatest result. -/
theorem witness_CellvConverts_range :
    answers (exec (.cellv 0x00#8 0x01#8) { lowOffset with gain := 365#9 })
      (fun t => t.err == 0#4 && t.res.toInt == -127635) = true ∧
    answers (exec (.cellv 0x3F#8 0xFF#8) highOffset)
      (fun t => t.err == 0#4 && t.res.toInt == 6614668) = true ∧
    365 ≤ highOffset.gain.toNat ∧ highOffset.gain.toNat ≤ 396 := by decide

/-- PACKV succeeds on a zero field, whatever `NUM_CELLS` is. -/
theorem witness_PackvConverts_range :
    ∃ t, exec (.packv 0x00#8 0x00#8) highOffset = .next t ∧ t.err = 0#4 :=
  ⟨_, rfl, succeed_err _⟩

theorem witness_PackvConverts :
    highOffset.calv = true ∧ rawNat 0x3F#8 0xFF#8 ≤ 0x3FFF ∧ 0x3FFF < rawNat 0xFF#8 0xFF#8 ∧
    State.reset.calv = false := by decide

/-- V49 and V45 succeed, V50 and V48 are out of range. -/
theorem witness_TripencEncodes :
    calibrated.calv = true ∧ calibrated.gain ≠ 0#9 ∧
    Int.tdiv ((6118079#24 : BitVec 24).toNat - 1000 * calibrated.offs.toInt) calibrated.gain.toNat
      = (16383 : Nat) ∧
    Int.tdiv ((56000#24 : BitVec 24).toNat - 1000 * calibrated.offs.toInt) calibrated.gain.toNat
      = (0 : Nat) ∧
    16383 < Int.tdiv ((6118080#24 : BitVec 24).toNat - 1000 * calibrated.offs.toInt)
      calibrated.gain.toNat ∧
    Int.tdiv ((55630#24 : BitVec 24).toNat - 1000 * calibrated.offs.toInt) calibrated.gain.toNat < 0 ∧
    State.reset.calv = false := by decide

/-- V63 and V61 are the ends of the range clause. -/
theorem witness_TripdecDecodes : calibrated.calv = true ∧ State.reset.calv = false ∧
    answers (exec (.tripdec .under 0x00#8) { lowOffset with gain := 365#9 })
      (fun t => t.res.toInt == 1367040) = true ∧
    answers (exec (.tripdec .over 0xFF#8) highOffset) (fun t => t.res.toInt == 4989880) = true := by
  decide

theorem witness_TripRegisterRoundTrip :
    highOffset.calv = true ∧ 365 ≤ highOffset.gain.toNat ∧ highOffset.gain.toNat ≤ 396 := by decide

/-- Scenario B for the overvoltage kind (V43), and a gain and offset for which 3.32 V has the
undervoltage prefix (90_conflicts.md C7). -/
theorem witness_TripVoltageWithinOneStep :
    (∃ t u, exec (.tripenc 4270000#24) calibrated = .next t ∧ t.err = 0#4 ∧
      t.aux.extractLsb' 12 2 = tripPrefix .over ∧
      exec (.tripdec .over (t.res.setWidth 8)) t = .next u) ∧
    (∃ t u, exec (.tripenc 3320000#24) highOffset = .next t ∧ t.err = 0#4 ∧
      t.aux.extractLsb' 12 2 = tripPrefix .under ∧
      exec (.tripdec .under (t.res.setWidth 8)) t = .next u) := by
  constructor
  · obtain ⟨t, h, hp⟩ := of_answers (o := exec (.tripenc 4270000#24) calibrated)
      (p := fun t => t.err == 0#4 && t.aux.extractLsb' 12 2 == tripPrefix .over) (by decide)
    obtain ⟨u, hu⟩ := complete_next (encode (.tripdec .over (t.res.setWidth 8)))
      (tripdecResult .over (t.res.setWidth 8) t) t
    rw [Bool.and_eq_true, beq_iff_eq, beq_iff_eq] at hp
    exact ⟨t, u, h, hp.1, hp.2, hu⟩
  · obtain ⟨t, h, hp⟩ := of_answers (o := exec (.tripenc 3320000#24) highOffset)
      (p := fun t => t.err == 0#4 && t.aux.extractLsb' 12 2 == tripPrefix .under) (by decide)
    obtain ⟨u, hu⟩ := complete_next (encode (.tripdec .under (t.res.setWidth 8)))
      (tripdecResult .under (t.res.setWidth 8) t) t
    rw [Bool.and_eq_true, beq_iff_eq, beq_iff_eq] at hp
    exact ⟨t, u, h, hp.1, hp.2, hu⟩

/-- The mismatched prefix: 3.32 V at gain 370 and offset +56 has the overvoltage prefix (V44), and its byte
decoded as an undervoltage one is 1.8024 V (V53). -/
theorem witness_TripVoltageWithinOneStep_mismatch :
    ∃ t u, exec (.tripenc 3320000#24) calibrated = .next t ∧ t.err = 0#4 ∧
      t.aux.extractLsb' 12 2 ≠ tripPrefix .under ∧
      exec (.tripdec .under (t.res.setWidth 8)) t = .next u ∧ u.res.toInt = 1802400 := by
  obtain ⟨t, h, hp⟩ := of_answers (o := exec (.tripenc 3320000#24) calibrated)
    (p := fun t => t.err == 0#4 && t.aux.extractLsb' 12 2 != tripPrefix .under &&
      answers (exec (.tripdec .under (t.res.setWidth 8)) t) (fun u => u.res.toInt == 1802400))
    (by decide)
  simp only [Bool.and_eq_true, beq_iff_eq, bne_iff_ne] at hp
  obtain ⟨u, hu, hv⟩ := of_answers hp.2
  exact ⟨t, u, h, hp.1.1, hp.1.2, hu, by simpa using hv⟩

theorem witness_TempInternalFormula :
    rawNat 0x00#8 0x00#8 ≤ 0x3FFF ∧ rawNat 0x3F#8 0xFF#8 ≤ 0x3FFF ∧ (3416 : Nat) ≤ 3417 := by decide

theorem witness_TempExternalFirstRow :
    1 ≤ (1#8 : Byte).toNat ∧ (3#8 : Byte).toNat ≤ 3 ∧ 3922 ≤ rawNat 0x0F#8 0x52#8 ∧
    rawNat 0x21#8 0xBE#8 ≤ 8638 ∧ rawNat 0x0F#8 0x52#8 = 3922 ∧ rawNat 0x21#8 0xBE#8 = 8638 := by
  decide

theorem witness_TempExternalNoEntry :
    1 ≤ (1#8 : Byte).toNat ∧ (1#8 : Byte).toNat ≤ 3 ∧ rawNat 0x0F#8 0x51#8 = 3921 ∧
    rawNat 0x21#8 0xBF#8 = 8639 ∧ rawNat 0x3F#8 0xFF#8 = 0x3FFF := by decide

theorem witness_TempOperandErrors :
    3 < (4#8 : Byte).toNat ∧ (3#8 : Byte).toNat ≤ 3 ∧ 0x3FFF < rawNat 0x40#8 0x00#8 := by decide

/-- The first and the last reading with a row succeed on an external channel for every table. -/
theorem witness_ThermistorMonotone :
    1 ≤ (1#8 : Byte).toNat ∧ rawNat 0x0F#8 0x52#8 ≤ rawNat 0x21#8 0xBE#8 ∧
    (∃ t, exec (.temp 1#8 0x0F#8 0x52#8) State.reset = .next t ∧ t.err = 0#4) ∧
    (∃ t, exec (.temp 1#8 0x21#8 0xBE#8) State.reset = .next t ∧ t.err = 0#4) := by
  have run : ∀ hi lo : Byte, rawNat hi lo ≤ 16383 → 0 < dividerDen (rawNat hi lo) →
      exceeds (rawNat hi lo) 8313 = true →
      ∃ t, exec (.temp 1#8 hi lo) State.reset = .next t ∧ t.err = 0#4 := by
    intro hi lo h14 hden hex
    obtain ⟨i, hrow⟩ := lutRow_exists hden hex
    refine ⟨succeed (writeResult (Result.store ((-50 + 5 * i) * 1000) i) State.reset), ?_,
      succeed_err _⟩
    have hch : channelOf 1#8 = some .external1 := by decide
    rw [exec, execTemp, tempResult, hch, raw14_eq, if_pos h14]
    simp only [channelResult, externalResult, hrow, complete_ok]
  exact ⟨by decide, by decide, run _ _ (by decide) (by decide) (by decide),
    run _ _ (by decide) (by decide) (by decide)⟩

theorem witness_ExternalChannelsConvertAlike :
    1 ≤ (1#8 : Byte).toNat ∧ (3#8 : Byte).toNat ≤ 3 ∧
    (∃ t, exec (.temp 1#8 0x10#8 0xE0#8) State.reset = .next t) ∧
    (∃ t, exec (.temp 3#8 0x10#8 0xE0#8) State.reset = .next t) := by
  have run : ∀ ch : Byte, ∃ t, exec (.temp ch 0x10#8 0xE0#8) State.reset = .next t := by
    intro ch
    rw [exec, execTemp]; exact complete_next _ _ _
  exact ⟨by decide, by decide, run _, run _⟩

theorem witness_BalselMapsCell :
    1 ≤ (1#8 : Byte).toNat ∧ (15#8 : Byte).toNat ≤ 15 ∧ (0#8 : Byte).toNat = 0 ∧
    16 ≤ (16#8 : Byte).toNat ∧ 16 ≤ (255#8 : Byte).toNat := by decide

/-- BALUPD's operands are BALSEL's; its old image has another cell's bit set. -/
theorem witness_BalupdWritesOneBit :
    1 ≤ (5#8 : Byte).toNat ∧ (5#8 : Byte).toNat ≤ 15 ∧ (16#8 : Byte).toNat = 16 ∧
    (1 : Nat) ≠ cellBit 5#8 ∧ (0xC1#8 : Byte).getLsbD 0 = true := by decide

theorem witness_BalancingIsolation :
    (∃ t, exec (.balsel 7#8) State.reset = .next t ∧ t.err = 0#4) ∧
    (∀ t, ∃ u, exec (.balupd 7#8 true 0x08#8) t = .next u) := by
  refine ⟨?_, fun t => by rw [exec, execBalupd]; exact complete_next _ _ _⟩
  obtain ⟨t, h, hp⟩ := of_answers (o := exec (.balsel 7#8) State.reset)
    (p := fun t => t.err == 0#4) (by decide)
  exact ⟨t, h, by simpa using hp⟩

theorem witness_BalselIsBalupdOnEmptyImage :
    1 ≤ (6#8 : Byte).toNat ∧ (6#8 : Byte).toNat ≤ 15 ∧
    (∃ t, exec (.balsel 6#8) State.reset = .next t) ∧
    (∃ t, exec (.balupd 6#8 true 0x00#8) State.reset = .next t) :=
  ⟨by decide, by decide, by rw [exec, execBalsel]; exact complete_next _ _ _,
    by rw [exec, execBalupd]; exact complete_next _ _ _⟩

/-- A word for each branch of the order: illegal, uncalibrated, bad channel, wide raw, out of range, and
success. -/
theorem witness_ErrorPriority :
    (∃ t, runWord 0x3F004000#32 State.reset = .next t ∧ t.err = 1#4) ∧
    (∃ t, runWord 0x30004000#32 State.reset = .next t ∧ t.err = 2#4) ∧
    (∃ t, runWord 0x80044000#32 State.reset = .next t ∧ t.err = 4#4) ∧
    (∃ t, runWord 0x80004000#32 State.reset = .next t ∧ t.err = 3#4) ∧
    (∃ t, runWord 0x505D5AC0#32 calibrated = .next t ∧ t.err = 6#4) ∧
    (∃ t, runWord 0x00000000#32 State.reset = .next t ∧ t.err = 0#4) := by
  have run : ∀ (c : Word) (s : State) (e : BitVec 4),
      answers (runWord c s) (fun t => t.err == e) = true →
      ∃ t, runWord c s = .next t ∧ t.err = e := by
    intro c s e h
    obtain ⟨t, ht, hp⟩ := of_answers h
    exact ⟨t, ht, by simpa using hp⟩
  exact ⟨run _ _ _ (by decide), run _ _ _ (by decide), run _ _ _ (by decide),
    run _ _ _ (by decide), run _ _ _ (by decide), run _ _ _ (by decide)⟩

/-- A run of two words with an error in it and no CLRFLT, and one with a CLRFLT before its last error. -/
theorem witness_CleanRunIffNoError :
    (RunsTo [0xC0000000#32, 0xB0000000#32, 0xC0000000#32] State.reset
      (raise .ill 0xC0000000#32 (succeed (clearFault (raise .ill 0xC0000000#32 State.reset)))) ∧
     ErrsAt [0xC0000000#32, 0xB0000000#32, 0xC0000000#32] State.reset [0xC0000000#32, 0xB0000000#32]
      0xC0000000#32 []) ∧
    RunsTo [0xC0000000#32, 0x00000000#32] State.reset
      (succeed (raise .ill 0xC0000000#32 State.reset)) ∧
    0xB0000000#32 ∉ [0xC0000000#32, 0x00000000#32] :=
  ⟨⟨⟨_, rfl, _, rfl, _, rfl, rfl⟩, rfl, _, _, ⟨_, rfl, _, rfl, rfl⟩, rfl, by decide⟩,
    ⟨_, rfl, _, rfl, rfl⟩, by decide⟩

theorem witness_ErrorIsPrecise :
    ∃ t, runWord 0x30004000#32 calibrated = .next t ∧ t.err ≠ 0#4 := by
  obtain ⟨t, h, hp⟩ := of_answers (o := runWord 0x30004000#32 calibrated)
    (p := fun t => t.err != 0#4) (by decide)
  exact ⟨t, h, by simpa using hp⟩

theorem witness_SuccessKeepsFaultRecord :
    (∃ t, runWord 0xB0000000#32 State.reset = .next t ∧ t.err = 0#4 ∧
      decode 0xB0000000#32 = .ok .clrflt) ∧
    (∃ t, runWord 0x70008000#32 State.reset = .next t ∧ t.err = 0#4 ∧
      decode 0x70008000#32 ≠ .ok .clrflt) := by
  constructor
  · obtain ⟨t, h, hp⟩ := of_answers (o := runWord 0xB0000000#32 State.reset)
      (p := fun t => t.err == 0#4) (by decide)
    exact ⟨t, h, by simpa using hp, by decide⟩
  · obtain ⟨t, h, hp⟩ := of_answers (o := runWord 0x70008000#32 State.reset)
      (p := fun t => t.err == 0#4) (by decide)
    exact ⟨t, h, by simpa using hp, by decide⟩

/-- Two states that agree on the calibration and differ in everything a command does not read. -/
theorem witness_ResultsIgnoreEarlierResults :
    let s' : State := { calibrated with res := 7#32, aux := 9#16, status := 0x33#8, ecmd := 1#32 }
    calibrated.gain = s'.gain ∧ calibrated.offs = s'.offs ∧ calibrated.calv = s'.calv ∧
    decode 0x600001C7#32 ≠ .ok .nop ∧ decode 0x600001C7#32 ≠ .ok .clrflt ∧
    answers (runWord 0x600001C7#32 calibrated) (fun t => t.err == 0#4) = true ∧
    answers (runWord 0x600001C7#32 s') (fun t => t.err == 0#4) = true := by decide

/-- The invariant holds of a calibrated state, and a step from it answers a next state. -/
theorem witness_StepKeepsRegisterInv :
    RegisterInv (calibrated.withFetchWord 32 0x30001800) ∧
    ∃ t, step (calibrated.withFetchWord 32 0x30001800) = .next t := by
  refine ⟨⟨by decide, by decide, by decide, by decide, by decide, by decide, by decide, by decide,
    fun h => absurd h (by decide)⟩, ?_⟩
  obtain ⟨t, h, -⟩ := of_answers (o := step (calibrated.withFetchWord 32 0x30001800))
    (p := fun _ => true) (by decide)
  exact ⟨t, h⟩

theorem witness_SetBalancingTouchesOneBit :
    (driverOf State.reset).vsc.resetAsserted = false ∧ (driverOf State.reset).mode ≠ .ship ∧
    1 ≤ (10#8 : Byte).toNat ∧ (10#8 : Byte).toNat ≤ 15 ∧ (0#8 : Byte).toNat = 0 ∧
    16 ≤ (16#8 : Byte).toNat := by decide

theorem witness_SettlingDelayOnCategoryChange :
    (driverOf calibrated).category ≠ some Channel.external1.category ∧
    ({ driverOf calibrated with category := some .external } : Driver).category
      ≠ some Channel.internal.category ∧
    ({ driverOf calibrated with category := some .external } : Driver).category
      = some Channel.external2.category ∧
    Channel.external1.category = Channel.external3.category ∧
    (driverOf calibrated).mode ≠ .ship := by decide

/-- A probe whose tenth poll is the first to read nonzero succeeds, and one that always reads zero fails,
whichever register is polled; both from a VSC outside reset. -/
theorem witness_BringUpCalibratesAndTripSettingsSettle :
    (probe readyAtTenth 10 (driverOf State.reset)).1 = true ∧
    (probe zeroAfe 10 (driverOf State.reset)).1 = false ∧
    (driverOf State.reset).vsc.resetAsserted = false ∧ (driverOf State.reset).mode ≠ .ship ∧
    quietAfe.Quiet ∧ quietAfe.address .uvTrip ≠ quietAfe.address .ovTrip ∧
    (convergeTrips quietAfe .bytes (driverOf calibrated)).uv ≠ .notConverged ∧
    (convergeTrips quietAfe .voltages (driverOf highOffset)).uv = .converged ∧
    (convergeTrips quietAfe .voltages (driverOf highOffset)).ov = .converged := by
  refine ⟨rfl, rfl, rfl, by decide, fun _ _ => rfl, by decide, by decide, by decide, by decide⟩

/-- The calibration of program P4. -/
theorem witness_UnderTripNeverConverges :
    (driverOf calibrated).vsc.resetAsserted = false ∧ (driverOf calibrated).vsc.calv = true ∧
    365 ≤ calibrated.gain.toNat ∧ calibrated.gain.toNat ≤ 396 ∧
    (8176 * calibrated.gain.toNat : Int) + 1000 * calibrated.offs.toInt +
      16 * calibrated.gain.toNat < 3320000 := by decide

/-- Both clauses: the transition's mode, and another one. -/
theorem witness_ShipModeIsFourWrites :
    (driverOf State.reset).mode = .normal ∧
    ({ driverOf State.reset with mode := .uninitialized } : Driver).mode ≠ .normal := by decide

theorem witness_ProbePollsOneTrimRegister : quietAfe.Quiet := fun _ _ => rfl

theorem witness_PairReadIsHighThenLow :
    (driverOf calibrated).mode ≠ .ship ∧ quietAfe.Quiet := ⟨by decide, fun _ _ => rfl⟩

/-- The modes of the clauses, ship mode and normal mode. -/
theorem witness_ShipIsTerminal :
    ((driverOf calibrated).perform quietAfe .enterShipMode).mode = .ship ∧
    (driverOf calibrated).mode = .normal := by decide

end Sys2Proof.Tests
end

section
/-! PROOFS. The step and its runs (00_scope.md R11): no command reads or writes what stands at the VSC's
inputs, so a machine that is fed words runs them one after another. -/

namespace Sys2Proof.Machine

/-! ## A step outside reset -/

/-- Outside reset the step runs the word the host issues, on the state with that action gone (R11). -/
theorem step_issue_released {s : State} {c : Word} {rest : List HostAction}
    (ha : s.hostActions = .issue c :: rest) (hr : s.resetAsserted = false) :
    step s = runWord c { s with hostActions := rest } := by
  rw [← respond_issue_released (s := { s with hostActions := rest }) hr]
  simp [step, ha]

theorem runWord_of_decode_ok {c : Word} {i : Instr} (h : decode c = .ok i) (s : State) :
    runWord c s = exec i s := by simp [runWord, h]

theorem runWord_of_decode_error {c : Word} {e : Illegal} (h : decode c = .error e) (s : State) :
    runWord c s = .next (raise .ill c s) := by simp [runWord, h]

/-! ## Words without a legal format -/

theorem field_eq_zero_iff (c : Word) (lo len : Nat) :
    c.extractLsb' lo len = 0#len ↔ c.toNat / 2 ^ lo % 2 ^ len = 0 := by
  rw [BitVec.toNat_eq, toNat_field, BitVec.toNat_ofNat, Nat.zero_mod]

/-- The decoder accepts legal formats only (R67, R75): row by row, the number that a word's high bits
form gives its `OP` and its reserved bits. -/
theorem formatLegal_of_decode_ok {c : Word} {i : Instr} (h : decode c = .ok i) : FormatLegal c := by
  have hlt := c.isLt
  simp only [FormatLegal, toNat_field, field_eq_zero_iff]
  have hrow := decode_ok_cases h
  revert hrow
  repeat' apply Or.imp
  all_goals
    rintro ⟨hhigh, -⟩
    omega

/-- A word without a legal format ends in `E_ILL` (R66, R67). -/
theorem isIllegal_of_not_formatLegal {c : Word} (h : ¬ FormatLegal c) (s : State) :
    IsIllegal c s := by
  obtain ⟨e, he⟩ := decode_error_of_none fun _ hi => h (formatLegal_of_decode_ok hi)
  exact ⟨_, runWord_of_decode_error he s, raise_endsInError .ill c s⟩

/-! ## Commands and the inputs -/

/-- The meaning `f` completes from every state, keeps the reset input, and does the same whatever the
host does next, which it keeps. -/
def IndependentOfActions (f : State → Outcome) : Prop :=
  ∀ s, ∃ t, f s = .next t ∧ t.resetAsserted = s.resetAsserted ∧
    ∀ acts, f { s with hostActions := acts } = .next { t with hostActions := acts }

/-- Ending a command is independent of the actions where its result is. -/
theorem complete_independentOfActions (c : Word) (r : State → Except ErrorCode Result)
    (hr : ∀ s acts, r { s with hostActions := acts } = r s) :
    IndependentOfActions fun s => complete c (r s) s := by
  intro s
  simp only [hr]
  cases r s with
  | error e => exact ⟨_, rfl, rfl, fun _ => rfl⟩
  | ok v => exact ⟨_, rfl, rfl, fun _ => rfl⟩

/-- Every command is independent of the actions: the five that cannot fail write registers alone, the
others `complete` a result computed from their operands and the calibration. -/
theorem exec_independentOfActions (i : Instr) : IndependentOfActions (exec i) := by
  cases i with
  | nop => exact fun _ => ⟨_, rfl, rfl, fun _ => rfl⟩
  | calld g1 g2 ot => exact fun _ => ⟨_, rfl, rfl, fun _ => rfl⟩
  | clrflt => exact fun _ => ⟨_, rfl, rfl, fun _ => rfl⟩
  | pair hi lo => exact fun _ => ⟨_, rfl, rfl, fun _ => rfl⟩
  | ccsig hi lo => exact fun _ => ⟨_, rfl, rfl, fun _ => rfl⟩
  | temp ch hi lo =>
    exact complete_independentOfActions _ (fun _ => tempResult lutOhm ch hi lo) fun _ _ => rfl
  | balsel idx =>
    exact complete_independentOfActions _ (fun _ => balselResult idx) fun _ _ => rfl
  | balupd idx en old =>
    exact complete_independentOfActions _ (fun _ => balupdResult idx en old) fun _ _ => rfl
  | cellv hi lo => exact complete_independentOfActions _ (cellvResult hi lo) fun _ _ => rfl
  | packv hi lo => exact complete_independentOfActions _ (packvResult numCells hi lo) fun _ _ => rfl
  | tripenc tgt => exact complete_independentOfActions _ (tripencResult tgt) fun _ _ => rfl
  | tripdec k b => exact complete_independentOfActions _ (tripdecResult k b) fun _ _ => rfl

/-- So is every word, legal or not. -/
theorem runWord_independentOfActions (c : Word) : IndependentOfActions (runWord c) := by
  cases hd : decode c with
  | ok i =>
    simpa only [IndependentOfActions, runWord_of_decode_ok hd] using exec_independentOfActions i
  | error e =>
    simp only [IndependentOfActions, runWord_of_decode_error hd]
    exact fun _ => ⟨_, rfl, rfl, fun _ => rfl⟩

/-- Every word completes (R244). -/
theorem runWord_next (c : Word) (s : State) : ∃ t, runWord c s = .next t :=
  (runWord_independentOfActions c s).imp fun _ h => h.1

/-- What a word leaves of the inputs, and what it does under other actions to come (R32, R35). -/
theorem runWord_inputs {c : Word} {s t : State} (h : runWord c s = .next t) :
    t.resetAsserted = s.resetAsserted ∧ t.hostActions = s.hostActions ∧
      ∀ acts, runWord c { s with hostActions := acts } = .next { t with hostActions := acts } := by
  obtain ⟨t', ht', hreset, hacts⟩ := runWord_independentOfActions c s
  obtain rfl : t = t' := by simpa [ht'] using h.symm
  refine ⟨hreset, ?_, hacts⟩
  have hsame : t = { t with hostActions := s.hostActions } := by simpa [h] using hacts s.hostActions
  rw [hsame]

/-! ## Runs -/

/-- A sequence of words runs from every state (R11, R244). -/
theorem runsTo_total (cs : List Word) (s : State) : ∃ t, RunsTo cs s t := by
  induction cs generalizing s with
  | nil => exact ⟨s, rfl⟩
  | cons c cs ih =>
    obtain ⟨m, hm⟩ := runWord_next c s
    obtain ⟨t, ht⟩ := ih m
    exact ⟨t, m, hm, ht⟩

theorem run_succ_of_step {s t : State} (h : step s = .next t) (k : Nat) :
    Host.Core.run Sys2Proof.core (k + 1) s = Host.Core.run Sys2Proof.core k t := by
  have hcore : Sys2Proof.core.step s = .next t := h
  simp only [Host.Core.run, hcore]

/-- The machine fed with words takes the state where the words take it. -/
theorem run_of_runsTo {cs : List Word} {s t : State} (hr : s.resetAsserted = false)
    (hrun : RunsTo cs s t) :
    Host.Core.run Sys2Proof.core cs.length
      { s with hostActions := cs.map HostAction.issue ++ s.hostActions } = .next t := by
  induction cs generalizing s with
  | nil =>
    obtain rfl : t = s := hrun
    rfl
  | cons c cs ih =>
    obtain ⟨m, hm, hrest⟩ := hrun
    obtain ⟨hreset, hacts, hother⟩ := runWord_inputs hm
    have hstep : step { s with hostActions := (c :: cs).map HostAction.issue ++ s.hostActions } =
        .next { m with hostActions := cs.map HostAction.issue ++ s.hostActions } :=
      calc step { s with hostActions := (c :: cs).map HostAction.issue ++ s.hostActions }
        _ = runWord c { s with hostActions := cs.map HostAction.issue ++ s.hostActions } :=
          step_issue_released rfl hr
        _ = .next { m with hostActions := cs.map HostAction.issue ++ s.hostActions } := hother _
    rw [List.length_cons, run_succ_of_step hstep, ← hacts]
    exact ih (hreset.trans hr) hrest

/-! ## The obligations -/

/-- Settles O12, by induction on the words: no word reads or changes the host's actions to come. -/
theorem hostSequenceRunsWordByWord : Obligations.HostSequenceRunsWordByWord := by
  refine ⟨runsTo_total, ?_⟩
  rintro cs _ s t hr rfl hrun
  exact run_of_runsTo hr hrun

/-- Settles O8. -/
theorem stepRunsDecodedCommand : Obligations.StepRunsDecodedCommand := by
  intro s c rest i ha hr hd
  rw [step_issue_released ha hr, runWord_of_decode_ok hd]

/-- Settles O9. -/
theorem stepEndsIllegalWordInEIll : Obligations.StepEndsIllegalWordInEIll := by
  intro s c rest ha hr hc
  rw [step_issue_released ha hr]
  exact isIllegal_of_not_formatLegal hc _

end Sys2Proof.Machine
end

section
/-! PROOFS. The registers (10_state.md): every command ends one computed result in the shared error entry or
success epilogue, that result is in the ranges of R24 and depends on the calibration only. So every step keeps
the invariant of the registers, and no command reads RES, AUX, FLT, ERR or ECMD. -/

namespace Sys2Proof.Machine

/-! ## The one shape of a command -/

/-- What a command hands to its ending. NOP and CLRFLT compute nothing: they keep what `RES` and `AUX`
hold. -/
def commandResult : Instr → State → Except ErrorCode Result
  | .nop, s => .ok ⟨s.res, s.aux⟩
  | .calld g1 g2 _, _ => .ok (Result.store (gainTrim g1 g2).toNat 0)
  | .pair hi lo, _ => .ok (Result.store (rawOf hi lo).toNat 0)
  | .cellv hi lo, s => cellvResult hi lo s
  | .packv hi lo, s => packvResult numCells hi lo s
  | .tripenc tgt, s => tripencResult tgt s
  | .tripdec k b, s => tripdecResult k b s
  | .ccsig hi lo, _ => .ok (Result.store ((rawOf hi lo).toInt * 844) 0)
  | .temp ch hi lo, _ => tempResult lutOhm ch hi lo
  | .balsel idx, _ => balselResult idx
  | .balupd idx en old, _ => balupdResult idx en old
  | .clrflt, s => .ok ⟨s.res, s.aux⟩

/-- The state a command ends from: CALLD has loaded the calibration (R113), CLRFLT has cleared the fault
bit (R181), the others have written nothing. -/
def beforeEnding : Instr → State → State
  | .calld g1 g2 ot, s => loadCalibration (gainOf (gainTrim g1 g2)) ot s
  | .clrflt, s => clearFault s
  | _, s => s

/-- Every command ends its result by `complete` (R11). -/
theorem exec_eq_complete (i : Instr) (s : State) :
    exec i s = complete (encode i) (commandResult i s) (beforeEnding i s) := by
  cases i <;> rfl

/-- Everything a word can do: an illegal word enters the error entry, a legal one ends its command's
result (R66, R67, R201, R202). -/
theorem runWord_cases {c : Word} {s t : State} (h : runWord c s = .next t) :
    ((∃ e, decode c = .error e) ∧ t = raise .ill c s) ∨
    ∃ i, decode c = .ok i ∧
      ((∃ e, commandResult i s = .error e ∧ t = raise e (encode i) (beforeEnding i s)) ∨
       (∃ r, commandResult i s = .ok r ∧ t = succeed (writeResult r (beforeEnding i s)))) := by
  cases hd : decode c with
  | error e =>
    rw [runWord_of_decode_error hd] at h
    injection h with h
    exact .inl ⟨⟨e, rfl⟩, h.symm⟩
  | ok i =>
    rw [runWord_of_decode_ok hd, exec_eq_complete] at h
    exact .inr ⟨i, rfl, complete_cases h⟩

/-! ## What the checks of a result let through -/

theorem requireCalibration_ok {s : State} {r : Except ErrorCode Result} {v : Result}
    (h : requireCalibration s r = .ok v) : s.calv = true ∧ r = .ok v := by
  cases hc : s.calv with
  | true => exact ⟨rfl, requireCalibration_true hc r ▸ h⟩
  | false => rw [requireCalibration_false hc] at h; cases h

theorem raw14_ok {hi lo : Byte} {raw : Nat} (h : raw14 hi lo = .ok raw) : raw ≤ 16383 := by
  rw [raw14_eq] at h
  split at h
  · injection h with h; omega
  · cases h

/-! ## The ranges of the results (R24) -/

/-- `RES` and `AUX` within the ranges of R24 that `RegisterInv` states. -/
def Result.InRange (r : Result) : Prop :=
  (-27656192 ≤ r.res.toInt ∧ r.res.toInt ≤ 27855672) ∧ r.aux.toNat ≤ 16383

/-- Numbers within the ranges fit the registers: no store wraps (R13). -/
theorem store_inRange {v : Int} {a : Nat} (hv : -27656192 ≤ v ∧ v ≤ 27855672) (ha : a ≤ 16383) :
    (Result.store v a).InRange := by
  obtain ⟨hres, haux, -⟩ :=
    succeed_store State.reset v a (by omega) (by omega) (by omega)
  simp only [succeed_res, succeed_aux, writeResult_res, writeResult_aux] at hres haux
  rw [Result.InRange, hres, haux]
  exact ⟨hv, ha⟩

/-- The gain as an integer is at most the largest legal one (R21, R111). -/
theorem RegisterInv.gainInt_le {s : State} (h : RegisterInv s) : s.gainInt ≤ 396 := by
  unfold State.gainInt
  cases hc : s.calv with
  | true => have := (h.calibrated hc).2; omega
  | false => rw [(h.uncalibrated hc).1]; decide

/-- A 14-bit field times the gain. -/
theorem RegisterInv.mul_gainInt_range {s : State} (h : RegisterInv s) {raw : Nat}
    (hraw : raw ≤ 16383) : 0 ≤ raw * s.gainInt ∧ raw * s.gainInt ≤ 6487668 := by
  have hgain := (gainInt_range s).1
  refine ⟨by positivity, ?_⟩
  calc raw * s.gainInt ≤ 16383 * 396 :=
        mul_le_mul (by exact_mod_cast hraw) h.gainInt_le hgain (by norm_num)
    _ = 6487668 := by norm_num

theorem RegisterInv.linearMicrovolts_range {s : State} (h : RegisterInv s) {raw : Nat}
    (hraw : raw ≤ 16383) :
    -128000 ≤ linearMicrovolts raw s ∧ linearMicrovolts raw s ≤ 6614668 := by
  have hmul := h.mul_gainInt_range hraw
  have hoff := offsInt_range s
  unfold linearMicrovolts
  omega

/-- R122's zero case stays within the range of the formula. -/
theorem RegisterInv.cellMicrovolts_range {s : State} (h : RegisterInv s) {raw : Nat}
    (hraw : raw ≤ 16383) :
    -128000 ≤ cellMicrovolts raw s ∧ cellMicrovolts raw s ≤ 6614668 := by
  unfold cellMicrovolts
  split
  · omega
  · exact h.linearMicrovolts_range hraw

/-- The range R123 gives for the largest pack. -/
theorem RegisterInv.packMicrovolts_range {s : State} (h : RegisterInv s) {raw : Nat}
    (hraw : raw ≤ 16383) :
    -1920000 ≤ packMicrovolts numCells raw s ∧ packMicrovolts numCells raw s ≤ 27855672 := by
  have hmul := h.mul_gainInt_range hraw
  obtain ⟨hofflo, hoffhi⟩ := offsInt_range s
  have hcells := numCells_range
  have hlo : -1920 ≤ numCells * s.offsInt := by nlinarith
  have hhi : numCells * s.offsInt ≤ 1905 := by nlinarith
  have heq : packMicrovolts numCells raw s =
      4 * (raw * s.gainInt) + 1000 * (numCells * s.offsInt) := by
    unfold packMicrovolts; ring
  omega

theorem cellvResult_inRange {hi lo : Byte} {s : State} {r : Result} (h : RegisterInv s)
    (hok : cellvResult hi lo s = .ok r) : r.InRange := by
  obtain ⟨-, hok⟩ := requireCalibration_ok hok
  split at hok
  · cases hok
  next raw hraw =>
    injection hok with hok
    have := h.cellMicrovolts_range (raw14_ok hraw)
    exact hok ▸ store_inRange (by omega) (by omega)

theorem packvResult_inRange {hi lo : Byte} {s : State} {r : Result} (h : RegisterInv s)
    (hok : packvResult numCells hi lo s = .ok r) : r.InRange := by
  obtain ⟨-, hok⟩ := requireCalibration_ok hok
  split at hok
  · cases hok
  next raw hraw =>
    injection hok with hok
    have := h.packMicrovolts_range (raw14_ok hraw)
    exact hok ▸ store_inRange (by omega) (by omega)

theorem tripencResult_inRange {tgt : BitVec 24} {s : State} {r : Result}
    (hok : tripencResult tgt s = .ok r) : r.InRange := by
  obtain ⟨-, hok⟩ := requireCalibration_ok hok
  split at hok
  · cases hok
  next =>
    injection hok with hok
    have hbyte := (tripByte (BitVec.ofInt 14 (tripQuotient tgt s))).isLt
    have hq := (BitVec.ofInt 14 (tripQuotient tgt s)).isLt
    exact hok ▸ store_inRange (by omega) (by omega)

theorem tripdecResult_inRange {k : TripKind} {b : Byte} {s : State} {r : Result}
    (h : RegisterInv s) (hok : tripdecResult k b s = .ok r) : r.InRange := by
  obtain ⟨-, hok⟩ := requireCalibration_ok hok
  injection hok with hok
  have hfield : (tripField k b).toNat ≤ 16383 := by have := (tripField k b).isLt; omega
  have := h.linearMicrovolts_range hfield
  exact hok ▸ store_inRange (by omega) hfield

/-- R153 for a 14-bit reading: far inside the range of `RES`. -/
theorem internalMillidegrees_range {raw : Nat} (hraw : raw ≤ 16383) :
    -27656192 ≤ internalMillidegrees raw ∧ internalMillidegrees raw ≤ 27855672 := by
  unfold internalMillidegrees
  rw [tdiv_of_ne _ (by norm_num)]
  have hquot := Int.natAbs_tdiv_le_natAbs (6525000 - 1910 * raw) 21
  omega

/-- A table row is one of the seventeen of R155. -/
theorem externalResult_inRange {raw : Nat} {r : Result}
    (hok : externalResult lutOhm raw = .ok r) : r.InRange := by
  unfold externalResult at hok
  split at hok
  · cases hok
  next i hrow =>
    injection hok with hok
    obtain ⟨-, hi, -⟩ := (lutRow_some_iff lutOhm raw i).1 hrow
    rw [lutOhm_length] at hi
    exact hok ▸ store_inRange (by omega) (by omega)

theorem channelResult_inRange {raw : Nat} (hraw : raw ≤ 16383) {channel : Channel} {r : Result}
    (hok : channelResult lutOhm raw channel = .ok r) : r.InRange := by
  cases channel with
  | internal =>
    injection hok with hok
    exact hok ▸ store_inRange (internalMillidegrees_range hraw) (by omega)
  | external1 => exact externalResult_inRange hok
  | external2 => exact externalResult_inRange hok
  | external3 => exact externalResult_inRange hok

theorem tempResult_inRange {ch hi lo : Byte} {r : Result}
    (hok : tempResult lutOhm ch hi lo = .ok r) : r.InRange := by
  unfold tempResult at hok
  split at hok
  · cases hok
  split at hok
  · cases hok
  next raw hraw => exact channelResult_inRange (raw14_ok hraw) hok

/-- An 8-bit image and a select code are in range (R171, R172). -/
theorem store_image_inRange (image : Byte) (reg : BalReg) :
    (Result.store image.toNat reg.sel).InRange := by
  have := image.isLt
  have : reg.sel ≤ 2 := by cases reg <;> decide
  exact store_inRange (by omega) (by omega)

theorem balselResult_inRange {idx : Byte} {r : Result} (hok : balselResult idx = .ok r) :
    r.InRange := by
  unfold balselResult at hok
  split at hok
  · cases hok
  next target _ =>
    injection hok with hok
    exact hok ▸ store_image_inRange target.mask target.reg

theorem balupdResult_inRange {idx : Byte} {en : Bool} {old : Byte} {r : Result}
    (hok : balupdResult idx en old = .ok r) : r.InRange := by
  unfold balupdResult at hok
  split at hok
  · cases hok
  next target _ =>
    injection hok with hok
    exact hok ▸ store_image_inRange (newImage target en old) target.reg

/-- The results of R100 and R140: a 16-bit field, and a signed one times 844. -/
theorem pair_inRange (hi lo : Byte) : (Result.store (rawOf hi lo).toNat 0).InRange := by
  have := (rawOf hi lo).isLt
  exact store_inRange (by omega) (by omega)

theorem ccsig_inRange (hi lo : Byte) : (Result.store ((rawOf hi lo).toInt * 844) 0).InRange := by
  have hlo := BitVec.le_toInt (rawOf hi lo)
  have hhi := BitVec.toInt_lt (x := rawOf hi lo)
  norm_num at hlo hhi
  exact store_inRange (by omega) (by omega)

theorem RegisterInv.inRange {s : State} (h : RegisterInv s) : Result.InRange ⟨s.res, s.aux⟩ :=
  ⟨⟨h.resLow, h.resHigh⟩, h.auxHigh⟩

/-- Every command that ends with results has them in the ranges of R24. -/
theorem commandResult_inRange {i : Instr} {s : State} {r : Result} (h : RegisterInv s)
    (hok : commandResult i s = .ok r) : r.InRange := by
  cases i with
  | nop => injection hok with hok; exact hok ▸ h.inRange
  | clrflt => injection hok with hok; exact hok ▸ h.inRange
  | calld g1 g2 ot =>
    injection hok with hok
    have := gainTrim_le g1 g2
    exact hok ▸ store_inRange (by omega) (by omega)
  | pair hi lo => injection hok with hok; exact hok ▸ pair_inRange hi lo
  | ccsig hi lo => injection hok with hok; exact hok ▸ ccsig_inRange hi lo
  | cellv hi lo => exact cellvResult_inRange h hok
  | packv hi lo => exact packvResult_inRange h hok
  | tripenc tgt => exact tripencResult_inRange hok
  | tripdec k b => exact tripdecResult_inRange h hok
  | temp ch hi lo => exact tempResult_inRange hok
  | balsel idx => exact balselResult_inRange hok
  | balupd idx en old => exact balupdResult_inRange hok

/-! ## The invariant at the end of a command -/

/-- What an ending needs of the state to leave the invariant behind. It writes `ERR` and the reserved bits
itself, so of those nothing is asked: CLRFLT ends from a state whose `ERR` may be set without `FLT`. -/
structure ReadyToEnd (s : State) : Prop where
  released : s.resetAsserted = false
  calibrated : s.calv = true → 365 ≤ s.gain.toNat ∧ s.gain.toNat ≤ 396
  uncalibrated : s.calv = false → s.gain = 0#9 ∧ s.offs = 0#8
  inRange : Result.InRange ⟨s.res, s.aux⟩

theorem RegisterInv.readyToEnd {s : State} (h : RegisterInv s) (hr : s.resetAsserted = false) :
    ReadyToEnd s :=
  ⟨hr, h.calibrated, h.uncalibrated, h.inRange⟩

/-- A calibration that CALLD loads is legal (R21, R110, R111). -/
theorem ReadyToEnd.loadCalibration {s : State} (h : ReadyToEnd s) (g1 g2 ot : Byte) :
    ReadyToEnd (loadCalibration (gainOf (gainTrim g1 g2)) ot s) where
  released := h.released
  calibrated _ := by
    have htrim := gainTrim_le g1 g2
    rw [loadCalibration_gain, gainOf_toNat htrim]
    omega
  uncalibrated hc := by simp at hc
  inRange := h.inRange

theorem ReadyToEnd.clearFault {s : State} (h : ReadyToEnd s) : ReadyToEnd (clearFault s) where
  released := h.released
  calibrated := by simpa using h.calibrated
  uncalibrated := by simpa using h.uncalibrated
  inRange := h.inRange

theorem ReadyToEnd.beforeEnding {s : State} (h : ReadyToEnd s) (i : Instr) :
    ReadyToEnd (beforeEnding i s) := by
  cases i with
  | calld g1 g2 ot => exact h.loadCalibration g1 g2 ot
  | clrflt => exact h.clearFault
  | _ => exact h

/-- The error entry establishes the invariant (R201). -/
theorem ReadyToEnd.raise {s : State} (h : ReadyToEnd s) (e : ErrorCode) (c : Word) :
    RegisterInv (raise e c s) where
  reserved := raise_reserved e c s
  errCode := by simpa using (code_range e).2
  errFlt _ := raise_flt e c s
  calibrated := by simpa using h.calibrated
  uncalibrated := by simpa using h.uncalibrated
  resLow := h.inRange.1.1
  resHigh := h.inRange.1.2
  auxHigh := h.inRange.2
  heldInReset hr := by simp [h.released] at hr

/-- The success epilogue with results in range establishes the invariant (R202). -/
theorem ReadyToEnd.succeed {s : State} (h : ReadyToEnd s) {r : Result} (hr : r.InRange) :
    RegisterInv (succeed (writeResult r s)) where
  reserved := succeed_reserved _
  errCode := by simp
  errFlt he := by simp at he
  calibrated := by simpa using h.calibrated
  uncalibrated := by simpa using h.uncalibrated
  resLow := hr.1.1
  resHigh := hr.1.2
  auxHigh := hr.2
  heldInReset ha := by simp [h.released] at ha

/-- Every word executed outside reset keeps the invariant. -/
theorem runWord_registerInv {c : Word} {s t : State} (h : RegisterInv s)
    (hr : s.resetAsserted = false) (hrun : runWord c s = .next t) : RegisterInv t := by
  have hready := h.readyToEnd hr
  obtain ⟨-, rfl⟩ | ⟨i, -, ⟨e, -, rfl⟩ | ⟨r, hok, rfl⟩⟩ := runWord_cases hrun
  · exact hready.raise .ill c
  · exact (hready.beforeEnding i).raise e (encode i)
  · exact (hready.beforeEnding i).succeed (commandResult_inRange h hok)

/-! ## The invariant and the inputs -/

/-- Clear registers have the invariant, whatever the inputs (R33). -/
theorem RegistersClear.registerInv {s : State} (h : RegistersClear s) : RegisterInv s := by
  have hclear := h
  obtain ⟨hgain, hoffs, hres, haux, hstatus, -⟩ := hclear
  exact {
    reserved := by simp [State.statusReserved, hstatus]
    errCode := by simp [State.err, hstatus]
    errFlt := by simp [State.err, hstatus]
    calibrated := by simp [State.calv, hstatus]
    uncalibrated := fun _ => ⟨hgain, hoffs⟩
    resLow := by simp [hres]
    resHigh := by simp [hres]
    auxHigh := by simp [haux]
    heldInReset := fun _ => h }

/-- The invariant is about the registers, and reset may be released under it but not asserted. -/
theorem RegisterInv.withInputs {s : State} (h : RegisterInv s) {asserted : Bool}
    (hr : asserted = true → s.resetAsserted = true) (acts : List HostAction) :
    RegisterInv { s with resetAsserted := asserted, hostActions := acts } :=
  { h with heldInReset := fun ha => h.heldInReset (hr ha) }

theorem RegisterInv.holdReset {s : State} (h : RegisterInv s) : RegisterInv (holdReset s) := by
  cases hr : s.resetAsserted with
  | true => rw [holdReset_asserted hr]; exact (clearRegisters_clear s).registerInv
  | false => rwa [holdReset_released hr]

/-- Whatever the host does, the answer keeps the invariant. -/
theorem respond_registerInv {a : HostAction} {s t : State} (h : RegisterInv s)
    (ha : respond a s = .next t) : RegisterInv t := by
  cases a with
  | assertReset =>
    injection ha with ha
    exact ha ▸ (clearRegisters_clear _).registerInv
  | releaseReset =>
    injection ha with ha
    exact ha ▸ h.holdReset.withInputs (fun hf => absurd hf (by decide)) _
  | issue c =>
    cases hr : s.resetAsserted with
    | true =>
      simp only [respond, hr, if_true] at ha
      injection ha with ha
      exact ha ▸ h.holdReset
    | false => exact runWord_registerInv h hr (respond_issue_released hr c ▸ ha)

/-! ## Commands read the calibration only -/

/-- Two states hold the same `GAIN`, `OFFS` and `CALV`. -/
structure SameCalibration (s s' : State) : Prop where
  gain : s.gain = s'.gain
  offs : s.offs = s'.offs
  calv : s.calv = s'.calv

section
variable {s s' : State}

theorem SameCalibration.gainInt_eq (h : SameCalibration s s') : s.gainInt = s'.gainInt := by
  rw [State.gainInt, h.gain, State.gainInt]

theorem SameCalibration.offsInt_eq (h : SameCalibration s s') : s.offsInt = s'.offsInt := by
  rw [State.offsInt, h.offs, State.offsInt]

theorem SameCalibration.requireCalibration_eq (h : SameCalibration s s')
    {r r' : Except ErrorCode Result} (hr : r = r') :
    requireCalibration s r = requireCalibration s' r' := by
  rw [requireCalibration, h.calv, hr, requireCalibration]

theorem SameCalibration.linearMicrovolts_eq (h : SameCalibration s s') (raw : Nat) :
    linearMicrovolts raw s = linearMicrovolts raw s' := by
  rw [linearMicrovolts, h.gainInt_eq, h.offsInt_eq, linearMicrovolts]

theorem SameCalibration.cellMicrovolts_eq (h : SameCalibration s s') (raw : Nat) :
    cellMicrovolts raw s = cellMicrovolts raw s' := by
  rw [cellMicrovolts, h.linearMicrovolts_eq, cellMicrovolts]

theorem SameCalibration.packMicrovolts_eq (h : SameCalibration s s') (cells raw : Nat) :
    packMicrovolts cells raw s = packMicrovolts cells raw s' := by
  rw [packMicrovolts, h.gainInt_eq, h.offsInt_eq, packMicrovolts]

theorem SameCalibration.tripQuotient_eq (h : SameCalibration s s') (tgt : BitVec 24) :
    tripQuotient tgt s = tripQuotient tgt s' := by
  rw [tripQuotient, h.gainInt_eq, h.offsInt_eq, tripQuotient]

/-- A command that computes results computes them from its operands and the calibration. -/
theorem SameCalibration.commandResult_eq (h : SameCalibration s s') {i : Instr} (hnop : i ≠ .nop)
    (hclrflt : i ≠ .clrflt) : commandResult i s = commandResult i s' := by
  cases i with
  | nop => exact absurd rfl hnop
  | clrflt => exact absurd rfl hclrflt
  | cellv hi lo => exact h.requireCalibration_eq (by simp only [h.cellMicrovolts_eq])
  | packv hi lo => exact h.requireCalibration_eq (by simp only [h.packMicrovolts_eq])
  | tripenc tgt => exact h.requireCalibration_eq (by simp only [h.tripQuotient_eq])
  | tripdec k b => exact h.requireCalibration_eq (by rw [h.linearMicrovolts_eq])
  | _ => rfl

/-- CALLD reads no calibration: the one it loads is the same in every two states. -/
theorem loadCalibration_sameCalibration (gain : BitVec 9) (offs : BitVec 8) (s s' : State) :
    SameCalibration (loadCalibration gain offs s) (loadCalibration gain offs s') :=
  ⟨rfl, rfl, by rw [loadCalibration_calv, loadCalibration_calv]⟩

theorem SameCalibration.clearFault (h : SameCalibration s s') :
    SameCalibration (clearFault s) (clearFault s') :=
  ⟨h.gain, h.offs, by rw [clearFault_calv, clearFault_calv, h.calv]⟩

theorem SameCalibration.beforeEnding (h : SameCalibration s s') (i : Instr) :
    SameCalibration (beforeEnding i s) (beforeEnding i s') := by
  cases i with
  | calld g1 g2 ot => exact loadCalibration_sameCalibration _ ot s s'
  | clrflt => exact h.clearFault
  | _ => exact h

theorem SameCalibration.raise (h : SameCalibration s s') (e : ErrorCode) (c : Word) :
    SameCalibration (raise e c s) (raise e c s') :=
  ⟨h.gain, h.offs, by rw [raise_calv, raise_calv, h.calv]⟩

theorem SameCalibration.succeed (h : SameCalibration s s') (r r' : Result) :
    SameCalibration (succeed (writeResult r s)) (succeed (writeResult r' s')) :=
  ⟨h.gain, h.offs, by simp only [succeed_calv, writeResult_calv, h.calv]⟩

/-- Whether a command errs, and how, depends on the calibration only; NOP and CLRFLT never do. -/
theorem SameCalibration.commandResult_error_iff (h : SameCalibration s s') (i : Instr)
    (e : ErrorCode) : commandResult i s = .error e ↔ commandResult i s' = .error e := by
  by_cases hnop : i = .nop
  · simp [hnop, commandResult]
  by_cases hclrflt : i = .clrflt
  · simp [hclrflt, commandResult]
  rw [h.commandResult_eq hnop hclrflt]

end

/-! ## Endings from two states -/

section
variable {c : Word} {s s' t t' : State}

/-- Results that err alike report the same error, and no ending writes the calibration. -/
theorem complete_sameCalibration {r r' : Except ErrorCode Result} (h : SameCalibration s s')
    (hr : ∀ e, r = .error e ↔ r' = .error e) (ht : complete c r s = .next t)
    (ht' : complete c r' s' = .next t') : t.err = t'.err ∧ SameCalibration t t' := by
  obtain ⟨e, he, rfl⟩ | ⟨v, hv, rfl⟩ := complete_cases ht <;>
    obtain ⟨e', he', rfl⟩ | ⟨v', hv', rfl⟩ := complete_cases ht'
  · obtain rfl : e = e' := by simpa [he'] using ((hr e).1 he).symm
    exact ⟨by simp, h.raise e c⟩
  · simp [(hr e).1 he] at hv'
  · simp [(hr e').2 he'] at hv
  · exact ⟨by simp, h.succeed v v'⟩

/-- No error code is the 0 of success (R200). -/
theorem code_ne_zero (e : ErrorCode) : e.code ≠ 0#4 := by
  intro h
  have hpos := (code_range e).1
  simp [h] at hpos

/-- One result that ends without error writes the same `RES` and `AUX` in every state. -/
theorem complete_sameResults {r : Except ErrorCode Result} (ht : complete c r s = .next t)
    (ht' : complete c r s' = .next t') (herr : t.err = 0#4) : t.res = t'.res ∧ t.aux = t'.aux := by
  obtain ⟨e, -, rfl⟩ | ⟨v, rfl, rfl⟩ := complete_cases ht
  · exact absurd (raise_err e c s ▸ herr) (code_ne_zero e)
  · injection ht' with ht'
    exact ht' ▸ ⟨rfl, rfl⟩

theorem runWord_sameCalibration (h : SameCalibration s s') (ht : runWord c s = .next t)
    (ht' : runWord c s' = .next t') : t.err = t'.err ∧ SameCalibration t t' := by
  cases hd : decode c with
  | error e =>
    rw [runWord_of_decode_error hd, ← complete_error] at ht ht'
    exact complete_sameCalibration h (fun _ => Iff.rfl) ht ht'
  | ok i =>
    rw [runWord_of_decode_ok hd, exec_eq_complete] at ht ht'
    exact complete_sameCalibration (h.beforeEnding i) (h.commandResult_error_iff i) ht ht'

theorem runWord_sameResults (h : SameCalibration s s') (ht : runWord c s = .next t)
    (ht' : runWord c s' = .next t') (herr : t.err = 0#4) (hnop : decode c ≠ .ok .nop)
    (hclrflt : decode c ≠ .ok .clrflt) : t.res = t'.res ∧ t.aux = t'.aux := by
  cases hd : decode c with
  | error e =>
    rw [runWord_of_decode_error hd, ← complete_error] at ht ht'
    exact complete_sameResults ht ht' herr
  | ok i =>
    have hsame := h.commandResult_eq (i := i) (fun hi => hnop (hi ▸ hd)) (fun hi => hclrflt (hi ▸ hd))
    rw [runWord_of_decode_ok hd, exec_eq_complete] at ht ht'
    rw [← hsame] at ht'
    exact complete_sameResults ht ht' herr

end

/-! ## The obligations -/

/-- Settles O44: the answer to every action keeps the invariant, and so does a step without one. -/
theorem stepKeepsRegisterInv : Obligations.StepKeepsRegisterInv := by
  intro s t h hstep
  cases hacts : s.hostActions with
  | nil =>
    simp only [step, hacts] at hstep
    injection hstep with hstep
    exact hstep ▸ h.holdReset
  | cons a rest =>
    simp only [step, hacts] at hstep
    exact respond_registerInv (h.withInputs id rest) hstep

/-- Settles O43: apart from NOP and CLRFLT both states give the command the same result, and it ends
alike from both. -/
theorem resultsIgnoreEarlierResults : Obligations.ResultsIgnoreEarlierResults := by
  intro c s s' t t' hgain hoffs hcalv ht ht'
  have hstart : SameCalibration s s' := ⟨hgain, hoffs, hcalv⟩
  obtain ⟨herr, hend⟩ := runWord_sameCalibration hstart ht ht'
  exact ⟨herr, hend.gain, hend.offs, hend.calv, runWord_sameResults hstart ht ht'⟩

/-- Settles O13. -/
theorem resetStateIsZero : Obligations.ResetStateIsZero :=
  ⟨rfl, rfl, rfl, rfl, rfl, rfl, rfl, rfl, rfl⟩

/-- Settles O45: in the reset state the registers are clear. -/
theorem resetHasRegisterInv : Obligations.ResetHasRegisterInv :=
  (clearRegisters_clear State.reset).registerInv

end Sys2Proof.Machine
end

section
/-! PROOFS. The host's reading of a register pair (20_memory.md R43, R44, R46): the AFE may change its
registers before either transaction, so each byte is read from the registers as the AFE has them by then. -/

namespace Sys2Proof.Machine

/-! ## The two bytes of a pair -/

/-- What the transaction after a read finds: the AFE has had one more occasion to change its registers. -/
theorem readByte_regsNext (afe : Afe) (a : Nat) (d : Driver) :
    (readByte afe a d).2.regsNext afe = afe.drift (d.bus.length + 1) (d.regsNext afe) := by
  simp [Driver.regsNext]

@[simp] theorem readPair_high (afe a d) : (readPair afe a d).1.1 = d.regsNext afe a := rfl

theorem readPair_low (afe : Afe) (a : Nat) (d : Driver) :
    (readPair afe a d).1.2 = afe.drift (d.bus.length + 1) (d.regsNext afe) (a + 1) :=
  congrFun (readByte_regsNext afe a d) (a + 1)

theorem readPair_regs (afe : Afe) (a : Nat) (d : Driver) :
    (readPair afe a d).2.regs = afe.drift (d.bus.length + 1) (d.regsNext afe) :=
  readByte_regsNext afe a d

/-- An AFE that changes nothing by itself gives the registers as they stood: the pair is not torn (R46). -/
theorem readPair_of_quiet {afe : Afe} (h : afe.Quiet) (a : Nat) (d : Driver) :
    (readPair afe a d).1 = (d.regs a, d.regs (a + 1)) ∧ (readPair afe a d).2.regs = d.regs := by
  have hregs : afe.drift (d.bus.length + 1) (d.regsNext afe) = d.regs :=
    (h _ _).trans (regsNext_of_quiet h d)
  refine ⟨Prod.ext ?_ ?_, ?_⟩
  · rw [readPair_high, regsNext_of_quiet h]
  · rw [readPair_low, hregs]
  · rw [readPair_regs, hregs]

/-! ## Measuring a pair -/

/-- Outside ship mode the pair is read and its bytes, high before low, go to the command (R43). -/
theorem measurePair_run {d : Driver} (h : d.mode ≠ .ship) (afe : Afe) (pair : AfePair)
    (command : PairCommand) :
    measurePair afe pair command d =
      (some (readPair afe (afe.pairAddress pair) d).1,
        (readPair afe (afe.pairAddress pair) d).2.issue
          (command.on (readPair afe (afe.pairAddress pair) d).1.1
            (readPair afe (afe.pairAddress pair) d).1.2)) :=
  unlessShip_run h _

/-! ## The obligation -/

/-- Settles O51: the measurement is one pair read, which the command issued on its bytes leaves as it is. -/
theorem pairReadIsHighThenLow : Obligations.PairReadIsHighThenLow := by
  intro afe pair command d hmode
  let a := afe.pairAddress pair
  refine ⟨_, _, _, measurePair_run hmode afe pair command, readPair_high afe a d, readPair_low afe a d,
    readPair_bus afe a d, rfl, fun hquiet => ?_⟩
  obtain ⟨hbytes, hregs⟩ := readPair_of_quiet hquiet a d
  exact ⟨congrArg Prod.fst hbytes, congrArg Prod.snd hbytes, hregs⟩

end Sys2Proof.Machine
end

section
/-! PROOFS. The encoding (30_encoding.md): `OP` alone tells the rows of R65 apart, so a word decodes by whichever
row it matches; and a command's word is, as a number, R70's sum of its fields, from which decoding reads the
fields back. -/

namespace Sys2Proof.Machine

/-! ## Rows of the opcode map -/

/-- Every mask of R65 covers `OP`, so a word has the `OP` of the row it matches. -/
theorem opBits_eq_of_matches {r : OpRow} (hr : r ∈ opcodeMap) {c : Word} (h : r.matches c = true) :
    c &&& 0xF0000000#32 = r.pattern &&& 0xF0000000#32 := by
  have hmask : ∀ r ∈ opcodeMap, r.mask &&& 0xF0000000#32 = 0xF0000000#32 := by decide
  calc c &&& 0xF0000000#32
      _ = (c &&& r.mask) &&& 0xF0000000#32 := by rw [BitVec.and_assoc, hmask r hr]
      _ = r.pattern &&& 0xF0000000#32 := by rw [beq_iff_eq.1 h]

/-- At most one row matches: no two rows have the same `OP`. -/
theorem row_eq_of_matches {c : Word} {r r' : OpRow} (hr : r ∈ opcodeMap) (hr' : r' ∈ opcodeMap)
    (h : r.matches c = true) (h' : r'.matches c = true) : r = r' := by
  have hdistinct : ∀ r ∈ opcodeMap, ∀ r' ∈ opcodeMap,
      r.pattern &&& 0xF0000000#32 = r'.pattern &&& 0xF0000000#32 → r = r' := by decide
  exact hdistinct r hr r' hr' ((opBits_eq_of_matches hr h).symm.trans (opBits_eq_of_matches hr' h'))

/-- A word decodes by the row it matches (R75). -/
theorem decode_of_matches {c : Word} {r : OpRow} (hr : r ∈ opcodeMap) (h : r.matches c = true) :
    decode c = .ok (r.op.instr c) := by
  have hsome : (opcodeMap.find? (·.matches c)).isSome := List.find?_isSome.2 ⟨r, hr, h⟩
  obtain ⟨r', hfind⟩ := Option.isSome_iff_exists.1 hsome
  obtain rfl : r' = r :=
    row_eq_of_matches (List.mem_of_find?_eq_some hfind) hr
      (List.find?_some (p := fun r : OpRow => r.matches c) hfind) h
  simp only [decode, hfind]

/-- The same with the row given by its place in R65, its mask and match compared as R65 writes them. -/
theorem decode_of_masked_eq {c : Word} {r : OpRow} (k : Nat) (hr : opcodeMap[k]? = some r)
    (h : c &&& r.mask = r.pattern) : decode c = .ok (r.op.instr c) :=
  decode_of_matches (List.mem_of_getElem? hr) (beq_iff_eq.2 h)

/-- A word that matches no row is illegal (R75). -/
theorem decode_error_of_no_match {c : Word} (h : ∀ r ∈ opcodeMap, r.matches c = false) :
    ∃ e, decode c = .error e := by
  have hfind : opcodeMap.find? (·.matches c) = none :=
    List.find?_eq_none.2 fun r hr => by simp [h r hr]
  refine ⟨if 0xC#4 ≤ fieldOP c then .reservedOpcode else .reservedBit, ?_⟩
  simp only [decode, hfind]

theorem isIllegal_of_decode_error {c : Word} {e : Illegal} (h : decode c = .error e) (s : State) :
    IsIllegal c s :=
  ⟨_, runWord_of_decode_error h s, raise_endsInError .ill c s⟩

/-- A word whose format is legal matches the row of its `OP` (R62, R65). -/
theorem exists_row_of_formatLegal {c : Word} (h : FormatLegal c) :
    ∃ r ∈ opcodeMap, r.matches c = true := by
  have hlt := c.isLt
  simp only [FormatLegal, toNat_field, field_eq_zero_iff] at h
  rcases h with h | h | h | h | h | h | h | h | h | h | h | h
  · exact ⟨_, List.mem_of_getElem? (i := 0) rfl, (nop_matches_iff c).2 (by omega)⟩
  · exact ⟨_, List.mem_of_getElem? (i := 1) rfl, (calld_matches_iff c).2 (by omega)⟩
  · exact ⟨_, List.mem_of_getElem? (i := 2) rfl, (pair_matches_iff c).2 (by omega)⟩
  · exact ⟨_, List.mem_of_getElem? (i := 3) rfl, (cellv_matches_iff c).2 (by omega)⟩
  · exact ⟨_, List.mem_of_getElem? (i := 4) rfl, (packv_matches_iff c).2 (by omega)⟩
  · exact ⟨_, List.mem_of_getElem? (i := 5) rfl, (tripenc_matches_iff c).2 (by omega)⟩
  · exact ⟨_, List.mem_of_getElem? (i := 6) rfl, (tripdec_matches_iff c).2 (by omega)⟩
  · exact ⟨_, List.mem_of_getElem? (i := 7) rfl, (ccsig_matches_iff c).2 (by omega)⟩
  · exact ⟨_, List.mem_of_getElem? (i := 8) rfl, (temp_matches_iff c).2 (by omega)⟩
  · exact ⟨_, List.mem_of_getElem? (i := 9) rfl, (balsel_matches_iff c).2 (by omega)⟩
  · exact ⟨_, List.mem_of_getElem? (i := 10) rfl, (balupd_matches_iff c).2 (by omega)⟩
  · exact ⟨_, List.mem_of_getElem? (i := 11) rfl, (clrflt_matches_iff c).2 (by omega)⟩

/-! ## A command's word as a number -/

/-- The encoding column of R70: a command's word as the sum of its fields at their places. -/
def encodingSum : Instr → Nat
  | .nop => 0
  | .calld g1 g2 ot => 0x10000000 + g1.toNat * 65536 + g2.toNat * 256 + ot.toNat
  | .pair hi lo => 0x20000000 + hi.toNat * 256 + lo.toNat
  | .cellv hi lo => 0x30000000 + hi.toNat * 256 + lo.toNat
  | .packv hi lo => 0x40000000 + hi.toNat * 256 + lo.toNat
  | .tripenc tgt => 0x50000000 + tgt.toNat
  | .tripdec k b => 0x60000000 + k.bit.toNat * 256 + b.toNat
  | .ccsig hi lo => 0x70000000 + hi.toNat * 256 + lo.toNat
  | .temp ch hi lo => 0x80000000 + ch.toNat * 65536 + hi.toNat * 256 + lo.toNat
  | .balsel idx => 0x90000000 + idx.toNat * 256
  | .balupd idx en old => 0xA0000000 + en.toNat * 65536 + idx.toNat * 256 + old.toNat
  | .clrflt => 0xB0000000

/-- The layout of R62 is the sum of R70. -/
theorem toNat_encode (i : Instr) : (encode i).toNat = encodingSum i := by
  cases i <;>
    simp only [encode, encodingSum, toNat_append_add, BitVec.toNat_ofNat, BitVec.toNat_ofBool] <;>
    omega

theorem tripKindBit_fieldK (c : Word) : (fieldK c).bit.toNat = c.toNat / 2 ^ 8 % 2 := by
  rw [fieldK, getLsbD_eq_decide]
  rcases Nat.mod_two_eq_zero_or_one (c.toNat / 2 ^ 8) with h | h <;> rw [h] <;> rfl

theorem toNat_fieldEN (c : Word) : (fieldEN c).toNat = c.toNat / 2 ^ 16 % 2 := by
  rw [fieldEN, getLsbD_eq_decide]
  rcases Nat.mod_two_eq_zero_or_one (c.toNat / 2 ^ 16) with h | h <;> rw [h] <;> rfl

/-- A legal word is the sum of the fields it decodes to: the bits above its operands are its row's. -/
theorem encodingSum_of_decode_ok {c : Word} {i : Instr} (h : decode c = .ok i) :
    encodingSum i = c.toNat := by
  rcases decode_ok_cases h with
      ⟨hhigh, rfl⟩ | ⟨hhigh, rfl⟩ | ⟨hhigh, rfl⟩ | ⟨hhigh, rfl⟩ | ⟨hhigh, rfl⟩ | ⟨hhigh, rfl⟩ |
      ⟨hhigh, rfl⟩ | ⟨hhigh, rfl⟩ | ⟨hhigh, rfl⟩ | ⟨hhigh, rfl⟩ | ⟨hhigh, rfl⟩ | ⟨hhigh, rfl⟩
  all_goals
    simp only [encodingSum, tripKindBit_fieldK, toNat_fieldEN, fieldG1, fieldG2, fieldOT, fieldHI,
      fieldLO, fieldTGT, fieldB, fieldCH, fieldIDX, fieldOLD, toNat_field]
    omega

/-! ## Reading the fields back -/

/-- The operation of a command. -/
def opOf : Instr → Op
  | .nop => .nop
  | .calld _ _ _ => .calld
  | .pair _ _ => .pair
  | .cellv _ _ => .cellv
  | .packv _ _ => .packv
  | .tripenc _ => .tripenc
  | .tripdec _ _ => .tripdec
  | .ccsig _ _ => .ccsig
  | .temp _ _ _ => .temp
  | .balsel _ => .balsel
  | .balupd _ _ _ => .balupd
  | .clrflt => .clrflt

theorem op_eq_of_mnemonic (i : Instr) :
    ∀ r ∈ opcodeMap, r.mnemonic = Laws.EncodingFitsRow.mnemonicOf i → r.op = opOf i := by
  cases i <;> simp only [Laws.EncodingFitsRow.mnemonicOf, opOf] <;> decide

/-- Each command's word fits its row of R65. -/
theorem encodingFitsRow (i : Instr) : Laws.EncodingFitsRow.Statement i := by
  cases i with
  | nop => exact Laws.EncodingFitsRow.nop
  | calld g1 g2 ot => exact Laws.EncodingFitsRow.calld g1 g2 ot
  | pair hi lo => exact Laws.EncodingFitsRow.pair hi lo
  | cellv hi lo => exact Laws.EncodingFitsRow.cellv hi lo
  | packv hi lo => exact Laws.EncodingFitsRow.packv hi lo
  | tripenc tgt => exact Laws.EncodingFitsRow.tripenc tgt
  | tripdec k b => exact Laws.EncodingFitsRow.tripdec k b
  | ccsig hi lo => exact Laws.EncodingFitsRow.ccsig hi lo
  | temp ch hi lo => exact Laws.EncodingFitsRow.temp ch hi lo
  | balsel idx => exact Laws.EncodingFitsRow.balsel idx
  | balupd idx en old => exact Laws.EncodingFitsRow.balupd idx en old
  | clrflt => exact Laws.EncodingFitsRow.clrflt

/-- So a command's word decodes to that command's operation, on the fields at their places. -/
theorem decode_encode_eq_instr (i : Instr) : decode (encode i) = .ok ((opOf i).instr (encode i)) := by
  obtain ⟨r, hr, hname, hmatch⟩ := encodingFitsRow i
  rw [← op_eq_of_mnemonic i r hr hname]
  exact decode_of_matches hr hmatch

theorem field_eq_of_toNat {c : Word} {lo len : Nat} {x : BitVec len}
    (h : c.toNat / 2 ^ lo % 2 ^ len = x.toNat) : c.extractLsb' lo len = x :=
  BitVec.eq_of_toNat_eq ((toNat_field c lo len).trans h)

/-- The two low byte fields of a word, whatever stands above them. -/
theorem lowBytes_of_toNat {c : Word} {high : Nat} {x y : Byte}
    (h : c.toNat = high * 65536 + x.toNat * 256 + y.toNat) :
    c.extractLsb' 8 8 = x ∧ c.extractLsb' 0 8 = y := by
  have hx := x.isLt
  have hy := y.isLt
  exact ⟨field_eq_of_toNat (by omega), field_eq_of_toNat (by omega)⟩

/-- The three byte fields of formats C and T. -/
theorem threeBytes_of_toNat {c : Word} {high : Nat} {x y z : Byte}
    (h : c.toNat = high * 16777216 + x.toNat * 65536 + y.toNat * 256 + z.toNat) :
    c.extractLsb' 16 8 = x ∧ c.extractLsb' 8 8 = y ∧ c.extractLsb' 0 8 = z := by
  have hx := x.isLt
  have hy := y.isLt
  have hz := z.isLt
  have hlow : c.toNat = (high * 256 + x.toNat) * 65536 + y.toNat * 256 + z.toNat := by rw [h]; ring
  exact ⟨field_eq_of_toNat (by omega), lowBytes_of_toNat hlow⟩

theorem fieldK_of_toNat {c : Word} {k : TripKind} (h : c.toNat / 2 ^ 8 % 2 = k.bit.toNat) :
    fieldK c = k := by
  rw [fieldK, getLsbD_eq_decide, h]
  cases k <;> rfl

theorem fieldEN_of_toNat {c : Word} {en : Bool} (h : c.toNat / 2 ^ 16 % 2 = en.toNat) :
    fieldEN c = en := by
  rw [fieldEN, getLsbD_eq_decide, h]
  cases en <;> rfl

/-- The fields of a command's word are its operands (R62 to R64). -/
theorem instr_encode (i : Instr) : (opOf i).instr (encode i) = i := by
  have hsum := toNat_encode i
  cases i with
  | nop => rfl
  | calld g1 g2 ot =>
    obtain ⟨hg1, hg2, hot⟩ := threeBytes_of_toNat (high := 0x10) hsum
    exact congr (congrArg₂ Instr.calld hg1 hg2) hot
  | pair hi lo =>
    obtain ⟨hhi, hlo⟩ := lowBytes_of_toNat (high := 0x2000) hsum
    exact congrArg₂ Instr.pair hhi hlo
  | cellv hi lo =>
    obtain ⟨hhi, hlo⟩ := lowBytes_of_toNat (high := 0x3000) hsum
    exact congrArg₂ Instr.cellv hhi hlo
  | packv hi lo =>
    obtain ⟨hhi, hlo⟩ := lowBytes_of_toNat (high := 0x4000) hsum
    exact congrArg₂ Instr.packv hhi hlo
  | tripenc tgt =>
    have htgt : fieldTGT (encode (.tripenc tgt)) = tgt := by
      have hlt := tgt.isLt
      rw [encodingSum] at hsum
      exact field_eq_of_toNat (by omega)
    exact congrArg Instr.tripenc htgt
  | tripdec k b =>
    have hbit := k.bit.isLt
    have hlt := b.isLt
    rw [encodingSum] at hsum
    have hk : fieldK (encode (.tripdec k b)) = k := fieldK_of_toNat (by omega)
    have hb : fieldB (encode (.tripdec k b)) = b := field_eq_of_toNat (by omega)
    exact congrArg₂ Instr.tripdec hk hb
  | ccsig hi lo =>
    obtain ⟨hhi, hlo⟩ := lowBytes_of_toNat (high := 0x7000) hsum
    exact congrArg₂ Instr.ccsig hhi hlo
  | temp ch hi lo =>
    obtain ⟨hch, hhi, hlo⟩ := threeBytes_of_toNat (high := 0x80) hsum
    exact congr (congrArg₂ Instr.temp hch hhi) hlo
  | balsel idx =>
    obtain ⟨hidx, -⟩ := lowBytes_of_toNat (high := 0x9000) (y := 0#8) hsum
    exact congrArg Instr.balsel hidx
  | balupd idx en old =>
    have hltIdx := idx.isLt
    have hltEn := en.toNat_lt
    have hltOld := old.isLt
    rw [encodingSum] at hsum
    have hen : fieldEN (encode (.balupd idx en old)) = en := fieldEN_of_toNat (by omega)
    obtain ⟨hidx, hold⟩ := lowBytes_of_toNat (high := 0xA000 + en.toNat) (x := idx) (y := old)
      (c := encode (.balupd idx en old)) (by omega)
    exact congr (congrArg₂ Instr.balupd hidx hen) hold
  | clrflt => rfl

/-! ## The assembler: what fits -/

@[simp] theorem fitsByte_iff (n : Nat) : fitsByte n = true ↔ n < 256 := decide_eq_true_iff
@[simp] theorem fitsRaw_iff (n : Nat) : fitsRaw n = true ↔ n < 65536 := decide_eq_true_iff
@[simp] theorem fitsTarget_iff (n : Nat) : fitsTarget n = true ↔ n < 16777216 := decide_eq_true_iff
@[simp] theorem fitsBit_iff (n : Nat) : fitsBit n = true ↔ n < 2 := decide_eq_true_iff
@[simp] theorem fitsSignedByte_iff (x : Int) : fitsSignedByte x = true ↔ -128 ≤ x ∧ x < 256 := by
  simp [fitsSignedByte]

/-- A raw operand that fits has two bytes that fit. -/
theorem fitsRaw_eq_and_bytes (raw : Nat) :
    fitsRaw raw = (fitsRaw raw && (fitsByte (raw / 256) && fitsByte (raw % 256))) := by
  rw [Bool.eq_iff_iff]
  simp only [Bool.and_eq_true, fitsByte_iff, fitsRaw_iff]
  omega

/-- The volts of a whole number of microvolts fit as that number does (R71). -/
theorem fitsVolts_of_eq {digits places tgt : Nat} (h : digits * 1000000 = tgt * 10 ^ places) :
    fitsVolts digits places = fitsTarget tgt := by
  have hpos : 0 < 10 ^ places := by positivity
  simp [fitsVolts, h, Nat.mul_div_cancel _ hpos]

theorem fitsVolts_of_not_dvd {digits places : Nat} (h : ¬ 10 ^ places ∣ digits * 1000000) :
    fitsVolts digits places = false := by
  rw [Nat.dvd_iff_mod_eq_zero] at h
  simp [fitsVolts, h]

/-! ## The assembler: the words of R70 -/

/-- How a row of R70 is read off the model: its bounds are the statement's fit, its number the sum of the
statement's command. -/
theorem assemble_eq_ite {a : Asm} {p : Prop} [Decidable p] {n : Nat}
    (hfit : a.wellFormed = true ↔ p) (hsum : p → encodingSum a.expand = n) :
    assemble a = if p then some (BitVec.ofNat 32 n) else none := by
  unfold assemble
  by_cases hp : p
  · rw [if_pos (hfit.2 hp), if_pos hp, ← hsum hp, ← toNat_encode, BitVec.ofNat_toNat,
      BitVec.setWidth_eq]
  · rw [if_neg (mt hfit.1 hp), if_neg hp]

theorem toNat_ofNat_byte {n : Nat} (h : n < 256) : (BitVec.ofNat 8 n).toNat = n :=
  (BitVec.toNat_ofNat n 8).trans (Nat.mod_eq_of_lt h)

/-- A signed byte is encoded modulo 256. -/
theorem toNat_ofInt_byte (x : Int) : (BitVec.ofInt 8 x).toNat = (x % 256).toNat := by
  simp [BitVec.toNat_ofInt]

theorem assemble_calld (g1 g2 : Nat) (ot : Int) : assemble (.calld g1 g2 ot) =
    if g1 < 256 ∧ g2 < 256 ∧ -128 ≤ ot ∧ ot < 256 then
      some (BitVec.ofNat 32 (0x10000000 + g1 * 65536 + g2 * 256 + (ot % 256).toNat)) else none := by
  refine assemble_eq_ite (by simp [Asm.wellFormed, and_assoc]) ?_
  rintro ⟨hg1, hg2, -⟩
  simp only [Asm.expand, encodingSum, toNat_ofNat_byte hg1, toNat_ofNat_byte hg2,
    toNat_ofInt_byte]

/-- The four commands of format P, which differ in `OP` alone. -/
theorem assemble_formatP {a : Asm} {base hi lo : Nat}
    (hfit : a.wellFormed = (fitsByte hi && fitsByte lo))
    (hsum : encodingSum a.expand =
      base + (BitVec.ofNat 8 hi).toNat * 256 + (BitVec.ofNat 8 lo).toNat) :
    assemble a =
      if hi < 256 ∧ lo < 256 then some (BitVec.ofNat 32 (base + hi * 256 + lo)) else none := by
  refine assemble_eq_ite (by simp [hfit]) ?_
  rintro ⟨hhi, hlo⟩
  rw [hsum, toNat_ofNat_byte hhi, toNat_ofNat_byte hlo]

theorem assemble_tripenc (tgt : Nat) : assemble (.tripenc tgt) =
    if tgt < 16777216 then some (BitVec.ofNat 32 (0x50000000 + tgt)) else none := by
  refine assemble_eq_ite (by simp [Asm.wellFormed]) fun htgt => ?_
  rw [Asm.expand, encodingSum, BitVec.toNat_ofNat, Nat.mod_eq_of_lt htgt]

theorem assemble_tripdec (k : TripKind) (b : Nat) : assemble (.tripdec k b) =
    if b < 256 then some (BitVec.ofNat 32 (0x60000000 + k.bit.toNat * 256 + b)) else none := by
  refine assemble_eq_ite (by simp [Asm.wellFormed]) fun hb => ?_
  simp only [Asm.expand, encodingSum, toNat_ofNat_byte hb]

theorem assemble_temp_number (ch hi lo : Nat) : assemble (.temp (.number ch) hi lo) =
    if ch < 256 ∧ hi < 256 ∧ lo < 256 then
      some (BitVec.ofNat 32 (0x80000000 + ch * 65536 + hi * 256 + lo)) else none := by
  refine assemble_eq_ite (by simp [Asm.wellFormed, AsmChannel.fits, and_assoc]) ?_
  rintro ⟨hch, hhi, hlo⟩
  simp only [Asm.expand, AsmChannel.code, encodingSum, toNat_ofNat_byte hch,
    toNat_ofNat_byte hhi, toNat_ofNat_byte hlo]

theorem assemble_balsel (idx : Nat) : assemble (.balsel idx) =
    if idx < 256 then some (BitVec.ofNat 32 (0x90000000 + idx * 256)) else none := by
  refine assemble_eq_ite (by simp [Asm.wellFormed]) fun hidx => ?_
  simp only [Asm.expand, encodingSum, toNat_ofNat_byte hidx]

theorem toNat_beq_one {en : Nat} (h : en < 2) : (en == 1).toNat = en := by
  obtain rfl | rfl : en = 0 ∨ en = 1 := by omega
  · rfl
  · rfl

theorem assemble_balupd (idx en old : Nat) : assemble (.balupd idx en old) =
    if idx < 256 ∧ en < 2 ∧ old < 256 then
      some (BitVec.ofNat 32 (0xA0000000 + en * 65536 + idx * 256 + old)) else none := by
  refine assemble_eq_ite (by simp [Asm.wellFormed, and_assoc]) ?_
  rintro ⟨hidx, hen, hold⟩
  simp only [Asm.expand, encodingSum, toNat_ofNat_byte hidx, toNat_beq_one hen,
    toNat_ofNat_byte hold]

/-! ## The assembler: the expansions of R71 -/

/-- Two statements that fit alike and stand for one command assemble alike. -/
theorem assemble_congr {a b : Asm} (hfit : a.wellFormed = b.wellFormed)
    (hexpand : a.expand = b.expand) : assemble a = assemble b := by
  rw [assemble, assemble, hfit, hexpand]

theorem assemble_of_not_wellFormed {a : Asm} (h : a.wellFormed = false) : assemble a = none := by
  simp [assemble, h]

/-- A statement on a raw operand is the statement on its two bytes where the operand fits. -/
theorem assemble_raw {a b : Asm} {raw : Nat} (hfit : a.wellFormed = (fitsRaw raw && b.wellFormed))
    (hexpand : a.expand = b.expand) :
    assemble a = if raw < 65536 then assemble b else none := by
  by_cases h : raw < 65536
  · rw [if_pos h]
    exact assemble_congr (by rw [hfit, (fitsRaw_iff raw).2 h, Bool.true_and]) hexpand
  · rw [if_neg h]
    exact assemble_of_not_wellFormed (by simp [hfit, h])

theorem rawLow_eq (raw : Nat) : rawLow raw = BitVec.ofNat 8 (raw % 256) := by
  apply BitVec.eq_of_toNat_eq
  simp [rawLow]

theorem assemble_tempRaw (ch : AsmChannel) (raw : Nat) : assemble (.tempRaw ch raw) =
    if raw < 65536 then assemble (.temp ch (raw / 256) (raw % 256)) else none := by
  refine assemble_raw ?_ (congrArg (Instr.temp _ (rawHigh raw)) (rawLow_eq raw))
  calc (ch.fits && fitsRaw raw)
      _ = (ch.fits && (fitsRaw raw && (fitsByte (raw / 256) && fitsByte (raw % 256)))) := by
        rw [← fitsRaw_eq_and_bytes]
      _ = (fitsRaw raw && (ch.fits && fitsByte (raw / 256) && fitsByte (raw % 256))) := by
        rw [Bool.and_left_comm, Bool.and_assoc]

theorem assemble_tripencVolts {digits places tgt : Nat}
    (h : digits * 1000000 = tgt * 10 ^ places) :
    assemble (.tripencVolts digits places) = assemble (.tripenc tgt) := by
  have hpos : 0 < 10 ^ places := by positivity
  refine assemble_congr (fitsVolts_of_eq h) ?_
  simp only [Asm.expand, h, Nat.mul_div_cancel _ hpos]

/-! ## The obligations -/

/-- Settles O1: the word fits its command's row, and the row's fields of it are the operands. -/
theorem decodeOfEncode : Obligations.DecodeOfEncode := by
  intro i
  rw [decode_encode_eq_instr, instr_encode]

/-- Settles O2: both words are R70's sum of the command's fields. -/
theorem encodeOfDecode : Obligations.EncodeOfDecode := by
  intro c i h
  exact BitVec.eq_of_toNat_eq ((toNat_encode i).trans (encodingSum_of_decode_ok h))

/-- Settles O3: the rows' `OP` tell them apart. -/
theorem decodeFollowsOpcodeMap : Obligations.DecodeFollowsOpcodeMap := by
  refine ⟨fun c => ⟨decode_of_masked_eq 0 rfl, decode_of_masked_eq 1 rfl, decode_of_masked_eq 2 rfl,
    decode_of_masked_eq 3 rfl, decode_of_masked_eq 4 rfl, decode_of_masked_eq 5 rfl,
    decode_of_masked_eq 6 rfl, decode_of_masked_eq 7 rfl, decode_of_masked_eq 8 rfl,
    decode_of_masked_eq 9 rfl, decode_of_masked_eq 10 rfl, decode_of_masked_eq 11 rfl⟩,
    ?_, ?_, ?_, ?_⟩
  · exact fun c r hr h => decode_of_matches hr h
  · exact fun c r hr r' hr' h h' => row_eq_of_matches hr hr' h h'
  · intro c s h
    obtain ⟨e, he⟩ := decode_error_of_no_match h
    exact ⟨⟨e, he⟩, isIllegal_of_decode_error he s⟩
  · exact fun c i s h => runWord_of_decode_ok h s

/-- Settles O4: a legal format is one that a row of the opcode map matches. -/
theorem legalWordIffReservedBitsZero : Obligations.LegalWordIffReservedBitsZero := by
  intro c s
  refine ⟨⟨fun ⟨_, h⟩ => formatLegal_of_decode_ok h, fun h => ?_⟩,
    fun h => isIllegal_of_not_formatLegal h s⟩
  obtain ⟨r, hr, hmatch⟩ := exists_row_of_formatLegal h
  exact ⟨_, decode_of_matches hr hmatch⟩

/-- Every word of the assembler is legal, being the word of a command. -/
theorem assemble_legal {a : Asm} {w : Word} (h : assemble a = some w) :
    FormatLegal w ∧ decode w = .ok a.expand := by
  unfold assemble at h
  split at h
  · obtain rfl := Option.some.inj h
    have hd := decodeOfEncode a.expand
    exact ⟨formatLegal_of_decode_ok hd, hd⟩
  · cases h

/-- Settles O7, clause by clause: R70's rows, R71's expansions, and no illegal word by O1. -/
theorem assemblerEmitsLegalWords : Obligations.AssemblerEmitsLegalWords := by
  refine ⟨rfl, assemble_calld,
    fun _ _ => assemble_formatP rfl rfl,
    fun _ _ => assemble_formatP rfl rfl,
    fun _ _ => assemble_formatP rfl rfl,
    assemble_tripenc,
    fun b => ⟨assemble_tripdec .under b, assemble_tripdec .over b⟩,
    fun _ _ => assemble_formatP rfl rfl,
    assemble_temp_number,
    fun _ _ => ⟨rfl, rfl, rfl, rfl⟩,
    assemble_balsel, assemble_balupd, rfl,
    fun raw => ?raws,
    assemble_tempRaw,
    fun _ _ => rfl,
    fun idx old => ?balset,
    fun _ _ _ h => assemble_tripencVolts h,
    fun _ _ h => assemble_of_not_wellFormed (fitsVolts_of_not_dvd h),
    fun _ _ h => assemble_legal h⟩
  case raws =>
    have hfit := fitsRaw_eq_and_bytes raw
    have hlow := rawLow_eq raw
    exact ⟨assemble_raw hfit (congrArg (Instr.pair (rawHigh raw)) hlow),
      assemble_raw hfit (congrArg (Instr.cellv (rawHigh raw)) hlow),
      assemble_raw hfit (congrArg (Instr.packv (rawHigh raw)) hlow),
      assemble_raw hfit (congrArg (Instr.ccsig (rawHigh raw)) hlow)⟩
  case balset =>
    have hfit : (fitsByte idx && fitsByte old) = (fitsByte idx && true && fitsByte old) := by
      rw [Bool.and_true]
    exact ⟨assemble_congr hfit rfl, assemble_congr hfit rfl⟩

/-- Settles O5: no format has a reserved `OP`. -/
theorem reservedOpcodeEndsInEIll : Obligations.ReservedOpcodeEndsInEIll := by
  intro c s hop
  refine isIllegal_of_not_formatLegal (fun h => ?_) s
  simp only [FormatLegal] at h
  omega

/-- Settles O6. -/
theorem workedEncodings : Obligations.WorkedEncodings := by
  unfold Obligations.WorkedEncodings
  decide

end Sys2Proof.Machine
end

section
/-! PROOFS. PAIR (40_pair_extract.md R100): it cannot fail, and the field it stores fits `RES` unmasked, so
that the signed register reads as the unsigned `256*HI + LO`. -/

namespace Sys2Proof.Machine

/-- A command whose meaning hands numbers that fit the registers to the ending yields them (R202). -/
theorem yields_of_exec_eq {i : Instr} {s : State} {v : Int} {a : Nat}
    (hexec : exec i s = complete (encode i) (.ok (Result.store v a)) s)
    (hlow : -2147483648 ≤ v) (hhigh : v < 2147483648) (ha : a < 65536) : Yields i s v a :=
  ⟨_, hexec, succeed_store s v a hlow hhigh ha⟩

/-- A word of PAIR's `OP` has a legal format only with its twelve reserved bits 0 (R62). -/
theorem FormatLegal.pair_reserved {c : Word} (h : FormatLegal c) (hop : c.extractLsb' 28 4 = 0x2#4) :
    c.extractLsb' 16 12 = 0#12 := by
  simpa [FormatLegal, hop] using h

/-- Settles O20: the stored field is below `2 ^ 16`, and no other `OP`'s format admits the illegal word. -/
theorem pairCombinesBytes : Obligations.PairCombinesBytes := by
  refine ⟨fun hi lo s => ?field, fun c s hop hreserved => ?illegal⟩
  case field =>
    have hlt := rawNat_lt hi lo
    have hfield : ((rawOf hi lo).toNat : Int) = hi.toNat * 256 + lo.toNat := by
      rw [rawOf_toNat, rawNat]; push_cast; rfl
    have hexec : exec (.pair hi lo) s = execPair hi lo s := rfl
    rw [execPair, hfield] at hexec
    rw [rawNat] at hlt
    exact yields_of_exec_eq hexec (by omega) (by omega) (by norm_num)
  case illegal =>
    exact isIllegal_of_not_formatLegal (fun h => hreserved (h.pair_reserved hop)) s

end Sys2Proof.Machine
end

section
/-! PROOFS. CALLD (41_calibration.md): its next state is written out once, and of the old state it keeps only
`FLT`, `ECMD` and the inputs. CALLD changes none of these, so a second one with the same operands changes
nothing. The trim is two digits, `G1[3:2]` eights and `G2[7:5]` ones, so it determines both fields. -/

namespace Sys2Proof.Machine

/-! ## The trim as a number of two digits (R110) -/

/-- The used bits of the two trim bytes and the trim determine each other. -/
theorem gainTrim_eq_iff (g1 g2 g1' g2' : Byte) :
    gainTrim g1 g2 = gainTrim g1' g2' ↔
      g1.extractLsb' 2 2 = g1'.extractLsb' 2 2 ∧ g2.extractLsb' 5 3 = g2'.extractLsb' 5 3 := by
  have hones := (g2.extractLsb' 5 3).isLt
  have hones' := (g2'.extractLsb' 5 3).isLt
  simp only [BitVec.toNat_eq, gainTrim_toNat]
  omega

/-- Every number below 32 is a trim: its eights stand in `G1[3:2]` and its ones in `G2[7:5]`. -/
theorem gainTrim_of_digits {n : Nat} (h : n ≤ 31) :
    (gainTrim (BitVec.ofNat 8 (n / 8 * 4)) (BitVec.ofNat 8 (n % 8 * 32))).toNat = n := by
  simp only [gainTrim_toNat, BitVec.extractLsb'_toNat, Nat.shiftRight_eq_div_pow, BitVec.toNat_ofNat]
  omega

/-! ## The next state of CALLD (R113) -/

/-- What CALLD makes of a state: four registers written from the operands, and `STATUS` with the old `FLT`. -/
def afterCalld (g1 g2 ot : Byte) (s : State) : State :=
  { s with
    gain := gainOf (gainTrim g1 g2)
    offs := ot
    res := BitVec.ofInt 32 (gainTrim g1 g2).toNat
    aux := 0#16
    status := packStatus 0#4 s.flt true }

theorem exec_calld (g1 g2 ot : Byte) (s : State) :
    exec (.calld g1 g2 ot) s = .next (afterCalld g1 g2 ot s) := by
  have hflt := loadCalibration_flt (gainOf (gainTrim g1 g2)) ot s
  have hcalv := loadCalibration_calv (gainOf (gainTrim g1 g2)) ot s
  exact congrArg₂ (fun flt calv =>
    (.next { afterCalld g1 g2 ot s with status := packStatus 0#4 flt calv } : Outcome)) hflt hcalv

theorem afterCalld_gain (g1 g2 ot : Byte) (s : State) :
    (afterCalld g1 g2 ot s).gain.toNat = 365 + (gainTrim g1 g2).toNat :=
  gainOf_toNat (gainTrim_le g1 g2)

theorem afterCalld_res (g1 g2 ot : Byte) (s : State) :
    (afterCalld g1 g2 ot s).res.toInt = (gainTrim g1 g2).toNat := by
  have htrim := gainTrim_le g1 g2
  exact (succeed_store s (gainTrim g1 g2).toNat 0 (by omega) (by omega) (by norm_num)).1

theorem afterCalld_flt (g1 g2 ot : Byte) (s : State) : (afterCalld g1 g2 ot s).flt = s.flt :=
  packStatus_flt 0#4 s.flt true

theorem afterCalld_calv (g1 g2 ot : Byte) (s : State) : (afterCalld g1 g2 ot s).calv = true :=
  packStatus_calv 0#4 s.flt true

theorem afterCalld_status (g1 g2 ot : Byte) (s : State) :
    StatusIs (afterCalld g1 g2 ot s) 0 s.flt true :=
  ⟨congrArg BitVec.toNat (packStatus_err 0#4 s.flt true), afterCalld_flt g1 g2 ot s,
    afterCalld_calv g1 g2 ot s, packStatus_reserved 0#4 s.flt true⟩

/-- CALLD is idempotent (R116): of what it writes only `STATUS` depends on the old state, and there only on
`FLT`, which it keeps. -/
theorem afterCalld_idempotent (g1 g2 ot : Byte) (s : State) :
    afterCalld g1 g2 ot (afterCalld g1 g2 ot s) = afterCalld g1 g2 ot s := by
  have hstatus : packStatus 0#4 (afterCalld g1 g2 ot s).flt true = packStatus 0#4 s.flt true := by
    rw [afterCalld_flt]
  exact congrArg (fun status => { afterCalld g1 g2 ot s with status }) hstatus

/-! ## The obligations -/

/-- A word of CALLD's `OP` has a legal format only with its four reserved bits 0 (R62). -/
theorem FormatLegal.calld_reserved {c : Word} (h : FormatLegal c)
    (hop : c.extractLsb' 28 4 = 0x1#4) : c.extractLsb' 24 4 = 0#4 := by
  simpa [FormatLegal, hop] using h

/-- Settles O17: the next state is `afterCalld`, and no other `OP`'s format admits the illegal word. -/
theorem calldLoadsCalibration : Obligations.CalldLoadsCalibration := by
  refine ⟨fun g1 g2 ot s => ⟨afterCalld g1 g2 ot s, exec_calld g1 g2 ot s, ⟨?gain, ?res⟩, rfl, rfl,
    afterCalld_status g1 g2 ot s, rfl⟩, fun c s hop hreserved => ?illegal⟩
  case gain => rw [afterCalld_gain, gainTrim_toNat]
  case res => rw [afterCalld_res, gainTrim_toNat, Nat.cast_add, Nat.cast_mul, Nat.cast_ofNat]
  case illegal =>
    exact isIllegal_of_not_formatLegal (fun h => hreserved (h.calld_reserved hop)) s

/-- Settles O18: the ranges come from those of the trim and of a signed byte, the rest from idempotence of
`afterCalld` and from the digits of the trim. -/
theorem calldLaws : Obligations.CalldLaws := by
  refine ⟨fun g1 g2 ot s t ht => ?state, fun n hn => ⟨_, _, gainTrim_of_digits hn⟩,
    gainTrim_eq_iff, gainTrim_le⟩
  case state =>
    obtain rfl : afterCalld g1 g2 ot s = t := by simpa [exec_calld] using ht
    have htrim := gainTrim_le g1 g2
    have hgain := afterCalld_gain g1 g2 ot s
    have hres := afterCalld_res g1 g2 ot s
    obtain ⟨hoffsLow, hoffsHigh⟩ := offsInt_range (afterCalld g1 g2 ot s)
    refine ⟨by omega, by omega, hoffsLow, hoffsHigh, by omega, afterCalld_calv g1 g2 ot s, ?_⟩
    rw [exec_calld, afterCalld_idempotent]

end Sys2Proof.Machine
end

section
/-! PROOFS. Voltage conversion (42_voltage.md). Each command's endings are said once, in the model's own terms:
the operands it yields a result for and the ones it refuses. The ranges are those of the gain times a 14-bit
field. The trip laws rest on the trip field being `prefix : byte : nibble` (R127): the field of a decoded byte
divides back to itself, and a quotient differs from the field of its byte in prefix and nibble alone. -/

namespace Sys2Proof.Machine

/-! ## What an ending tells about the next state -/

/-- The next state is the one that the yielded result describes. -/
theorem Yields.succeeds {i : Instr} {s t : State} {v : Int} {a : Nat} (h : Yields i s v a)
    (ht : exec i s = .next t) : Succeeds s t v a := by
  obtain ⟨t', ht', hsucceeds⟩ := h
  obtain rfl : t = t' := by simpa [ht'] using ht.symm
  exact hsucceeds

theorem Refuses.err_eq {i : Instr} {s t : State} {e : Nat} (h : Refuses i s e)
    (ht : exec i s = .next t) : t.err.toNat = e := by
  obtain ⟨t', ht', ⟨herr, -⟩, -⟩ := h
  obtain rfl : t = t' := by simpa [ht'] using ht.symm
  exact herr

/-- A command that is refused on `s` does not succeed on it (R200). -/
theorem Refuses.not_success {i : Instr} {s t : State} {e : Nat} (h : Refuses i s e) (he : e ≠ 0)
    (ht : exec i s = .next t) (herr : t.err = 0#4) : False :=
  he (by rw [← h.err_eq ht, herr]; rfl)

theorem Succeeds.err_eq_zero {s t : State} {v : Int} {a : Nat} (h : Succeeds s t v a) :
    t.err = 0#4 := by
  obtain ⟨-, -, ⟨herr, -⟩, -⟩ := h
  exact BitVec.eq_of_toNat_eq herr

/-- A command that writes results leaves the calibration as it was. -/
theorem Succeeds.calibration {s t : State} {v : Int} {a : Nat} (h : Succeeds s t v a) :
    t.gain = s.gain ∧ t.offs = s.offs ∧ t.calv = s.calv := by
  obtain ⟨-, -, ⟨-, -, hcalv, -⟩, hframe⟩ := h
  exact ⟨by rw [hframe], by rw [hframe], hcalv⟩

/-! ## Refusals -/

/-- A command whose meaning hands an error to the ending is refused (R201). -/
theorem refuses_of_exec_eq {i : Instr} {s : State} {e : ErrorCode}
    (hexec : exec i s = complete (encode i) (.error e) s) : Refuses i s e.code.toNat :=
  ⟨_, hexec, raise_endsInError e (encode i) s⟩

/-- A command that requires a calibration ends in `E_NOCAL` without one, whatever its rule makes of the
operands (R120, R203). -/
theorem refuses_uncalibrated {i : Instr} {s : State} {r : Except ErrorCode Result}
    (hexec : exec i s = complete (encode i) (requireCalibration s r) s) (hc : s.calv = false) :
    Refuses i s 2 := by
  rw [requireCalibration_false hc] at hexec
  exact refuses_of_exec_eq hexec

/-! ## Ranges of the formulas -/

/-- A gain that CALLD can load (R111), as the integer the formulas use. -/
theorem gainInt_legal {s : State} (hlow : 365 ≤ s.gain.toNat) (hhigh : s.gain.toNat ≤ 396) :
    365 ≤ s.gainInt ∧ s.gainInt ≤ 396 :=
  ⟨Int.ofNat_le.2 hlow, Int.ofNat_le.2 hhigh⟩

/-- Bounds of the gain give bounds of a field times the gain. -/
theorem mul_gainInt_range {s : State} {low high : Int} (h : low ≤ s.gainInt ∧ s.gainInt ≤ high)
    (raw : Nat) : raw * low ≤ raw * s.gainInt ∧ raw * s.gainInt ≤ raw * high :=
  ⟨mul_le_mul_of_nonneg_left h.1 (Int.natCast_nonneg raw),
    mul_le_mul_of_nonneg_left h.2 (Int.natCast_nonneg raw)⟩

/-- The range of the cell formula for a field, from bounds of the gain (R121). -/
theorem linearMicrovolts_range {s : State} {low high : Int} (h : low ≤ s.gainInt ∧ s.gainInt ≤ high)
    (raw : Nat) :
    raw * low - 128000 ≤ linearMicrovolts raw s ∧
      linearMicrovolts raw s ≤ raw * high + 127000 := by
  have hmul := mul_gainInt_range h raw
  have hoffs := offsInt_range s
  unfold linearMicrovolts
  omega

/-- The cell voltage is the zero case or the formula on a field of at least 1 (R121, R122). -/
theorem cellMicrovolts_cases (raw : Nat) (s : State) :
    cellMicrovolts raw s = 0 ∨ 1 ≤ raw ∧ cellMicrovolts raw s = linearMicrovolts raw s := by
  cases raw with
  | zero => exact .inl rfl
  | succ n => exact .inr ⟨by omega, if_neg n.succ_ne_zero⟩

theorem numCells_mul_offsInt_range (s : State) :
    -1920 ≤ numCells * s.offsInt ∧ numCells * s.offsInt ≤ 1905 := by
  obtain ⟨hlow, hhigh⟩ := offsInt_range s
  have hcells := numCells_range
  constructor <;> nlinarith

/-- The range of the pack voltage for a field, from bounds of the gain, for the largest pack (R123). -/
theorem packMicrovolts_range {s : State} {low high : Int} (h : low ≤ s.gainInt ∧ s.gainInt ≤ high)
    (raw : Nat) :
    4 * (raw * low) - 1920000 ≤ packMicrovolts numCells raw s ∧
      packMicrovolts numCells raw s ≤ 4 * (raw * high) + 1905000 := by
  have hmul := mul_gainInt_range h raw
  have hoffs := numCells_mul_offsInt_range s
  have heq : packMicrovolts numCells raw s =
      4 * (raw * s.gainInt) + 1000 * (numCells * s.offsInt) := by
    unfold packMicrovolts; ring
  omega

/-! ## CELLV and PACKV -/

theorem raw14_of_le {hi lo : Byte} (h : rawNat hi lo ≤ 0x3FFF) :
    raw14 hi lo = .ok (rawNat hi lo) := by
  rw [raw14_eq, if_pos h]

theorem raw14_of_gt {hi lo : Byte} (h : 0x3FFF < rawNat hi lo) : raw14 hi lo = .error .raw14 := by
  rw [raw14_eq, if_neg (Nat.not_le.2 h)]

theorem cellv_yields {hi lo : Byte} {s : State} (hc : s.calv = true)
    (hraw : rawNat hi lo ≤ 0x3FFF) :
    Yields (.cellv hi lo) s (cellMicrovolts (rawNat hi lo) s) 0 := by
  have hexec : exec (.cellv hi lo) s = execCellv hi lo s := rfl
  rw [execCellv, cellvResult, requireCalibration_true hc, raw14_of_le hraw] at hexec
  have hcases := cellMicrovolts_cases (rawNat hi lo) s
  have hrange := linearMicrovolts_range (gainInt_range s) (rawNat hi lo)
  exact yields_of_exec_eq hexec (by omega) (by omega) (by norm_num)

theorem cellv_refuses_raw14 {hi lo : Byte} {s : State} (hc : s.calv = true)
    (hraw : 0x3FFF < rawNat hi lo) : Refuses (.cellv hi lo) s 3 := by
  have hexec : exec (.cellv hi lo) s = execCellv hi lo s := rfl
  rw [execCellv, cellvResult, requireCalibration_true hc, raw14_of_gt hraw] at hexec
  exact refuses_of_exec_eq hexec

theorem packv_yields {hi lo : Byte} {s : State} (hc : s.calv = true)
    (hraw : rawNat hi lo ≤ 0x3FFF) :
    Yields (.packv hi lo) s (packMicrovolts numCells (rawNat hi lo) s) 0 := by
  have hexec : exec (.packv hi lo) s = execPackv hi lo s := rfl
  rw [execPackv, packvResult, requireCalibration_true hc, raw14_of_le hraw] at hexec
  have hrange := packMicrovolts_range (gainInt_range s) (rawNat hi lo)
  exact yields_of_exec_eq hexec (by omega) (by omega) (by norm_num)

theorem packv_refuses_raw14 {hi lo : Byte} {s : State} (hc : s.calv = true)
    (hraw : 0x3FFF < rawNat hi lo) : Refuses (.packv hi lo) s 3 := by
  have hexec : exec (.packv hi lo) s = execPackv hi lo s := rfl
  rw [execPackv, packvResult, requireCalibration_true hc, raw14_of_gt hraw] at hexec
  exact refuses_of_exec_eq hexec

/-- Settles O23: by the size of the raw field; the lowest voltage is that of the field 1, as the field 0 has no
offset. -/
theorem cellvConverts : Obligations.CellvConverts := by
  refine ⟨fun _ _ _ hc hraw => cellv_yields hc hraw, fun _ _ _ hc => refuses_uncalibrated rfl hc,
    fun _ _ _ hc hraw => cellv_refuses_raw14 hc hraw, fun c s hop hreserved => ?illegal,
    fun hi lo s t hc hlow hhigh ht herr => ?range⟩
  case illegal =>
    refine isIllegal_of_not_formatLegal (fun h => hreserved ?_) s
    simpa [FormatLegal, hop] using h
  case range =>
    rcases Nat.lt_or_ge 0x3FFF (rawNat hi lo) with hraw | hraw
    · exact ((cellv_refuses_raw14 hc hraw).not_success (by decide) ht herr).elim
    · obtain ⟨hres, -⟩ := (cellv_yields hc hraw).succeeds ht
      have hcases := cellMicrovolts_cases (rawNat hi lo) s
      have hrange := linearMicrovolts_range (gainInt_legal hlow hhigh) (rawNat hi lo)
      omega

/-- Settles O24: by the size of the raw field, for every `NUM_CELLS` in its range. -/
theorem packvConverts : Obligations.PackvConverts := by
  refine ⟨fun _ _ _ hc hraw => packv_yields hc hraw, fun _ _ _ hc => refuses_uncalibrated rfl hc,
    fun _ _ _ hc hraw => packv_refuses_raw14 hc hraw, fun c s hop hreserved => ?illegal,
    fun hi lo s t hc hlow hhigh ht herr => ?range⟩
  case illegal =>
    refine isIllegal_of_not_formatLegal (fun h => hreserved ?_) s
    simpa [FormatLegal, hop] using h
  case range =>
    rcases Nat.lt_or_ge 0x3FFF (rawNat hi lo) with hraw | hraw
    · exact ((packv_refuses_raw14 hc hraw).not_success (by decide) ht herr).elim
    · obtain ⟨hres, -⟩ := (packv_yields hc hraw).succeeds ht
      have hrange := packMicrovolts_range (gainInt_legal hlow hhigh) (rawNat hi lo)
      omega

/-! ## TRIPENC -/

/-- With a nonzero gain the quotient is R12's truncated division. -/
theorem tripQuotient_eq {s : State} (hgain : s.gain.toNat ≠ 0) (tgt : BitVec 24) :
    tripQuotient tgt s = Int.tdiv (tgt.toNat - 1000 * s.offsInt) s.gainInt :=
  tdiv_of_ne _ (Int.natCast_ne_zero.2 hgain)

theorem tripenc_refuses_range {tgt : BitVec 24} {s : State} (hc : s.calv = true)
    (hq : tripQuotient tgt s < 0 ∨ tripQuotient tgt s > 16383) : Refuses (.tripenc tgt) s 6 := by
  have hexec : exec (.tripenc tgt) s = execTripenc tgt s := rfl
  rw [execTripenc, tripencResult, requireCalibration_true hc, if_pos hq] at hexec
  exact refuses_of_exec_eq hexec

theorem tripenc_yields {tgt : BitVec 24} {s : State} {q : Nat} (hc : s.calv = true)
    (hq : tripQuotient tgt s = q) (hle : q ≤ 16383) :
    Yields (.tripenc tgt) s ((q / 16 % 256 : Nat) : Int) q := by
  have hin : ¬ ((q : Int) < 0 ∨ (q : Int) > 16383) := by omega
  have hfield : (BitVec.ofInt 14 (q : Int)).toNat = q := by
    rw [BitVec.ofInt_natCast, BitVec.toNat_ofNat]; omega
  have hexec : exec (.tripenc tgt) s = execTripenc tgt s := rfl
  rw [execTripenc, tripencResult, requireCalibration_true hc, hq, if_neg hin] at hexec
  dsimp only at hexec
  rw [tripByte_toNat, hfield] at hexec
  exact yields_of_exec_eq hexec (by omega) (by omega) (by omega)

/-- Where TRIPENC succeeds, its quotient is a 14-bit number and its result is that number's byte. -/
theorem tripenc_succeeds {tgt : BitVec 24} {s t : State} (hc : s.calv = true)
    (ht : exec (.tripenc tgt) s = .next t) (herr : t.err = 0#4) :
    ∃ q : Nat, tripQuotient tgt s = q ∧ q ≤ 16383 ∧
      Succeeds s t ((q / 16 % 256 : Nat) : Int) q := by
  by_cases hout : tripQuotient tgt s < 0 ∨ tripQuotient tgt s > 16383
  · exact ((tripenc_refuses_range hc hout).not_success (by decide) ht herr).elim
  · obtain ⟨q, hq⟩ := Int.eq_ofNat_of_zero_le (a := tripQuotient tgt s) (by omega)
    have hle : q ≤ 16383 := by omega
    exact ⟨q, hq, hle, (tripenc_yields hc hq hle).succeeds ht⟩

/-- Settles O25: the range check is on the truncated quotient, as the gain is not 0. -/
theorem tripencEncodes : Obligations.TripencEncodes := by
  have hne {s : State} (h : s.gain ≠ 0#9) : s.gain.toNat ≠ 0 := fun h0 =>
    h (BitVec.eq_of_toNat_eq h0)
  refine ⟨fun tgt s q hc hgain hq hle => ?_, fun tgt s hc hgain hout => ?_,
    fun _ _ hc => refuses_uncalibrated rfl hc, fun c s hop hreserved => ?illegal⟩
  · exact tripenc_yields hc ((tripQuotient_eq (hne hgain) tgt).trans hq) hle
  · refine tripenc_refuses_range hc ?_
    rw [tripQuotient_eq (hne hgain)]
    exact hout
  case illegal =>
    refine isIllegal_of_not_formatLegal (fun h => hreserved ?_) s
    simpa [FormatLegal, hop] using h

/-! ## TRIPDEC -/

/-- The layout of R127. -/
theorem tripField_eq_append (k : TripKind) (b : Byte) :
    tripField k b = tripPrefix k ++ b ++ BitVec.ofNat 4 (tripNibble k) := by
  cases k <;> revert b <;> decide

/-- The layout of R127 as a number. -/
theorem tripField_toNat (k : TripKind) (b : Byte) :
    (tripField k b).toNat = (tripPrefix k).toNat * 4096 + 16 * b.toNat + tripNibble k := by
  match k with
  | .over =>
    have hprefix : (tripPrefix .over).toNat = 2 := rfl
    rw [tripField_over, hprefix, tripNibble]; omega
  | .under =>
    have hprefix : (tripPrefix .under).toNat = 1 := rfl
    rw [tripField_under, hprefix, tripNibble]; omega

theorem tripField_range (k : TripKind) (b : Byte) :
    4096 ≤ (tripField k b).toNat ∧ (tripField k b).toNat ≤ 12280 := by
  have hb := b.isLt
  match k with
  | .over => rw [tripField_over]; omega
  | .under => rw [tripField_under]; omega

/-- Bits 11:4 of the trip field are the byte (R127). -/
theorem tripField_byte (k : TripKind) (b : Byte) : (tripField k b).toNat / 16 % 256 = b.toNat := by
  have hb := b.isLt
  match k with
  | .over => rw [tripField_over]; omega
  | .under => rw [tripField_under]; omega

theorem tripdec_yields {s : State} (hc : s.calv = true) (k : TripKind) (b : Byte) :
    Yields (.tripdec k b) s (linearMicrovolts (tripField k b).toNat s) (tripField k b).toNat := by
  have hexec : exec (.tripdec k b) s = execTripdec k b s := rfl
  rw [execTripdec, tripdecResult, requireCalibration_true hc] at hexec
  have hrange := linearMicrovolts_range (gainInt_range s) (tripField k b).toNat
  have hfield := tripField_range k b
  exact yields_of_exec_eq hexec (by omega) (by omega) (by omega)

/-- The range of R126, with a gain that CALLD can load. -/
theorem tripVoltage_range {s : State} (hlow : 365 ≤ s.gain.toNat) (hhigh : s.gain.toNat ≤ 396)
    (k : TripKind) (b : Byte) :
    1367040 ≤ linearMicrovolts (tripField k b).toNat s ∧
      linearMicrovolts (tripField k b).toNat s ≤ 4989880 := by
  have hrange := linearMicrovolts_range (gainInt_legal hlow hhigh) (tripField k b).toNat
  have hfield := tripField_range k b
  omega

/-- Settles O26: the model's field is the concatenation of R127 for each kind. -/
theorem tripdecDecodes : Obligations.TripdecDecodes := by
  refine ⟨fun b s hc => ⟨?overvoltage, ?undervoltage⟩, fun _ _ _ hc => refuses_uncalibrated rfl hc,
    fun c s hop hreserved => ?illegal, fun k b s t hc hlow hhigh ht => ?range⟩
  case overvoltage =>
    have hyields := tripdec_yields hc .over b
    rw [tripField_eq_append] at hyields
    exact hyields
  case undervoltage =>
    have hyields := tripdec_yields hc .under b
    rw [tripField_eq_append] at hyields
    exact hyields
  case illegal =>
    refine isIllegal_of_not_formatLegal (fun h => hreserved ?_) s
    simpa [FormatLegal, hop] using h
  case range =>
    obtain ⟨hres, -⟩ := (tripdec_yields hc k b).succeeds ht
    rw [hres]
    exact tripVoltage_range hlow hhigh k b

/-! ## Register to voltage to register -/

/-- The bits of a signed word that holds a natural number are that number's. -/
theorem toNat_of_toInt_eq {w n : Nat} {x : BitVec w} (h : x.toInt = n) : x.toNat = n := by
  rw [BitVec.toInt_eq_toNat_of_lt (BitVec.toInt_pos_iff.1 (by omega))] at h
  exact Int.ofNat_inj.1 h

/-- A natural number in `RES` passes through a field that it fits. -/
theorem setWidth_toNat_of_toInt_eq {v w n : Nat} {x : BitVec v} (h : x.toInt = n) (hn : n < 2 ^ w) :
    (x.setWidth w).toNat = n := by
  rw [BitVec.toNat_setWidth, toNat_of_toInt_eq h, Nat.mod_eq_of_lt hn]

/-- The cell formula on a field divides back to the field: the division leaves no remainder. -/
theorem tripQuotient_linearMicrovolts {s : State} (hgain : s.gain.toNat ≠ 0) {tgt : BitVec 24}
    {raw : Nat} (htgt : (tgt.toNat : Int) = linearMicrovolts raw s) : tripQuotient tgt s = raw := by
  rw [tripQuotient_eq hgain, htgt, linearMicrovolts, Int.add_sub_cancel]
  exact Int.mul_tdiv_cancel _ (Int.natCast_ne_zero.2 hgain)

/-- The calibration enters the cell formula as `GAIN` and `OFFS` alone, which a success keeps. -/
theorem Succeeds.linearMicrovolts_eq {s t : State} {v : Int} {a : Nat} (h : Succeeds s t v a)
    (raw : Nat) : linearMicrovolts raw t = linearMicrovolts raw s := by
  obtain ⟨hgain, hoffs, -⟩ := h.calibration
  rw [linearMicrovolts, linearMicrovolts, State.gainInt, State.offsInt, hgain, hoffs]
  rfl

/-- Settles O27: the decoded voltage is an exact multiple of the gain above the offset, so its quotient is the
decoded field, of which `RES` is the byte. -/
theorem tripRegisterRoundTrip : Obligations.TripRegisterRoundTrip := by
  intro s k b hc hlow hhigh
  obtain ⟨t, ht, htsucc⟩ := tripdec_yields hc k b
  have ⟨htres, htaux, _⟩ := htsucc
  obtain ⟨htgain, -, htcalv⟩ := htsucc.calibration
  obtain ⟨hvlow, hvhigh⟩ := tripVoltage_range hlow hhigh k b
  have hfits : ((t.res.setWidth 24).toNat : Int) = t.res.toInt := by
    obtain ⟨n, hn⟩ := Int.eq_ofNat_of_zero_le (a := t.res.toInt) (by omega)
    rw [hn, setWidth_toNat_of_toInt_eq hn (by omega)]
  have hq : tripQuotient (t.res.setWidth 24) t = (tripField k b).toNat :=
    tripQuotient_linearMicrovolts (by rw [htgain]; omega)
      (by rw [hfits, htres, htsucc.linearMicrovolts_eq])
  have hfield := tripField_range k b
  obtain ⟨u, hu, husucc⟩ := tripenc_yields (htcalv.trans hc) hq (by omega)
  have ⟨hures, huaux, _⟩ := husucc
  refine ⟨t, u, ht, hfits.symm, hu, husucc.err_eq_zero, ?res, ?aux⟩
  case res =>
    apply BitVec.eq_of_toNat_eq
    rw [toNat_of_toInt_eq hures, tripField_byte, BitVec.toNat_setWidth_of_le (by decide)]
  case aux => exact BitVec.eq_of_toNat_eq (huaux.trans htaux.symm)

/-! ## Voltage to register to voltage -/

/-- A truncated quotient leaves a remainder smaller than the divisor in size, and none below 0 for a
positive quotient. -/
theorem tdiv_remainder {a g : Int} (hg : 0 < g) :
    ∃ r, |r| < g ∧ (0 < Int.tdiv a g → 0 ≤ r) ∧ a = Int.tdiv a g * g + r := by
  have hlow := Int.lt_tmod_of_pos a hg
  refine ⟨Int.tmod a g, abs_lt.2 ⟨hlow, Int.tmod_lt_of_pos a hg⟩, fun hq => ?_,
    (Int.tdiv_mul_add_tmod a g).symm⟩
  have hdiv := Int.tdiv_mul_add_tmod a g
  have hstep : g ≤ Int.tdiv a g * g := le_mul_of_one_le_left hg.le hq
  exact Int.tmod_nonneg g (by omega)

/-- A 14-bit number in `AUX` is `prefix : byte : nibble` (R127), so it differs from the field of its byte in
prefix and nibble alone. -/
theorem aux_sub_tripField (k : TripKind) {aux : BitVec 16} {b : Byte} (haux : aux.toNat ≤ 16383)
    (hb : b.toNat = aux.toNat / 16 % 256) :
    (aux.toNat : Int) - (tripField k b).toNat =
      (((aux.extractLsb' 12 2).toNat : Int) - (tripPrefix k).toNat) * 4096 +
        (((aux.extractLsb' 0 4).toNat : Int) - tripNibble k) := by
  rw [tripField_toNat, BitVec.extractLsb'_toNat, BitVec.extractLsb'_toNat,
    Nat.shiftRight_eq_div_pow, Nat.shiftRight_eq_div_pow]
  omega

/-- The difference of R129, whatever the prefix; the remainder is not negative where the quotient has a
nonzero prefix. -/
theorem trip_difference {s t u : State} {k : TripKind} {tgt : BitVec 24} (hc : s.calv = true)
    (hgain : s.gain.toNat ≠ 0) (ht : exec (.tripenc tgt) s = .next t) (herr : t.err = 0#4)
    (hu : exec (.tripdec k (t.res.setWidth 8)) t = .next u) :
    ∃ r : Int, |r| < s.gainInt ∧ ((t.aux.extractLsb' 12 2).toNat ≠ 0 → 0 ≤ r) ∧
      (tgt.toNat : Int) - u.res.toInt =
        (((t.aux.extractLsb' 12 2).toNat : Int) - (tripPrefix k).toNat) * 4096 * s.gainInt +
          (((t.aux.extractLsb' 0 4).toNat : Int) - tripNibble k) * s.gainInt + r := by
  obtain ⟨q, hq, hle, htsucc⟩ := tripenc_succeeds hc ht herr
  have ⟨htres, htaux, _⟩ := htsucc
  have ⟨_, _, htcalv⟩ := htsucc.calibration
  have hbyte := setWidth_toNat_of_toInt_eq (w := 8) htres (by omega)
  rw [← htaux] at hq hle hbyte
  have hfield := aux_sub_tripField k hle hbyte
  have ⟨hures, _⟩ := (tripdec_yields (htcalv.trans hc) k (t.res.setWidth 8)).succeeds hu
  rw [htsucc.linearMicrovolts_eq, linearMicrovolts] at hures
  have hpos : 0 < s.gainInt := by unfold State.gainInt; omega
  obtain ⟨r, hr, hnonneg, hdiv⟩ := tdiv_remainder (a := tgt.toNat - 1000 * s.offsInt) hpos
  rw [← tripQuotient_eq hgain, hq] at hnonneg hdiv
  refine ⟨r, hr, fun hprefix => hnonneg ?_, ?_⟩
  · rw [BitVec.extractLsb'_toNat, Nat.shiftRight_eq_div_pow] at hprefix
    omega
  · linear_combination hdiv - hures + s.gainInt * hfield

/-- A number of steps of `g` and a remainder below one step. -/
theorem steps_add_remainder_range {low d high g r : Int} (hd : low ≤ d ∧ d ≤ high) (hr : 0 ≤ r)
    (hrg : r < g) : low * g ≤ d * g + r ∧ d * g + r < (high + 1) * g := by
  have hg : 0 ≤ g := hr.trans hrg.le
  have hlow := mul_le_mul_of_nonneg_right hd.1 hg
  have hhigh := mul_le_mul_of_nonneg_right hd.2 hg
  rw [add_one_mul]
  exact ⟨by linarith, by linarith⟩

/-- Settles O28: with the kind's prefix the difference is as many steps as the nibbles differ by, -8 to 7 for
an overvoltage byte and 0 to 15 for an undervoltage byte, and a remainder below one step. -/
theorem tripVoltageWithinOneStep : Obligations.TripVoltageWithinOneStep := by
  intro s t u k tgt hc hlow _ ht herr hu
  obtain ⟨r, hr, hnonneg, hdiff⟩ := trip_difference hc (by omega) ht herr hu
  rw [State.gainInt] at hr hdiff
  refine ⟨fun hprefix => ?_, r, hr, hdiff⟩
  have hr0 : 0 ≤ r := hnonneg (by rw [hprefix]; cases k <;> decide)
  have hrg : r < s.gain.toNat := lt_of_abs_lt hr
  have hnibble := (t.aux.extractLsb' 0 4).isLt
  rw [hprefix, sub_self, zero_mul, zero_mul, zero_add] at hdiff
  refine ⟨⟨r, hr0, hrg, hdiff⟩, ?undervoltage, ?overvoltage⟩
  case undervoltage =>
    rintro rfl
    obtain ⟨hstepsLow, hstepsHigh⟩ := steps_add_remainder_range (low := 0) (high := 15)
      (d := (t.aux.extractLsb' 0 4).toNat - tripNibble .under) (by rw [tripNibble]; omega)
      hr0 hrg
    rw [hdiff, abs_lt]
    exact ⟨by linarith, by linarith⟩
  case overvoltage =>
    rintro rfl
    obtain ⟨hstepsLow, hstepsHigh⟩ := steps_add_remainder_range (low := -8) (high := 7)
      (d := (t.aux.extractLsb' 0 4).toNat - tripNibble .over) (by rw [tripNibble]; omega)
      hr0 hrg
    rw [hdiff, abs_le]
    exact ⟨by linarith, by linarith⟩

end Sys2Proof.Machine
end

section
/-! PROOFS. CCSIG (43_coulomb.md): it cannot fail, and 844 times a signed 16-bit field fits `RES`, so the
register holds the exact product. The laws of R143 are then those of the product and of two's complement. -/

namespace Sys2Proof.Machine

/-! ## The command and its words -/

/-- The next state of an illegal word has the code of `E_ILL` in `ERR` (R200). -/
theorem IsIllegal.err_eq {c : Word} {s t : State} (h : IsIllegal c s) (ht : runWord c s = .next t) :
    t.err = 1#4 := by
  obtain ⟨t', ht', ⟨herr, -⟩, -⟩ := h
  obtain rfl : t = t' := by simpa [ht'] using ht.symm
  exact BitVec.eq_of_toNat_eq herr

/-- CCSIG yields the exact product on every field (R140). -/
theorem ccsig_yields (hi lo : Byte) (s : State) :
    Yields (.ccsig hi lo) s ((rawOf hi lo).toInt * 844) 0 := by
  have hexec : exec (.ccsig hi lo) s = execCcsig hi lo s := rfl
  have hlow : -32768 ≤ (rawOf hi lo).toInt := BitVec.le_toInt (rawOf hi lo)
  have hhigh : (rawOf hi lo).toInt < 32768 := BitVec.toInt_lt
  exact yields_of_exec_eq hexec (by omega) (by omega) (by norm_num)

/-- A word of CCSIG's `OP` has a legal format only with its twelve reserved bits 0 (R62). -/
theorem FormatLegal.ccsig_reserved {c : Word} (h : FormatLegal c)
    (hop : c.extractLsb' 28 4 = 0x7#4) : c.extractLsb' 16 12 = 0#12 := by
  simpa [FormatLegal, hop] using h

/-- A word of CCSIG's `OP` with a reserved bit at 1 ends in `E_ILL` (R66). -/
theorem ccsig_illegal {c : Word} (hop : c.extractLsb' 28 4 = 0x7#4)
    (hreserved : c.extractLsb' 16 12 ≠ 0#12) (s : State) : IsIllegal c s :=
  isIllegal_of_not_formatLegal (fun h => hreserved (h.ccsig_reserved hop)) s

/-- A word of CCSIG's `OP` with its reserved bits 0 is a CCSIG of its two low bytes (R65). -/
theorem decode_ccsig {c : Word} (hop : c.extractLsb' 28 4 = 0x7#4)
    (hreserved : c.extractLsb' 16 12 = 0#12) :
    decode c = .ok (.ccsig (fieldHI c) (fieldLO c)) := by
  have hopNat : c.toNat / 2 ^ 28 % 2 ^ 4 = 7 := by rw [← toNat_field, hop]; rfl
  have hreservedNat := (field_eq_zero_iff c 16 12).1 hreserved
  have hrow := (ccsig_matches_iff c).2 (by omega)
  exact decode_of_matches (List.mem_of_getElem? (i := 7) rfl) hrow

/-! ## Two's complement -/

/-- Fields that sum to 0 modulo `2 ^ 16` have opposite signed values, but for the one whose negation has no
field (R141, R143). -/
theorem rawOf_toInt_neg {hi lo hi' lo' : Byte}
    (hsum : (rawNat hi lo + rawNat hi' lo') % 65536 = 0) (hmin : rawNat hi lo ≠ 32768) :
    (rawOf hi' lo').toInt = -(rawOf hi lo).toInt := by
  have hlt := rawNat_lt hi lo
  have hlt' := rawNat_lt hi' lo'
  rw [rawOf_toInt, rawOf_toInt]
  omega

/-! ## The obligations -/

/-- Settles O21: the product is that of the field's sign rule, and no other `OP`'s format admits the illegal
word. -/
theorem ccsigScalesSignedField : Obligations.CcsigScalesSignedField := by
  refine ⟨fun hi lo s => ?field, fun c s hop hreserved => ccsig_illegal hop hreserved s⟩
  case field =>
    rw [← rawOf_toInt]
    exact ccsig_yields hi lo s

/-- Settles O22: a word of CCSIG's `OP` yields its product or is illegal, by its reserved bits. -/
theorem ccsigLaws : Obligations.CcsigLaws := by
  refine ⟨fun hi lo hi' lo' s t t' ht ht' hsum hmin => ?odd, fun hi lo s => ?multiple,
    fun c s t hop ht => ?errors⟩
  case odd =>
    obtain ⟨hres, -⟩ := (ccsig_yields hi lo s).succeeds ht
    obtain ⟨hres', -⟩ := (ccsig_yields hi' lo' s).succeeds ht'
    rw [hres, hres', rawOf_toInt_neg hsum hmin, neg_mul]
  case multiple =>
    obtain ⟨t, ht, hsucc⟩ := ccsig_yields hi lo s
    have ⟨hres, _⟩ := hsucc
    exact ⟨t, ht, hsucc.err_eq_zero, hres ▸ dvd_mul_left 844 _⟩
  case errors =>
    by_cases hreserved : c.extractLsb' 16 12 = 0#12
    · rw [runWord_of_decode_ok (decode_ccsig hop hreserved)] at ht
      exact .inl ((ccsig_yields _ _ s).succeeds ht).err_eq_zero
    · exact .inr ((ccsig_illegal hop hreserved s).err_eq ht)

end Sys2Proof.Machine
end

section
/-! PROOFS. TEMP (44_temperature.md). Its rule is said once per kind of channel: the linear formula on channel 0,
one table lookup on channels 1 to 3, a refusal above. The resistance of R154 rises with the raw reading, so what
it exceeds at one reading it exceeds at every larger one: that gives R159 for any table. Every table of R8 ends
in 8313, its least threshold: that gives the readings that have a row, whatever the other sixteen are. -/

namespace Sys2Proof.Machine

/-! ## The rule of TEMP by channel (R150, R151) -/

theorem channelOf_of_gt {ch : Byte} (h : 3 < ch.toNat) : channelOf ch = none := by
  obtain ⟨n, hn⟩ := Nat.exists_eq_add_of_le' h
  simp [channelOf, hn]

theorem channelOf_zero {ch : Byte} (h : ch.toNat = 0) : channelOf ch = some .internal := by
  simp [channelOf, h]

theorem channelOf_external {ch : Byte} (hlow : 1 ≤ ch.toNat) (hhigh : ch.toNat ≤ 3) :
    channelOf ch = some .external1 ∨ channelOf ch = some .external2 ∨
      channelOf ch = some .external3 := by
  obtain h | h | h : ch.toNat = 1 ∨ ch.toNat = 2 ∨ ch.toNat = 3 := by omega
  · simp [channelOf, h]
  · simp [channelOf, h]
  · simp [channelOf, h]

/-- A channel above 3 is refused before the raw operand is looked at. -/
theorem tempResult_of_gt (lut : List Nat) {ch : Byte} (h : 3 < ch.toNat) (hi lo : Byte) :
    tempResult lut ch hi lo = .error .arg := by
  rw [tempResult, channelOf_of_gt h]

/-- A channel up to 3 leaves the check of the raw operand to decide (R101). -/
theorem tempResult_raw14 (lut : List Nat) {ch hi lo : Byte} (hch : ch.toNat ≤ 3)
    (hraw : 0x3FFF < rawNat hi lo) : tempResult lut ch hi lo = .error .raw14 := by
  obtain ⟨channel, h⟩ : ∃ channel, channelOf ch = some channel := by
    rcases Nat.eq_zero_or_pos ch.toNat with hzero | hpos
    · exact ⟨_, channelOf_zero hzero⟩
    · obtain h | h | h := channelOf_external hpos hch <;> exact ⟨_, h⟩
  rw [tempResult, h, raw14_of_gt hraw]

theorem tempResult_internal (lut : List Nat) {hi lo : Byte} (hraw : rawNat hi lo ≤ 0x3FFF) :
    tempResult lut 0#8 hi lo = .ok (Result.store (internalMillidegrees (rawNat hi lo)) 0) := by
  rw [tempResult, channelOf_zero rfl, raw14_of_le hraw]
  rfl

/-- The three external channels have one rule (R160): the check of the raw operand, then the lookup. -/
theorem tempResult_external (lut : List Nat) {ch : Byte} (hlow : 1 ≤ ch.toNat)
    (hhigh : ch.toNat ≤ 3) (hi lo : Byte) :
    tempResult lut ch hi lo = raw14 hi lo >>= externalResult lut := by
  obtain h | h | h := channelOf_external hlow hhigh
  all_goals
    rw [tempResult, h]
    cases raw14 hi lo <;> rfl

/-- TEMP ends its rule's result. -/
theorem exec_temp (ch hi lo : Byte) (s : State) :
    exec (.temp ch hi lo) s = complete (encode (.temp ch hi lo)) (tempResult lutOhm ch hi lo) s :=
  rfl

theorem temp_refuses_arg {ch : Byte} (h : 3 < ch.toNat) (hi lo : Byte) (s : State) :
    Refuses (.temp ch hi lo) s 4 := by
  have hexec := exec_temp ch hi lo s
  rw [tempResult_of_gt lutOhm h] at hexec
  exact refuses_of_exec_eq hexec

theorem temp_refuses_raw14 {ch hi lo : Byte} (hch : ch.toNat ≤ 3) (hraw : 0x3FFF < rawNat hi lo)
    (s : State) : Refuses (.temp ch hi lo) s 3 := by
  have hexec := exec_temp ch hi lo s
  rw [tempResult_raw14 lutOhm hch hraw] at hexec
  exact refuses_of_exec_eq hexec

/-! ## The internal channel (R153) -/

theorem internalMillidegrees_eq (raw : Nat) :
    internalMillidegrees raw = Int.tdiv (6525000 - 1910 * raw) 21 :=
  tdiv_of_ne _ (by norm_num)

theorem mul_tdiv_of_nonneg {a g : Int} (ha : 0 ≤ a) (hg : 0 < g) :
    0 ≤ g * Int.tdiv a g ∧ g * Int.tdiv a g ≤ a ∧ a < g * Int.tdiv a g + g := by
  have hdiv := Int.mul_tdiv_add_tmod a g
  have hlow := Int.tmod_nonneg g ha
  have hhigh := Int.tmod_lt_of_pos a hg
  exact ⟨mul_nonneg hg.le (Int.tdiv_nonneg ha hg.le), by omega, by omega⟩

/-- Division truncated toward zero: the multiple of the divisor lies between 0 and the dividend, less than
one divisor away from it. -/
theorem mul_tdiv_between (a : Int) {g : Int} (hg : 0 < g) :
    (0 ≤ g * Int.tdiv a g ∧ g * Int.tdiv a g ≤ a ∧ a < g * Int.tdiv a g + g) ∨
      (g * Int.tdiv a g ≤ 0 ∧ a ≤ g * Int.tdiv a g ∧ g * Int.tdiv a g - g < a) := by
  rcases le_total 0 a with ha | ha
  · exact .inl (mul_tdiv_of_nonneg ha hg)
  · obtain ⟨hzero, hle, hlt⟩ := mul_tdiv_of_nonneg (neg_nonneg.2 ha) hg
    rw [Int.neg_tdiv, mul_neg] at hzero hle hlt
    exact .inr ⟨by omega, by omega, by omega⟩

/-- Truncation loses less than one divisor and never moves away from zero. -/
theorem abs_mul_tdiv (a : Int) {g : Int} (hg : 0 < g) :
    |g * Int.tdiv a g - a| < g ∧ |g * Int.tdiv a g| ≤ |a| := by
  rw [abs_lt]
  obtain ⟨hzero, hle, hlt⟩ | ⟨hzero, hle, hlt⟩ := mul_tdiv_between a hg
  · exact ⟨⟨by omega, by omega⟩, abs_le_abs_of_nonneg hzero hle⟩
  · exact ⟨⟨by omega, by omega⟩, abs_le_abs_of_nonpos hzero hle⟩

theorem temp_yields_internal {hi lo : Byte} (hraw : rawNat hi lo ≤ 0x3FFF) (s : State) :
    Yields (.temp 0#8 hi lo) s (internalMillidegrees (rawNat hi lo)) 0 := by
  have hexec := exec_temp 0#8 hi lo s
  rw [tempResult_internal lutOhm hraw] at hexec
  have hrange := internalMillidegrees_range hraw
  exact yields_of_exec_eq hexec (by omega) (by omega) (by norm_num)

/-- Settles O29: the exact range is that of the dividend, whose quotient is truncated toward zero. -/
theorem tempInternalFormula : Obligations.TempInternalFormula := by
  refine ⟨fun hi lo s hraw => ?formula, fun raw hraw => ?bounds, fun raw raw' hle => ?never_rises,
    fun raw raw' hlt => ?falls⟩
  case formula =>
    rw [← internalMillidegrees_eq]
    exact temp_yields_internal hraw s
  case bounds =>
    have hbetween := mul_tdiv_between (6525000 - 1910 * raw) (g := 21) (by norm_num)
    exact ⟨by omega, by omega, abs_mul_tdiv _ (by norm_num)⟩
  case never_rises => exact Int.tdiv_le_tdiv (by norm_num) (by omega)
  case falls =>
    have hcast : (raw : Rat) < raw' := Nat.cast_lt.2 hlt
    linarith

/-! ## The resistance and a threshold (R154) -/

theorem dividerDen_eq (raw : Nat) : dividerDen raw = 3300000 - 382 * raw := rfl

theorem exceeds_iff (raw ohm : Nat) :
    exceeds raw ohm = true ↔ (ohm : Int) * (3300000 - 382 * raw) < 10000 * (382 * raw) :=
  decide_eq_true_iff

theorem not_exceeds_iff (raw ohm : Nat) :
    exceeds raw ohm = false ↔ 10000 * (382 * (raw : Int)) ≤ ohm * (3300000 - 382 * raw) :=
  decide_eq_false_iff_not.trans not_lt

/-- The divider voltage is below the rail up to 8638, and never the rail's. -/
theorem dividerDen_pos_iff (raw : Nat) : 0 < dividerDen raw ↔ raw ≤ 8638 := by
  rw [dividerDen_eq]; omega

/-- The resistance rises with the reading. -/
theorem exceeds_of_raw_le {raw raw' ohm : Nat} (hle : raw ≤ raw') (h : exceeds raw ohm = true) :
    exceeds raw' ohm = true := by
  rw [exceeds_iff] at h ⊢
  calc (ohm : Int) * (3300000 - 382 * raw') ≤ ohm * (3300000 - 382 * raw) :=
        mul_le_mul_of_nonneg_left (by omega) (Int.natCast_nonneg ohm)
    _ < 10000 * (382 * raw) := h
    _ ≤ 10000 * (382 * raw') := by omega

/-- Below the rail, a resistance that exceeds a threshold exceeds every smaller one. -/
theorem exceeds_of_ohm_le {raw ohm ohm' : Nat} (hden : 0 < dividerDen raw) (hle : ohm' ≤ ohm)
    (h : exceeds raw ohm = true) : exceeds raw ohm' = true := by
  rw [exceeds_iff] at h ⊢
  rw [dividerDen_eq] at hden
  calc (ohm' : Int) * (3300000 - 382 * raw) ≤ ohm * (3300000 - 382 * raw) :=
        mul_le_mul_of_nonneg_right (Int.ofNat_le.2 hle) hden.le
    _ < 10000 * (382 * raw) := h

/-- The last threshold, 8313 Ω, is exceeded from 3922 on. -/
theorem exceeds_last_iff (raw : Nat) : exceeds raw 8313 = true ↔ 3922 ≤ raw := by
  rw [exceeds_iff]; omega

/-! ## The lookup (R157, R158, R159) -/

/-- The readings without a row are the two regions of R158, for every table of R8. -/
theorem lutRow_lutOhm_none_iff (raw : Nat) :
    lutRow lutOhm raw = none ↔ raw ≤ 3921 ∨ 8639 ≤ raw := by
  constructor
  · intro hnone
    by_contra hrow
    obtain ⟨i, hi⟩ := lutRow_exists ((dividerDen_pos_iff raw).2 (by omega))
      ((exceeds_last_iff raw).2 (by omega))
    simp [hnone] at hi
  · intro hregion
    refine Option.eq_none_iff_forall_ne_some.2 fun i hi => ?_
    obtain ⟨hden, hlen, hexceeds, -⟩ := (lutRow_some_iff lutOhm raw i).1 hi
    have hlast := exceeds_of_ohm_le hden (lutOhm_ge (List.getElem?_eq_getElem hlen)) hexceeds
    rw [dividerDen_pos_iff] at hden
    rw [exceeds_last_iff] at hlast
    omega

theorem lutRow_lutOhm_le {raw i : Nat} (h : lutRow lutOhm raw = some i) : i ≤ 16 := by
  obtain ⟨-, hlen, -⟩ := (lutRow_some_iff lutOhm raw i).1 h
  rw [lutOhm_length] at hlen
  omega

/-- A larger reading has no larger row, in any table (R159): it exceeds what the smaller one exceeds, so its
first row comes no later. -/
theorem lutRow_antitone {lut : List Nat} {raw raw' i i' : Nat} (hle : raw ≤ raw')
    (h : lutRow lut raw = some i) (h' : lutRow lut raw' = some i') : i' ≤ i := by
  obtain ⟨-, _, hexceeds, -⟩ := (lutRow_some_iff lut raw i).1 h
  obtain ⟨-, _, -, hfirst⟩ := (lutRow_some_iff lut raw' i').1 h'
  by_contra hlt
  have hnot := hfirst i (by omega)
  rw [exceeds_of_raw_le hle hexceeds] at hnot
  cases hnot

/-! ## TEMP on an external channel -/

theorem externalResult_some {lut : List Nat} {raw i : Nat} (h : lutRow lut raw = some i) :
    externalResult lut raw = .ok (Result.store ((-50 + 5 * i) * 1000) i) := by
  rw [externalResult, h]

theorem externalResult_none {lut : List Nat} {raw : Nat} (h : lutRow lut raw = none) :
    externalResult lut raw = .error .lut := by
  rw [externalResult, h]

section External

variable {ch hi lo : Byte}

theorem exec_temp_external (hlow : 1 ≤ ch.toNat) (hhigh : ch.toNat ≤ 3)
    (hraw : rawNat hi lo ≤ 0x3FFF) (s : State) :
    exec (.temp ch hi lo) s =
      complete (encode (.temp ch hi lo)) (externalResult lutOhm (rawNat hi lo)) s := by
  rw [exec_temp, tempResult_external lutOhm hlow hhigh, raw14_of_le hraw]
  rfl

theorem temp_yields_row {i : Nat} (hlow : 1 ≤ ch.toNat) (hhigh : ch.toNat ≤ 3)
    (hraw : rawNat hi lo ≤ 0x3FFF) (hrow : lutRow lutOhm (rawNat hi lo) = some i) (s : State) :
    Yields (.temp ch hi lo) s ((-50 + 5 * i) * 1000) i := by
  have hexec := exec_temp_external hlow hhigh hraw s
  rw [externalResult_some hrow] at hexec
  have hi16 := lutRow_lutOhm_le hrow
  exact yields_of_exec_eq hexec (by omega) (by omega) (by omega)

theorem temp_refuses_lut (hlow : 1 ≤ ch.toNat) (hhigh : ch.toNat ≤ 3)
    (hraw : rawNat hi lo ≤ 0x3FFF) (hrow : lutRow lutOhm (rawNat hi lo) = none) (s : State) :
    Refuses (.temp ch hi lo) s 5 := by
  have hexec := exec_temp_external hlow hhigh hraw s
  rw [externalResult_none hrow] at hexec
  exact refuses_of_exec_eq hexec

/-- Where TEMP succeeds on a channel other than the internal one, the reading has a row and the results are
that row's: every other case is refused. -/
theorem temp_external_succeeds {s t : State} (hlow : 1 ≤ ch.toNat)
    (ht : exec (.temp ch hi lo) s = .next t) (herr : t.err = 0#4) :
    ∃ i, lutRow lutOhm (rawNat hi lo) = some i ∧ Succeeds s t ((-50 + 5 * i) * 1000) i := by
  rcases Nat.lt_or_ge 3 ch.toNat with hch | hhigh
  · exact ((temp_refuses_arg hch hi lo s).not_success (by decide) ht herr).elim
  rcases Nat.lt_or_ge 0x3FFF (rawNat hi lo) with hwide | hraw
  · exact ((temp_refuses_raw14 hhigh hwide s).not_success (by decide) ht herr).elim
  cases hrow : lutRow lutOhm (rawNat hi lo) with
  | none => exact ((temp_refuses_lut hlow hhigh hraw hrow s).not_success (by decide) ht herr).elim
  | some i => exact ⟨i, rfl, (temp_yields_row hlow hhigh hraw hrow s).succeeds ht⟩

end External

/-! ## The obligations on external channels and refusals -/

/-- Settles O30: the row is the lookup's, which exists as the reading is in neither region of R158. -/
theorem tempExternalFirstRow : Obligations.TempExternalFirstRow := by
  intro ch hi lo s hlow hhigh hfirst hlast
  obtain ⟨i, hrow⟩ : ∃ i, lutRow lutOhm (rawNat hi lo) = some i := by
    refine Option.ne_none_iff_exists'.1 fun hnone => ?_
    have hregion := (lutRow_lutOhm_none_iff _).1 hnone
    omega
  obtain ⟨-, hlen, hexceeds, hearlier⟩ := (lutRow_some_iff lutOhm _ i).1 hrow
  refine ⟨i, lutOhm[i], lutRow_lutOhm_le hrow, List.getElem?_eq_getElem hlen,
    (exceeds_iff _ _).1 hexceeds, fun j M hj hM => ?_,
    temp_yields_row hlow hhigh (by omega) hrow s⟩
  obtain ⟨_, rfl⟩ := List.getElem?_eq_some_iff.1 hM
  exact (not_exceeds_iff _ _).1 (hearlier j hj)

/-- Settles O31. -/
theorem tempExternalNoEntry : Obligations.TempExternalNoEntry := by
  refine ⟨fun ch hi lo s hlow hhigh hraw hregion => ?refused, fun raw => ?boundaries⟩
  case refused =>
    exact temp_refuses_lut hlow hhigh hraw ((lutRow_lutOhm_none_iff _).2 hregion) s
  case boundaries =>
    refine ⟨?_, by omega, by omega⟩
    rw [← Nat.lt_succ_iff, ← not_le, ← exceeds_last_iff, Bool.not_eq_true]
    exact not_exceeds_iff raw 8313

/-- Settles O33: the temperature rises with the row, which does not rise with the reading. -/
theorem thermistorMonotone : Obligations.ThermistorMonotone := by
  intro ch hi lo ch' hi' lo' s s' t t' hlow hlow' ht ht' herr herr' hle
  obtain ⟨i, hrow, hres, haux, -⟩ := temp_external_succeeds hlow ht herr
  obtain ⟨i', hrow', hres', haux', -⟩ := temp_external_succeeds hlow' ht' herr'
  have hrows := lutRow_antitone hle hrow hrow'
  omega

/-- Settles O32: the channel is checked before the raw operand, and no other `OP`'s format admits the illegal
word. -/
theorem tempOperandErrors : Obligations.TempOperandErrors := by
  refine ⟨fun ch hi lo s h => temp_refuses_arg h hi lo s,
    fun ch hi lo s hch hraw => temp_refuses_raw14 hch hraw s, fun c s hop hreserved => ?illegal⟩
  case illegal =>
    refine isIllegal_of_not_formatLegal (fun h => hreserved ?_) s
    simpa [FormatLegal, hop] using h

/-- The command word an ending is given goes to `ECMD` alone (R29). -/
theorem complete_outputs_independent_of_word {c c' : Word} {r : Except ErrorCode Result}
    {s t t' : State} (ht : complete c r s = .next t) (ht' : complete c' r s = .next t') :
    t.res = t'.res ∧ t.aux = t'.aux ∧ t.status = t'.status := by
  cases r with
  | error e => cases ht; cases ht'; exact ⟨rfl, rfl, rfl⟩
  | ok v => cases ht; cases ht'; exact ⟨rfl, rfl, rfl⟩

/-- Settles O34: the two commands have one rule and differ in their word only. -/
theorem externalChannelsConvertAlike : Obligations.ExternalChannelsConvertAlike := by
  intro ch ch' hi lo s t t' hlow hhigh hlow' hhigh' ht ht'
  rw [exec_temp, tempResult_external lutOhm hlow hhigh] at ht
  rw [exec_temp, tempResult_external lutOhm hlow' hhigh'] at ht'
  exact complete_outputs_independent_of_word ht ht'

end Sys2Proof.Machine
end

section
/-! PROOFS. Balancing (45_balancing.md). Both commands end a result made of the target that `balmap` gives their
index; the target is the cell's bit and register as R170 writes them. BALUPD's image is the old one with that
one bit written, and BALSEL's mask is the image of an empty register, so the facts about bits are one lemma,
`newImage_getLsbD`. The host's procedure is a read and a write-back of that image (R176). -/

namespace Sys2Proof.Machine

/-! ## The target of an index (R170, R173) -/

section Target

variable {idx : Byte} {target : BalTarget}

theorem exists_target (hlow : 1 ≤ idx.toNat) (hhigh : idx.toNat ≤ 15) :
    ∃ target, balmap idx = some target := by
  refine Option.ne_none_iff_exists'.1 fun hnone => ?_
  have hout := (balmap_none_iff idx).1 hnone
  omega

theorem idx_range_of_target (h : balmap idx = some target) : 1 ≤ idx.toNat ∧ idx.toNat ≤ 15 := by
  have hin := mt (balmap_none_iff idx).2 (by simp [h])
  omega

theorem balmap_eq_none (h : idx.toNat = 0 ∨ 16 ≤ idx.toNat) : balmap idx = none :=
  (balmap_none_iff idx).2 (by omega)

/-- A target is the register and the bit of its cell. -/
theorem target_eq (h : balmap idx = some target) :
    target.reg.sel = cellSelect idx ∧ target.bit = cellBit idx := by
  rw [balmap_eq] at h
  split_ifs at h with hA hB hC <;> cases h
  · simp [cellSelect, cellBit, BalReg.sel, hA.2]
  · have hnotA : ¬ idx.toNat ≤ 5 := by omega
    simp [cellSelect, cellBit, BalReg.sel, hnotA, hB.2]
  · have hnotA : ¬ idx.toNat ≤ 5 := by omega
    have hnotB : ¬ idx.toNat ≤ 10 := by omega
    simp [cellSelect, cellBit, BalReg.sel, hnotA, hnotB]

/-- The bases of R170 tell the cells of one register apart. -/
theorem idx_eq_of_cell_eq {idx' : Byte} (hlow : 1 ≤ idx.toNat) (hlow' : 1 ≤ idx'.toNat)
    (hselect : cellSelect idx = cellSelect idx') (hbit : cellBit idx = cellBit idx') :
    idx = idx' := by
  apply BitVec.eq_of_toNat_eq
  unfold cellSelect at hselect
  unfold cellBit at hbit
  split_ifs at hselect hbit <;> omega

theorem mask_toNat (h : balmap idx = some target) : target.mask.toNat = 2 ^ target.bit := by
  have hlt : 2 ^ target.bit < 2 ^ 8 :=
    Nat.pow_lt_pow_right (by norm_num) (by have := balmap_bit h; omega)
  rw [BalTarget.mask, BitVec.toNat_shiftLeft, BitVec.toNat_ofNat, Nat.shiftLeft_eq]
  simpa using Nat.mod_eq_of_lt hlt

/-! ## The image of a target (R172) -/

/-- The image has the target's bit as asked and every other bit of the old one. -/
theorem newImage_getLsbD (h : balmap idx = some target) (en : Bool) (old : Byte) {j : Nat}
    (hj : j < 8) :
    (newImage target en old).getLsbD j = if j = target.bit then en else old.getLsbD j :=
  withBit_getLsbD old ⟨target.bit, by have := balmap_bit h; omega⟩ en j hj

/-- The mask is the image of an empty register (R175). -/
theorem newImage_empty (target : BalTarget) : newImage target true 0#8 = target.mask :=
  BitVec.zero_or

/-- The image differs from the old one in the target's bit at most (R174). -/
theorem newImage_xor (h : balmap idx = some target) (en : Bool) (old : Byte) :
    newImage target en old ^^^ old =
      if old.getLsbD target.bit = en then 0#8 else target.mask := by
  apply BitVec.eq_of_getLsbD_eq
  intro j hj
  have hmask := newImage_getLsbD h true 0#8 hj
  rw [newImage_empty] at hmask
  rw [BitVec.getLsbD_xor, newImage_getLsbD h en old hj]
  by_cases hbit : j = target.bit
  · subst hbit
    by_cases hsame : old.getLsbD target.bit = en
    · simp [hsame]
    · simp [hmask, Bool.eq_not_of_ne hsame]
  · rw [if_neg hbit] at hmask ⊢
    split <;> simp [hmask]

theorem newImage_and_mask (target : BalTarget) (en : Bool) (old : Byte) :
    newImage target en old &&& target.mask = if en then target.mask else 0#8 := by
  apply BitVec.eq_of_getLsbD_eq
  intro j _
  cases en with
  | false => simp [newImage, withMask]
  | true => simpa [newImage, withMask] using Or.inr

end Target

/-! ## BALSEL and BALUPD (R171, R172) -/

theorem exec_balsel (idx : Byte) (s : State) :
    exec (.balsel idx) s = complete (encode (.balsel idx)) (balselResult idx) s := rfl

theorem exec_balupd (idx : Byte) (en : Bool) (old : Byte) (s : State) :
    exec (.balupd idx en old) s =
      complete (encode (.balupd idx en old)) (balupdResult idx en old) s := rfl

/-- A command that ends an 8-bit image and a select code yields them: both fit their registers. -/
theorem yields_image {i : Instr} {s : State} {image : Byte} {reg : BalReg}
    (hexec : exec i s = complete (encode i) (.ok (Result.store image.toNat reg.sel)) s) :
    Yields i s image.toNat reg.sel := by
  have himage := image.isLt
  have hreg : reg.sel ≤ 2 := by cases reg <;> decide
  exact yields_of_exec_eq hexec (by omega) (by omega) (by omega)

/-- A stored image is held unsigned, its upper bits 0. -/
theorem Succeeds.res_eq_image {s t : State} {image : Byte} {a : Nat}
    (h : Succeeds s t image.toNat a) : t.res = image.setWidth 32 := by
  obtain ⟨hres, -⟩ := h
  have himage := image.isLt
  apply BitVec.eq_of_toInt_eq
  rw [hres, BitVec.toInt_setWidth]
  exact (Int.bmod_eq_of_le (by omega) (by omega)).symm

section Commands

variable {idx : Byte} {target : BalTarget}

theorem balsel_yields (h : balmap idx = some target) (s : State) :
    Yields (.balsel idx) s target.mask.toNat target.reg.sel := by
  have hexec := exec_balsel idx s
  rw [balselResult, h] at hexec
  exact yields_image hexec

theorem balupd_yields (h : balmap idx = some target) (en : Bool) (old : Byte) (s : State) :
    Yields (.balupd idx en old) s (newImage target en old).toNat target.reg.sel := by
  have hexec := exec_balupd idx en old s
  rw [balupdResult, h] at hexec
  exact yields_image hexec

theorem balsel_refuses (h : balmap idx = none) (s : State) : Refuses (.balsel idx) s 4 := by
  have hexec := exec_balsel idx s
  rw [balselResult, h] at hexec
  exact refuses_of_exec_eq hexec

theorem balupd_refuses (h : balmap idx = none) (en : Bool) (old : Byte) (s : State) :
    Refuses (.balupd idx en old) s 4 := by
  have hexec := exec_balupd idx en old s
  rw [balupdResult, h] at hexec
  exact refuses_of_exec_eq hexec

/-- Where BALSEL ends without error its index has a target. -/
theorem exists_target_of_balsel_success {s t : State} (ht : exec (.balsel idx) s = .next t)
    (herr : t.err = 0#4) : ∃ target, balmap idx = some target :=
  Option.ne_none_iff_exists'.1 fun hnone =>
    (balsel_refuses hnone s).not_success (by decide) ht herr

/-- What BALSEL leaves, by the cell's own bit and register (R171). -/
theorem balsel_yields_cell (h : balmap idx = some target) (s : State) :
    Yields (.balsel idx) s ((2 ^ cellBit idx : Nat) : Int) (cellSelect idx) := by
  obtain ⟨hselect, hbit⟩ := target_eq h
  have hyields := balsel_yields h s
  rwa [mask_toNat h, hselect, hbit] at hyields

end Commands

/-! ## The obligations on the commands -/

/-- Settles O35. -/
theorem balselMapsCell : Obligations.BalselMapsCell := by
  refine ⟨fun idx s hlow hhigh => ?maps, fun idx s hout => balsel_refuses (balmap_eq_none hout) s,
    fun c s hop hreserved => ?illegal⟩
  case maps =>
    obtain ⟨target, h⟩ := exists_target hlow hhigh
    exact balsel_yields_cell h s
  case illegal =>
    refine isIllegal_of_not_formatLegal (fun h => ?_) s
    have hzero : c.extractLsb' 16 12 = 0#12 ∧ c.extractLsb' 0 8 = 0#8 := by
      simpa [FormatLegal, hop] using h
    exact hreserved.elim (· hzero.1) (· hzero.2)

/-- Settles O36: the bits of `RES` are those of the target's image. -/
theorem balupdWritesOneBit : Obligations.BalupdWritesOneBit := by
  refine ⟨fun idx en old s hlow hhigh => ?writes,
    fun idx en old s hout => balupd_refuses (balmap_eq_none hout) en old s,
    fun c s hop hreserved => ?illegal⟩
  case writes =>
    obtain ⟨target, h⟩ := exists_target hlow hhigh
    obtain ⟨hselect, hbit⟩ := target_eq h
    have hbit5 := balmap_bit h
    have himage := (newImage target en old).isLt
    obtain ⟨t, ht, hsucceeds⟩ := balupd_yields h en old s
    have hres := hsucceeds.res_eq_image
    have hnat : t.res.toNat = (newImage target en old).toNat := by
      rw [hres, BitVec.toNat_setWidth]; omega
    have hbits : ∀ j, j < 8 →
        t.res.getLsbD j = if j = cellBit idx then en else old.getLsbD j := by
      intro j hj
      rw [hres, BitVec.getLsbD_setWidth, newImage_getLsbD h en old hj, hbit]
      simp [show j < 32 by omega]
    rw [hselect] at hsucceeds
    refine ⟨t, ht, hnat ▸ hsucceeds, by omega, ?_, fun j hj hne => ?_⟩
    · rw [hbits _ (by omega), if_pos rfl]
    · rw [hbits j hj, if_neg hne]
  case illegal =>
    refine isIllegal_of_not_formatLegal (fun h => hreserved ?_) s
    simpa [FormatLegal, hop] using h

/-- Settles O37: the first part holds of the image as a byte; in the second the masks give the bits and the
select codes the registers, which determine the cell. -/
theorem balancingIsolation : Obligations.BalancingIsolation := by
  refine ⟨fun idx en old s t u ht herr hu => ?one_bit,
    fun idx idx' s t t' ht ht' herr herr' hres haux => ?injective⟩
  case one_bit =>
    obtain ⟨target, h⟩ := exists_target_of_balsel_success ht herr
    have hsel := (balsel_yields h s).succeeds ht
    have hupd := (balupd_yields h en old t).succeeds hu
    have hselres := hsel.res_eq_image
    have hupdres := hupd.res_eq_image
    obtain ⟨-, hselaux, -⟩ := hsel
    obtain ⟨-, hupdaux, -⟩ := hupd
    rw [hselres, hupdres, ← BitVec.setWidth_xor, ← BitVec.setWidth_and,
      newImage_xor h, newImage_and_mask]
    refine ⟨?_, BitVec.eq_of_toNat_eq (hupdaux.trans hselaux.symm), ?_⟩
    · split
      · exact .inl rfl
      · exact .inr rfl
    · cases en <;> rfl
  case injective =>
    obtain ⟨target, h⟩ := exists_target_of_balsel_success ht herr
    obtain ⟨target', h'⟩ := exists_target_of_balsel_success ht' herr'
    obtain ⟨hmask, hselect, -⟩ := (balsel_yields_cell h s).succeeds ht
    obtain ⟨hmask', hselect', -⟩ := (balsel_yields_cell h' s).succeeds ht'
    have hpow : 2 ^ cellBit idx = 2 ^ cellBit idx' := by
      rw [hres, hmask'] at hmask
      exact_mod_cast hmask.symm
    exact idx_eq_of_cell_eq (idx_range_of_target h).1 (idx_range_of_target h').1
      (by rw [← hselect, ← hselect', haux]) (Nat.pow_right_injective le_rfl hpow)

/-- Settles O38: the two commands compute one result and differ in their word only. -/
theorem balselIsBalupdOnEmptyImage : Obligations.BalselIsBalupdOnEmptyImage := by
  intro idx s t t' hlow hhigh ht ht'
  obtain ⟨target, h⟩ := exists_target hlow hhigh
  have hresult : balupdResult idx true 0#8 = balselResult idx := by
    simp only [balupdResult, balselResult, h, newImage_empty]
  rw [exec_balsel] at ht
  rw [exec_balupd, hresult] at ht'
  obtain ⟨hres, haux, -⟩ := complete_outputs_independent_of_word ht ht'
  exact ⟨hres, haux⟩

/-! ## The host's procedure (R176) -/

/-- Outside reset an issued command does what its meaning says: its word decodes to it. -/
theorem issue_of_exec {i : Instr} {s t : State} (hr : s.resetAsserted = false)
    (h : exec i s = .next t) : issue i s = t :=
  issue_of_next hr ((runWord_of_decode_ok (decodeOfEncode i) s).trans h)

theorem Succeeds.resetAsserted_eq {s t : State} {v : Int} {a : Nat} (h : Succeeds s t v a) :
    t.resetAsserted = s.resetAsserted := by
  obtain ⟨-, -, -, hframe⟩ := h
  rw [hframe]

/-- The AFE register of a valid cell (R170). -/
def cellReg (idx : Byte) : AfeReg :=
  if idx.toNat ≤ 5 then .balA else if idx.toNat ≤ 10 then .balB else .balC

/-- The host reads the cell's register out of BALSEL's select code. -/
theorem balRegOf_eq_cellReg {idx : Byte} {sel : BitVec 16} (h : sel.toNat = cellSelect idx) :
    balRegOf sel = cellReg idx := by
  rw [balRegOf, h, cellSelect, cellReg]
  split_ifs <;> rfl

/-- For an index with a target the procedure reads the cell's register and writes back its image. -/
theorem balanceCell_of_target {idx : Byte} {target : BalTarget} (h : balmap idx = some target)
    (afe : Afe) (en : Bool) {d : Driver} (hr : d.vsc.resetAsserted = false) :
    ∃ vsc, balanceCell afe idx en d =
      (.done,
        writeByte afe (afe.address (cellReg idx))
          (newImage target en (d.regsNext afe (afe.address (cellReg idx))))
          { (readByte afe (afe.address (cellReg idx)) d).2 with vsc }) := by
  obtain ⟨t, ht, hsel⟩ := balsel_yields_cell h d.vsc
  obtain ⟨u, hu, hupd⟩ :=
    balupd_yields h en (d.regsNext afe (afe.address (cellReg idx))) t
  have hissue : d.issue (.balsel idx) = { d with vsc := t } := by
    rw [Driver.issue, issue_of_exec hr ht]
  have hissue' := issue_of_exec (hsel.resetAsserted_eq.trans hr) hu
  have himage : u.res.setWidth 8 =
      newImage target en (d.regsNext afe (afe.address (cellReg idx))) := by
    rw [hupd.res_eq_image, BitVec.setWidth_setWidth_of_le _ (by norm_num), BitVec.setWidth_eq]
  have herr := hsel.err_eq_zero
  obtain ⟨-, haux, -⟩ := hsel
  refine ⟨u, ?_⟩
  simp only [balanceCell, hissue, herr, ne_eq, not_true_eq_false, if_false,
    balRegOf_eq_cellReg haux]
  rw [← himage, ← hissue']
  rfl

/-- For an index without a target the procedure ends after BALSEL's error. -/
theorem balanceCell_of_no_target {idx : Byte} (h : balmap idx = none) (afe : Afe) (en : Bool)
    {d : Driver} (hr : d.vsc.resetAsserted = false) :
    ∃ t, EndsInError d.vsc t 4 (encode (.balsel idx)) ∧
      balanceCell afe idx en d = (.invalidArgument, { d with vsc := t }) := by
  obtain ⟨t, ht, hends⟩ := balsel_refuses h d.vsc
  have hissue : d.issue (.balsel idx) = { d with vsc := t } := by
    rw [Driver.issue, issue_of_exec hr ht]
  have herr : t.err ≠ 0#4 := fun herr => (balsel_refuses h d.vsc).not_success (by decide) ht herr
  refine ⟨t, hends, ?_⟩
  simp only [balanceCell, hissue, ne_eq, herr, not_false_eq_true, if_true]

/-- Settles O46: the procedure is a read and a write-back of the target's image, or nothing. -/
theorem setBalancingTouchesOneBit : Obligations.SetBalancingTouchesOneBit := by
  refine ⟨fun afe idx en d hr hmode hlow hhigh => ?valid, fun afe idx en d hr hmode hout => ?invalid⟩
  case valid =>
    obtain ⟨target, h⟩ := exists_target hlow hhigh
    obtain ⟨-, hbit⟩ := target_eq h
    have hbit5 := balmap_bit h
    obtain ⟨vsc, hrun⟩ := balanceCell_of_target h afe en hr
    have hset := unlessShip_run hmode (balanceCell afe idx en)
    rw [hrun] at hset
    refine ⟨_, _, hset, ?bus, setReg_same _ _ _, fun r hother => ?other_registers, ?cell_bit,
      fun j hj hne => ?other_bits⟩
    case bus => exact List.append_assoc _ _ _
    case other_registers =>
      exact (setReg_other hother _ _).trans (congrFun (readByte_regsNext afe _ d) r)
    case cell_bit => rw [← hbit, newImage_getLsbD h _ _ (by omega), if_pos rfl]
    case other_bits => rw [newImage_getLsbD h _ _ hj, if_neg (hbit ▸ hne)]; rfl
  case invalid =>
    obtain ⟨t, hends, hrun⟩ := balanceCell_of_no_target (balmap_eq_none hout) afe en hr
    have hset := unlessShip_run hmode (balanceCell afe idx en)
    rw [hrun] at hset
    exact ⟨_, hset, rfl, hends⟩

end Sys2Proof.Machine
end

section
/-! PROOFS. The housekeeping commands and the calibration registers (46_system.md). An ending leaves the
calibration as it finds it, so a word changes it only by what its command writes before the ending, and of
these writes only CALLD's touches the calibration. CALLD sets `CALV`; what clears it is reset. -/

namespace Sys2Proof.Machine

/-! ## NOP and CLRFLT (R180, R181) -/

theorem exec_nop (s : State) : exec .nop s = .next (succeed s) := rfl

theorem exec_clrflt (s : State) : exec .clrflt s = .next (succeed (clearFault s)) := rfl

/-- The success epilogue clears `ERR` and the reserved bits, and keeps the flags (R202). -/
theorem succeed_statusIs (s : State) : StatusIs (succeed s) 0 s.flt s.calv :=
  ⟨congrArg BitVec.toNat (succeed_err s), succeed_flt s, succeed_calv s, succeed_reserved s⟩

/-- CLRFLT clears the fault bit before the epilogue, which therefore keeps it at 0. -/
theorem succeed_clearFault_statusIs (s : State) :
    StatusIs (succeed (clearFault s)) 0 false s.calv := by
  have hstatus := succeed_statusIs (clearFault s)
  rwa [clearFault_flt, clearFault_calv] at hstatus

/-- A word with the `OP` of NOP or CLRFLT, the two commands of format N, is legal only with all other bits 0
(R62). -/
theorem FormatLegal.formatN_reserved {c : Word} (h : FormatLegal c)
    (hop : c.extractLsb' 28 4 = 0x0#4 ∨ c.extractLsb' 28 4 = 0xB#4) : c.extractLsb' 0 28 = 0#28 := by
  rcases hop with hop | hop
  · simpa [FormatLegal, hop] using h
  · simpa [FormatLegal, hop] using h

/-- Settles O15: NOP is the epilogue alone, and no other `OP`'s format admits the illegal word. -/
theorem nopWritesOnlyErr : Obligations.NopWritesOnlyErr := by
  refine ⟨fun s => ⟨succeed s, exec_nop s, succeed_statusIs s, rfl⟩, fun c s hop hreserved => ?illegal⟩
  case illegal =>
    exact isIllegal_of_not_formatLegal (fun h => hreserved (h.formatN_reserved (.inl hop))) s

/-- Settles O16: CLRFLT clears `FLT` ahead of the epilogue, and no other `OP`'s format admits the illegal
word. -/
theorem clrfltClearsFlt : Obligations.ClrfltClearsFlt := by
  refine ⟨fun s => ⟨succeed (clearFault s), exec_clrflt s, succeed_clearFault_statusIs s, rfl⟩,
    fun c s hop hreserved => ?illegal⟩
  case illegal =>
    exact isIllegal_of_not_formatLegal (fun h => hreserved (h.formatN_reserved (.inr hop))) s

/-! ## What a word does to the calibration -/

/-- No ending writes the calibration (R201, R202). -/
theorem complete_keeps_calibration {c : Word} {r : Except ErrorCode Result} {s t : State}
    (h : complete c r s = .next t) : SameCalibration s t := by
  obtain ⟨e, -, rfl⟩ | ⟨v, -, rfl⟩ := complete_cases h
  · exact ⟨rfl, rfl, (raise_calv e c s).symm⟩
  · exact ⟨rfl, rfl, (succeed_calv (writeResult v s)).symm⟩

/-- Ahead of its ending only CALLD writes the calibration, and it sets `CALV` (R113). -/
theorem beforeEnding_calibration (i : Instr) (s : State) :
    SameCalibration s (beforeEnding i s) ∨
      ((∃ g1 g2 ot, i = .calld g1 g2 ot) ∧ (beforeEnding i s).calv = true) := by
  cases i with
  | calld g1 g2 ot => exact .inr ⟨⟨g1, g2, ot, rfl⟩, loadCalibration_calv _ ot s⟩
  | clrflt => exact .inl ⟨rfl, rfl, (clearFault_calv s).symm⟩
  | _ => exact .inl ⟨rfl, rfl, rfl⟩

/-- Everything a word can do to the calibration: keep it, or load one as a CALLD, which sets `CALV` (R182). -/
theorem runWord_calibration {c : Word} {s t : State} (h : runWord c s = .next t) :
    SameCalibration s t ∨ ((∃ g1 g2 ot, decode c = .ok (.calld g1 g2 ot)) ∧ t.calv = true) := by
  cases hd : decode c with
  | error e =>
    rw [runWord_of_decode_error hd, ← complete_error] at h
    exact .inl (complete_keeps_calibration h)
  | ok i =>
    rw [runWord_of_decode_ok hd, exec_eq_complete] at h
    have hend := complete_keeps_calibration h
    obtain hsame | ⟨⟨g1, g2, ot, rfl⟩, hcalv⟩ := beforeEnding_calibration i s
    · exact .inl ⟨hsame.gain.trans hend.gain, hsame.offs.trans hend.offs, hsame.calv.trans hend.calv⟩
    · exact .inr ⟨⟨g1, g2, ot, rfl⟩, hend.calv ▸ hcalv⟩

/-! ## `CALV` along steps (R182, R230) -/

theorem runWord_keeps_calv {c : Word} {s t : State} (h : runWord c s = .next t) (hc : s.calv = true) :
    t.calv = true := by
  obtain hsame | ⟨-, hcalv⟩ := runWord_calibration h
  · exact hsame.calv ▸ hc
  · exact hcalv

/-- Outside reset, every answer but that to the assertion of reset keeps `CALV` at 1. -/
theorem respond_keeps_calv {a : HostAction} {s t : State} (h : respond a s = .next t)
    (hr : s.resetAsserted = false) (ha : a ≠ .assertReset) (hc : s.calv = true) : t.calv = true := by
  cases a with
  | assertReset => exact absurd rfl ha
  | releaseReset =>
    simp only [respond, holdReset_released hr] at h
    injection h with h
    exact h ▸ hc
  | issue c =>
    rw [respond_issue_released hr] at h
    exact runWord_keeps_calv h hc

/-- So does every step from outside reset that does not take the assertion of reset. -/
theorem step_keeps_calv {s t : State} (h : step s = .next t) (hr : s.resetAsserted = false)
    (ha : ∀ rest, s.hostActions ≠ .assertReset :: rest) (hc : s.calv = true) : t.calv = true := by
  cases hacts : s.hostActions with
  | nil =>
    simp only [step, hacts, holdReset_released hr] at h
    injection h with h
    exact h ▸ hc
  | cons a rest =>
    simp only [step, hacts] at h
    exact respond_keeps_calv h hr (fun hassert => ha rest (hassert ▸ hacts)) hc

/-- Settles O19: a word that does not keep the calibration is a CALLD, and a step that clears `CALV` is not one
of those that keep it. -/
theorem calibrationWrittenOnlyByCalld : Obligations.CalibrationWrittenOnlyByCalld := by
  refine ⟨fun c s t ht hchange => ?word, fun s t ht hset hclear => ?step⟩
  case word =>
    refine (runWord_calibration ht).resolve_left fun hsame => ?_
    rcases hchange with hgain | hoffs | hcalv
    · exact hgain hsame.gain.symm
    · exact hoffs hsame.offs.symm
    · exact hcalv hsame.calv.symm
  case step =>
    by_contra! hreset
    obtain ⟨hr, hassert⟩ := hreset
    have hkept := step_keeps_calv ht (eq_false_of_ne_true hr) hassert hset
    exact absurd (hkept.symm.trans hclear) (by decide)

end Sys2Proof.Machine
end

section
/-! PROOFS. Errors and the fault record (60_exceptions.md R201 to R203, 10_state.md R27 and R29) and the step as a
whole (R206, R244, 70_reset_and_hazards.md R230). A word ends in the error entry on the state it found, or in
the success epilogue; so `ERR`, `FLT` and `ECMD` after it are said once, and a run's `FLT` follows by induction on
its words. -/

namespace Sys2Proof.Machine

/-! ## One step (R206, R230) -/

theorem step_idle {s : State} (h : s.hostActions = []) : step s = .next (holdReset s) := by
  simp only [step, h]

theorem step_action {s : State} {a : HostAction} {rest : List HostAction}
    (h : s.hostActions = a :: rest) : step s = respond a { s with hostActions := rest } := by
  simp only [step, h]

@[simp] theorem holdReset_hostActions (s : State) : (holdReset s).hostActions = s.hostActions := by
  unfold holdReset
  split <;> rfl

@[simp] theorem holdReset_resetAsserted (s : State) :
    (holdReset s).resetAsserted = s.resetAsserted := by
  unfold holdReset
  split <;> rfl

theorem holdReset_clear {s : State} (h : s.resetAsserted = true) : RegistersClear (holdReset s) := by
  rw [holdReset_asserted h]
  exact clearRegisters_clear s

/-- Under reset an issued word is dropped (R230). -/
theorem respond_issue_asserted {s : State} (h : s.resetAsserted = true) (c : Word) :
    respond (.issue c) s = .next (holdReset s) := by
  simp only [respond, h, if_true]

theorem step_issue_asserted {s : State} {c : Word} {rest : List HostAction}
    (h : s.hostActions = .issue c :: rest) (hr : s.resetAsserted = true) :
    step s = .next (holdReset { s with hostActions := rest }) := by
  rw [step_action h]
  exact respond_issue_asserted (s := { s with hostActions := rest }) hr c

/-- Every action of the host is answered by a next state, which keeps the actions to come (R201, R244). -/
theorem respond_next (a : HostAction) (s : State) :
    ∃ t, respond a s = .next t ∧ t.hostActions = s.hostActions := by
  cases a with
  | assertReset => exact ⟨_, rfl, rfl⟩
  | releaseReset => exact ⟨_, rfl, holdReset_hostActions s⟩
  | issue c =>
    cases hr : s.resetAsserted with
    | true => exact ⟨_, respond_issue_asserted hr c, holdReset_hostActions s⟩
    | false =>
      obtain ⟨t, ht⟩ := runWord_next c s
      obtain ⟨-, hactions, -⟩ := runWord_inputs ht
      exact ⟨t, (respond_issue_released hr c).trans ht, hactions⟩

/-- Settles O10. -/
theorem idleStepChangesNothing : Obligations.IdleStepChangesNothing := by
  intro s hidle hr
  rw [step_idle hidle, holdReset_released hr]

/-- Settles O11: by whether an action is left. -/
theorem everyStepCompletes : Obligations.EveryStepCompletes := by
  intro s
  cases hactions : s.hostActions with
  | nil => exact ⟨_, step_idle hactions, by simp [hactions]⟩
  | cons a rest =>
    rw [step_action hactions]
    exact respond_next a _

/-- Settles O14: under reset the answer to every action is made of the held state, whose registers are
clear. -/
theorem resetInputClearsRegisters : Obligations.ResetInputClearsRegisters := by
  refine ⟨fun s rest hactions => ?assert, fun s c rest hr hactions => ?issue,
    fun s rest hr hactions => ?release⟩
  case assert => exact ⟨_, step_action hactions, clearRegisters_clear _, rfl, rfl⟩
  case issue =>
    exact ⟨_, step_issue_asserted hactions hr, holdReset_clear (s := { s with hostActions := rest }) hr,
      (holdReset_resetAsserted _).trans hr, holdReset_hostActions _⟩
  case release =>
    exact ⟨_, step_action hactions, holdReset_clear hr, rfl, holdReset_hostActions _⟩

/-! ## The two endings of a word (R201, R202) -/

/-- Only CALLD and CLRFLT write ahead of their ending, and neither computes an error: a command that errs ends
from the state it found. -/
theorem beforeEnding_of_error {i : Instr} {s : State} {e : ErrorCode}
    (h : commandResult i s = .error e) : beforeEnding i s = s := by
  cases i with
  | calld g1 g2 ot => cases h
  | clrflt => cases h
  | _ => rfl

/-- A word ends in the error entry, on the state it found and with itself for `ECMD`, or it is a command that
ends its results in the success epilogue. -/
theorem runWord_endings {c : Word} {s t : State} (h : runWord c s = .next t) :
    (∃ e, t = raise e c s) ∨
      ∃ i r, decode c = .ok i ∧ commandResult i s = .ok r ∧
        t = succeed (writeResult r (beforeEnding i s)) := by
  obtain ⟨-, rfl⟩ | ⟨i, hi, ⟨e, herr, rfl⟩ | ⟨r, hok, rfl⟩⟩ := runWord_cases h
  · exact .inl ⟨.ill, rfl⟩
  · rw [encodeOfDecode c i hi, beforeEnding_of_error herr]
    exact .inl ⟨e, rfl⟩
  · exact .inr ⟨i, r, hi, hok, rfl⟩

theorem runWord_of_err_ne_zero {c : Word} {s t : State} (h : runWord c s = .next t)
    (herr : t.err ≠ 0#4) : ∃ e, t = raise e c s := by
  obtain hraise | ⟨i, r, -, -, rfl⟩ := runWord_endings h
  · exact hraise
  · exact absurd (succeed_err _) herr

theorem runWord_of_err_zero {c : Word} {s t : State} (h : runWord c s = .next t)
    (herr : t.err = 0#4) :
    ∃ i r, decode c = .ok i ∧ commandResult i s = .ok r ∧
      t = succeed (writeResult r (beforeEnding i s)) := by
  obtain ⟨e, rfl⟩ | hsucceeds := runWord_endings h
  · exact absurd (raise_err e c s ▸ herr) (code_ne_zero e)
  · exact hsucceeds

theorem beforeEnding_ecmd (i : Instr) (s : State) : (beforeEnding i s).ecmd = s.ecmd := by
  cases i <;> rfl

/-- Ahead of the endings only CLRFLT writes `FLT` (R181). -/
theorem beforeEnding_flt {i : Instr} (h : i ≠ .clrflt) (s : State) :
    (beforeEnding i s).flt = s.flt := by
  cases i with
  | clrflt => exact absurd rfl h
  | calld g1 g2 ot => exact loadCalibration_flt _ ot s
  | _ => rfl

/-- Settles O40: the error entry on the state the word found, and every further word completes. -/
theorem errorIsPrecise : Obligations.ErrorIsPrecise := by
  intro c s t h herr
  obtain ⟨e, rfl⟩ := runWord_of_err_ne_zero h herr
  have hends := raise_endsInError e c s
  rw [← raise_err e c s] at hends
  exact ⟨hends, rfl, rfl, raise_calv e c s, rfl, rfl, fun c' => runWord_next c' _⟩

/-- Settles O41: the epilogue keeps `FLT` and `ECMD`, and ahead of it only CLRFLT writes one of them. -/
theorem successKeepsFaultRecord : Obligations.SuccessKeepsFaultRecord := by
  intro c s t h herr
  obtain ⟨i, r, hi, -, rfl⟩ := runWord_of_err_zero h herr
  refine ⟨beforeEnding_ecmd i s, fun hclrflt => ?cleared, fun hother => ?kept⟩
  case cleared =>
    obtain rfl : i = .clrflt := by simpa [hi] using hclrflt
    exact (succeed_flt _).trans (clearFault_flt s)
  case kept =>
    exact (succeed_flt _).trans (beforeEnding_flt (fun hclrflt => hother (hclrflt ▸ hi)) s)

/-! ## `FLT` along a run (R27, R244) -/

/-- CLRFLT has one word (R65). -/
theorem decode_eq_clrflt_iff (c : Word) : decode c = .ok .clrflt ↔ c = 0xB0000000#32 := by
  constructor
  · intro h
    exact (encodeOfDecode c .clrflt h).symm
  · rintro rfl
    exact decodeOfEncode .clrflt

theorem runWord_flt_of_error {c : Word} {s t : State} (h : runWord c s = .next t)
    (herr : t.err ≠ 0#4) : t.flt = true := by
  obtain ⟨e, rfl⟩ := runWord_of_err_ne_zero h herr
  exact raise_flt e c s

/-- A word without error leaves a clear `FLT` clear, CLRFLT too. -/
theorem runWord_flt_clear {c : Word} {s t : State} (h : runWord c s = .next t) (herr : t.err = 0#4)
    (hs : s.flt = false) : t.flt = false := by
  obtain ⟨-, hcleared, hkept⟩ := successKeepsFaultRecord c s t h herr
  by_cases hclrflt : decode c = .ok .clrflt
  · exact hcleared hclrflt
  · exact (hkept hclrflt).trans hs

/-- Only CLRFLT clears `FLT`. -/
theorem runWord_flt_sticky {c : Word} {s t : State} (h : runWord c s = .next t)
    (hc : c ≠ 0xB0000000#32) (hs : s.flt = true) : t.flt = true := by
  by_cases herr : t.err = 0#4
  · obtain ⟨-, -, hkept⟩ := successKeepsFaultRecord c s t h herr
    exact (hkept (mt (decode_eq_clrflt_iff c).1 hc)).trans hs
  · exact runWord_flt_of_error h herr

theorem runsTo_flt_sticky {cs : List Word} {s t : State} (h : RunsTo cs s t)
    (hcs : 0xB0000000#32 ∉ cs) (hs : s.flt = true) : t.flt = true := by
  induction cs generalizing s with
  | nil =>
    obtain rfl : t = s := h
    exact hs
  | cons c cs ih =>
    obtain ⟨m, hm, hrest⟩ := h
    obtain ⟨hc, hrestcs⟩ := List.ne_and_not_mem_of_not_mem_cons hcs
    exact ih hrest hrestcs (runWord_flt_sticky hm (Ne.symm hc) hs)

/-- An answer is one next state. -/
theorem runWord_det {c : Word} {s t t' : State} (h : runWord c s = .next t)
    (h' : runWord c s = .next t') : t = t' := by
  rw [h] at h'
  injection h'

/-- Where a run of at least one word errs: at its first word, or in the rest of it. -/
theorem errsAt_cons_iff {c : Word} {cs : List Word} {s m : State} (hm : runWord c s = .next m)
    (before : List Word) (c' : Word) (after : List Word) :
    ErrsAt (c :: cs) s before c' after ↔
      (before = [] ∧ c' = c ∧ after = cs ∧ m.err ≠ 0#4) ∨
        ∃ before', before = c :: before' ∧ ErrsAt cs m before' c' after := by
  constructor
  · rintro ⟨hcs, n, n', hn, hn', herr⟩
    cases before with
    | nil =>
      obtain ⟨rfl, rfl⟩ := List.cons.inj hcs
      obtain rfl : n = s := hn
      exact .inl ⟨rfl, rfl, rfl, runWord_det hm hn' ▸ herr⟩
    | cons b before =>
      obtain ⟨rfl, htail⟩ := List.cons.inj hcs
      obtain ⟨m', hm', hn⟩ := hn
      obtain rfl := runWord_det hm hm'
      exact .inr ⟨before, rfl, htail, n, n', hn, hn', herr⟩
  · rintro (⟨rfl, rfl, rfl, herr⟩ | ⟨before', rfl, rfl, n, n', hn, hn', herr⟩)
    · exact ⟨rfl, s, m, rfl, hm, herr⟩
    · exact ⟨rfl, n, n', ⟨m, hm, hn⟩, hn', herr⟩

theorem noErrorIn_cons_iff {c : Word} {cs : List Word} {s m : State} (hm : runWord c s = .next m) :
    NoErrorIn (c :: cs) s ↔ m.err = 0#4 ∧ NoErrorIn cs m := by
  simp only [NoErrorIn, errsAt_cons_iff hm]
  constructor
  · intro h
    refine ⟨?_, fun before c' after herrs => h _ c' after (.inr ⟨before, rfl, herrs⟩)⟩
    by_contra herr
    exact h [] c cs (.inl ⟨rfl, rfl, rfl, herr⟩)
  · rintro ⟨herr, hrest⟩ before c' after (⟨-, -, -, hne⟩ | ⟨before', -, herrs⟩)
    · exact hne herr
    · exact hrest before' c' after herrs

/-- A run without error from a clear `FLT` ends with a clear one. -/
theorem runsTo_clean {cs : List Word} {s t : State} (h : RunsTo cs s t) (hs : CleanEnd s)
    (hno : NoErrorIn cs s) : CleanEnd t := by
  induction cs generalizing s with
  | nil =>
    obtain rfl : t = s := h
    exact hs
  | cons c cs ih =>
    obtain ⟨m, hm, hrest⟩ := h
    obtain ⟨herr, hno⟩ := (noErrorIn_cons_iff hm).1 hno
    exact ih hrest (runWord_flt_clear hm herr hs) hno

/-- A run with an error in it has a last one. -/
theorem noErrorIn_or_last (cs : List Word) (s : State) :
    NoErrorIn cs s ∨ ∃ before c after, ErrsAt cs s before c after ∧
      ∀ before' c' after', ErrsAt cs s before' c' after' → before'.length ≤ before.length := by
  induction cs generalizing s with
  | nil => exact .inl fun before c after h => absurd h.1 (by simp)
  | cons c cs ih =>
    obtain ⟨m, hm⟩ := runWord_next c s
    simp only [errsAt_cons_iff hm, noErrorIn_cons_iff hm]
    obtain hno | ⟨before, c', after, herrs, hlast⟩ := ih m
    · by_cases herr : m.err = 0#4
      · exact .inl ⟨herr, hno⟩
      · refine .inr ⟨[], c, cs, .inl ⟨rfl, rfl, rfl, herr⟩, ?_⟩
        rintro before' c' after' (⟨rfl, -⟩ | ⟨b, -, herrs⟩)
        · exact le_rfl
        · exact absurd herrs (hno b c' after')
    · refine .inr ⟨c :: before, c', after, .inr ⟨before, rfl, herrs⟩, ?_⟩
      rintro before' c'' after' (⟨rfl, -⟩ | ⟨b, rfl, herrs'⟩)
      · exact Nat.zero_le _
      · exact Nat.succ_le_succ (hlast b c'' after' herrs')

theorem runsTo_append {cs cs' : List Word} {s t : State} (h : RunsTo (cs ++ cs') s t) :
    ∃ m, RunsTo cs s m ∧ RunsTo cs' m t := by
  induction cs generalizing s with
  | nil => exact ⟨s, rfl, h⟩
  | cons c cs ih =>
    obtain ⟨m, hm, hrest⟩ := h
    obtain ⟨n, hn, hn'⟩ := ih hrest
    exact ⟨n, ⟨m, hm, hn⟩, hn'⟩

theorem runsTo_det {cs : List Word} {s t t' : State} (h : RunsTo cs s t) (h' : RunsTo cs s t') :
    t = t' := by
  induction cs generalizing s with
  | nil => exact Eq.trans h (Eq.symm h')
  | cons c cs ih =>
    obtain ⟨m, hm, hrest⟩ := h
    obtain ⟨m', hm', hrest'⟩ := h'
    obtain rfl := runWord_det hm hm'
    exact ih hrest hrest'

/-- An error with no CLRFLT behind it shows in `FLT` at the end of the run. -/
theorem runsTo_flt_of_errsAt {cs before after : List Word} {c : Word} {s t : State}
    (h : RunsTo cs s t) (herrs : ErrsAt cs s before c after) (hafter : 0xB0000000#32 ∉ after) :
    t.flt = true := by
  obtain ⟨rfl, n, n', hn, hn', herr⟩ := herrs
  obtain ⟨m, hm, m', hm', hrest⟩ := runsTo_append h
  obtain rfl := runsTo_det hn hm
  obtain rfl := runWord_det hn' hm'
  exact runsTo_flt_sticky hrest hafter (runWord_flt_of_error hn' herr)

/-- R244: a clear `FLT` at the end says that no word erred, if no CLRFLT follows the last error. -/
theorem noErrorIn_of_clean {cs : List Word} {s t : State} (h : RunsTo cs s t)
    (hproviso : NoClrfltAfterLastError cs s) (ht : CleanEnd t) : NoErrorIn cs s := by
  obtain hno | ⟨before, c, after, herrs, hlast⟩ := noErrorIn_or_last cs s
  · exact hno
  · have hflt := runsTo_flt_of_errsAt h herrs (hproviso before c after herrs hlast)
    exact absurd (ht.symm.trans hflt) (by decide)

theorem noClrfltAfterLastError_of_not_mem {cs : List Word} (h : 0xB0000000#32 ∉ cs) (s : State) :
    NoClrfltAfterLastError cs s := by
  rintro before c after ⟨rfl, -⟩ - hafter
  exact h (List.mem_append_right _ (List.mem_cons_of_mem _ hafter))

/-- Settles O42: the last error leaves `FLT` set, which only a CLRFLT behind it could clear; a run without error
never sets it. -/
theorem cleanRunIffNoError : Obligations.CleanRunIffNoError := by
  intro cs s t h
  refine ⟨fun hproviso => ⟨noErrorIn_of_clean h hproviso, runsTo_clean h⟩,
    fun hnone => ⟨fun ht => ⟨?start, ?run⟩, fun ⟨hs, hno⟩ => runsTo_clean h hs hno⟩⟩
  case start =>
    by_contra hs
    have hflt := runsTo_flt_sticky h hnone (Bool.eq_true_of_not_eq_false hs)
    exact absurd (ht.symm.trans hflt) (by decide)
  case run => exact noErrorIn_of_clean h (noClrfltAfterLastError_of_not_mem hnone s) ht

/-! ## The order of the errors (R203) -/

/-- Bits 15:14 of a word with a raw operand are 0 exactly where the operand has 14 bits (R101). -/
theorem rawBits_eq_zero_iff (c : Word) :
    c.extractLsb' 14 2 = 0#2 ↔ rawNat (fieldHI c) (fieldLO c) ≤ 0x3FFF := by
  rw [field_eq_zero_iff, rawNat, fieldHI, fieldLO, toNat_field, toNat_field]
  omega

section Reported

variable {i : Instr} {s t : State} (ht : exec i s = .next t)
include ht

theorem err_of_refuses {e : Nat} {code : BitVec 4} (h : Refuses i s e) (hcode : code.toNat = e) :
    t.err = code :=
  BitVec.eq_of_toNat_eq ((h.err_eq ht).trans hcode.symm)

theorem err_of_yields {v : Int} {a : Nat} (h : Yields i s v a) : t.err = 0#4 :=
  (h.succeeds ht).err_eq_zero

/-- A command that computes a result whatever its operands reports no error. -/
theorem err_of_result {r : Result} (h : commandResult i s = .ok r) : t.err = 0#4 := by
  rw [exec_eq_complete, h, complete_ok] at ht
  injection ht with ht
  exact ht ▸ succeed_err _

/-- CELLV and PACKV check the calibration before the raw operand. -/
theorem err_of_calibrated_raw {hi lo : Byte} {v : Int} {a : Nat}
    (huncalibrated : s.calv = false → Refuses i s 2)
    (hwide : s.calv = true → 0x3FFF < rawNat hi lo → Refuses i s 3)
    (hfits : s.calv = true → rawNat hi lo ≤ 0x3FFF → Yields i s v a) :
    if s.calv = false then t.err = 2#4
    else if 0x3FFF < rawNat hi lo then t.err = 3#4 else t.err = 0#4 := by
  split_ifs with hcalv hraw
  · exact err_of_refuses ht (huncalibrated hcalv) rfl
  · exact err_of_refuses ht (hwide (Bool.eq_true_of_not_eq_false hcalv) hraw) rfl
  · exact err_of_yields ht (hfits (Bool.eq_true_of_not_eq_false hcalv) (not_lt.1 hraw))

/-- BALSEL and BALUPD check their index alone. -/
theorem err_of_index {idx : Byte} (hout : balmap idx = none → Refuses i s 4)
    (htarget : ∀ target, balmap idx = some target → ∃ v a, Yields i s v a) :
    if idx.toNat < 1 ∨ 15 < idx.toNat then t.err = 4#4 else t.err = 0#4 := by
  split_ifs with hidx
  · exact err_of_refuses ht (hout ((balmap_none_iff idx).2 hidx)) rfl
  · obtain ⟨target, h⟩ := exists_target (idx := idx) (by omega) (by omega)
    obtain ⟨v, a, hyields⟩ := htarget target h
    exact err_of_yields ht hyields

end Reported

section Commands

variable {s t : State}

theorem tripenc_err {tgt : BitVec 24} (ht : exec (.tripenc tgt) s = .next t) :
    if s.calv = false then t.err = 2#4 else t.err = 0#4 ∨ t.err = 6#4 := by
  split_ifs with hcalv
  · exact err_of_refuses ht (refuses_uncalibrated rfl hcalv) rfl
  have hset := Bool.eq_true_of_not_eq_false hcalv
  by_cases hout : tripQuotient tgt s < 0 ∨ tripQuotient tgt s > 16383
  · exact .inr (err_of_refuses ht (tripenc_refuses_range hset hout) rfl)
  · obtain ⟨q, hq⟩ := Int.eq_ofNat_of_zero_le (a := tripQuotient tgt s) (by omega)
    exact .inl (err_of_yields ht (tripenc_yields hset hq (by omega)))

theorem tripdec_err {k : TripKind} {b : Byte} (ht : exec (.tripdec k b) s = .next t) :
    if s.calv = false then t.err = 2#4 else t.err = 0#4 := by
  split_ifs with hcalv
  · exact err_of_refuses ht (refuses_uncalibrated rfl hcalv) rfl
  · exact err_of_yields ht (tripdec_yields (Bool.eq_true_of_not_eq_false hcalv) k b)

/-- TEMP checks its channel before the raw operand (R151), and only an external channel has no result for some
readings. -/
theorem temp_err {ch hi lo : Byte} (ht : exec (.temp ch hi lo) s = .next t) :
    if 3 < ch.toNat then t.err = 4#4
    else if 0x3FFF < rawNat hi lo then t.err = 3#4
    else t.err = 0#4 ∨ ch.toNat ≠ 0 ∧ t.err = 5#4 := by
  split_ifs with hch hraw
  · exact err_of_refuses ht (temp_refuses_arg hch hi lo s) rfl
  · exact err_of_refuses ht (temp_refuses_raw14 (not_lt.1 hch) hraw s) rfl
  rcases Nat.eq_zero_or_pos ch.toNat with hzero | hpos
  · obtain rfl : ch = 0#8 := BitVec.eq_of_toNat_eq hzero
    exact .inl (err_of_yields ht (temp_yields_internal (not_lt.1 hraw) s))
  cases hrow : lutRow lutOhm (rawNat hi lo) with
  | none =>
    exact .inr ⟨hpos.ne',
      err_of_refuses ht (temp_refuses_lut hpos (not_lt.1 hch) (not_lt.1 hraw) hrow s) rfl⟩
  | some row =>
    exact .inl (err_of_yields ht (temp_yields_row hpos (not_lt.1 hch) (not_lt.1 hraw) hrow s))

end Commands

/-- Settles O39: an illegal word ends in `E_ILL`; of a legal one `OP` selects the checks that its command makes,
which the command's own lemma gives in their order. -/
theorem errorPriority : Obligations.ErrorPriority := by
  intro c s t ht
  by_cases hlegal : FormatLegal c
  case neg =>
    dsimp only
    rw [if_pos hlegal]
    exact (isIllegal_of_not_formatLegal hlegal s).err_eq ht
  obtain ⟨i, hi⟩ := (legalWordIffReservedBitsZero c s).1.2 hlegal
  rw [runWord_of_decode_ok hi] at ht
  dsimp only
  rw [if_neg (not_not_intro hlegal)]
  simp only [ne_eq, rawBits_eq_zero_iff]
  have hlt := c.isLt
  rcases decode_ok_cases hi with
      ⟨hrow, rfl⟩ | ⟨hrow, rfl⟩ | ⟨hrow, rfl⟩ | ⟨hrow, rfl⟩ | ⟨hrow, rfl⟩ | ⟨hrow, rfl⟩ |
      ⟨hrow, rfl⟩ | ⟨hrow, rfl⟩ | ⟨hrow, rfl⟩ | ⟨hrow, rfl⟩ | ⟨hrow, rfl⟩ | ⟨hrow, rfl⟩
  · have hop : (c.extractLsb' 28 4).toNat = 0 := by rw [toNat_field]; omega
    simpa [hop] using err_of_result ht rfl
  · have hop : (c.extractLsb' 28 4).toNat = 1 := by rw [toNat_field]; omega
    simpa [hop] using err_of_result ht rfl
  · have hop : (c.extractLsb' 28 4).toNat = 2 := by rw [toNat_field]; omega
    simpa [hop] using err_of_result ht rfl
  · have hop : (c.extractLsb' 28 4).toNat = 3 := by rw [toNat_field]; omega
    simpa [hop] using err_of_calibrated_raw ht (refuses_uncalibrated rfl) cellv_refuses_raw14
      cellv_yields
  · have hop : (c.extractLsb' 28 4).toNat = 4 := by rw [toNat_field]; omega
    simpa [hop] using err_of_calibrated_raw ht (refuses_uncalibrated rfl) packv_refuses_raw14
      packv_yields
  · have hop : (c.extractLsb' 28 4).toNat = 5 := by rw [toNat_field]; omega
    simpa [hop] using tripenc_err ht
  · have hop : (c.extractLsb' 28 4).toNat = 6 := by rw [toNat_field]; omega
    simpa [hop] using tripdec_err ht
  · have hop : (c.extractLsb' 28 4).toNat = 7 := by rw [toNat_field]; omega
    simpa [hop] using err_of_result ht rfl
  · have hop : (c.extractLsb' 28 4).toNat = 8 := by rw [toNat_field]; omega
    simpa [hop] using temp_err (ch := c.extractLsb' 16 8) ht
  · have hop : (c.extractLsb' 28 4).toNat = 9 := by rw [toNat_field]; omega
    simpa [hop] using err_of_index (idx := c.extractLsb' 8 8) ht (balsel_refuses · s)
      fun _ h => ⟨_, _, balsel_yields h s⟩
  · have hop : (c.extractLsb' 28 4).toNat = 10 := by rw [toNat_field]; omega
    simpa [hop] using err_of_index (idx := c.extractLsb' 8 8) ht (balupd_refuses · _ _ s)
      fun _ h => ⟨_, _, balupd_yields h _ _ s⟩
  · have hop : (c.extractLsb' 28 4).toNat = 11 := by rw [toNat_field]; omega
    simpa [hop] using err_of_result ht rfl

end Sys2Proof.Machine
end

section
/-! PROOFS. The host's procedures (70_reset_and_hazards.md R233 to R238). Each part is said once, as the
transactions it adds to the bus and what it leaves of the VSC, the mode and the time; the statements about whole
procedures put these together. The AFE may change its registers before every transaction, except where a
statement takes a quiet one. -/

namespace Sys2Proof.Machine

/-! ## The readiness probe (R233) -/

section Probe

variable {afe : Afe} {n : Nat} {d : Driver}

/-- The address of the register that the probe polls. -/
def probeAddress (afe : Afe) : Nat := afe.address Config.probeTrim.reg

/-- The driver after one poll. -/
def polled (afe : Afe) (d : Driver) : Driver := (readByte afe (probeAddress afe) d).2

/-- A poll that reads nonzero ends the probe. -/
theorem probe_of_ready (h : d.regsNext afe (probeAddress afe) ≠ 0#8) :
    probe afe (n + 1) d = (true, polled afe d) :=
  if_pos h

/-- A poll that reads zero is followed by 100 ms and the polls left. -/
theorem probe_of_not_ready (h : d.regsNext afe (probeAddress afe) = 0#8) :
    probe afe (n + 1) d = probe afe n ((polled afe d).wait 100) :=
  if_neg (not_not_intro h)

theorem polled_bus (h : d.regsNext afe (probeAddress afe) = 0#8) :
    ((polled afe d).wait 100).bus = d.bus ++ [.read (probeAddress afe) 0#8] := by
  rw [wait_bus, polled, readByte_bus, h]

/-- The probe issues no command and keeps the mode. -/
theorem probe_frame (afe : Afe) (n : Nat) (d : Driver) :
    (probe afe n d).2.vsc = d.vsc ∧ (probe afe n d).2.mode = d.mode := by
  induction n generalizing d with
  | zero => exact ⟨rfl, rfl⟩
  | succ n ih =>
    by_cases h : d.regsNext afe (probeAddress afe) = 0#8
    · rw [probe_of_not_ready h]
      exact ih _
    · rw [probe_of_ready h]
      exact ⟨rfl, rfl⟩

/-- A failed probe has read zero at every poll. -/
theorem probe_fails (h : (probe afe n d).1 = false) :
    (probe afe n d).2.bus = d.bus ++ List.replicate n (.read (probeAddress afe) 0#8) ∧
      (probe afe n d).2.now = d.now + 100 * n := by
  induction n generalizing d with
  | zero => exact ⟨(List.append_nil _).symm, rfl⟩
  | succ n ih =>
    by_cases hread : d.regsNext afe (probeAddress afe) = 0#8
    · rw [probe_of_not_ready hread] at h ⊢
      obtain ⟨hbus, hnow⟩ := ih h
      refine ⟨?_, hnow.trans ?_⟩
      · rw [hbus, polled_bus hread, List.append_assoc, List.replicate_succ]; rfl
      · rw [wait_now, polled, readByte_now]; omega
    · rw [probe_of_ready hread] at h
      cases h

/-- A probe that succeeds has read zero at each poll but the last. -/
theorem probe_succeeds (h : (probe afe n d).1 = true) :
    ∃ k v, k < n ∧ v ≠ 0#8 ∧ (probe afe n d).2.now = d.now + 100 * k ∧
      (probe afe n d).2.bus =
        d.bus ++ List.replicate k (.read (probeAddress afe) 0#8) ++ [.read (probeAddress afe) v] := by
  induction n generalizing d with
  | zero => cases h
  | succ n ih =>
    by_cases hread : d.regsNext afe (probeAddress afe) = 0#8
    · rw [probe_of_not_ready hread] at h ⊢
      obtain ⟨k, v, hk, hv, hnow, hbus⟩ := ih h
      refine ⟨k + 1, v, Nat.succ_lt_succ hk, hv, hnow.trans ?_, ?_⟩
      · rw [wait_now, polled, readByte_now]; omega
      · rw [hbus, polled_bus hread, List.append_assoc d.bus, List.replicate_succ]; rfl
    · rw [probe_of_ready hread]
      exact ⟨0, _, n.succ_pos, hread, rfl, by rw [polled, readByte_bus, List.replicate_zero,
        List.append_nil]⟩

/-- With a quiet AFE a zero stays one, so every poll reads it. -/
theorem probe_of_quiet_zero (hquiet : afe.Quiet) (h : d.regs (probeAddress afe) = 0#8) :
    (probe afe n d).1 = false := by
  induction n generalizing d with
  | zero => rfl
  | succ n ih =>
    have hregs := regsNext_of_quiet hquiet d
    rw [probe_of_not_ready (by rwa [hregs])]
    refine ih ?_
    rwa [wait_regs, polled, readByte_regs, hregs]

theorem probe_of_quiet (hquiet : afe.Quiet) :
    (probe afe (n + 1) d).1 = true ↔ d.regs (probeAddress afe) ≠ 0#8 := by
  constructor
  · intro h hzero
    exact absurd (h.symm.trans (probe_of_quiet_zero hquiet hzero)) (by decide)
  · intro h
    rw [probe_of_ready (by rwa [regsNext_of_quiet hquiet])]

end Probe

/-- Settles O53. -/
theorem probePollsOneTrimRegister : Obligations.ProbePollsOneTrimRegister := by
  refine ⟨Config.probeTrim.reg, ?one_of_three, fun afe d => ?probe⟩
  case one_of_three =>
    cases Config.probeTrim with
    | gtrim1 => exact .inl rfl
    | gtrim2 => exact .inr (.inl rfl)
    | otrim => exact .inr (.inr rfl)
  case probe =>
    obtain ⟨hvsc, hmode⟩ := probe_frame afe 10 d
    refine ⟨hvsc, hmode, ?_, probe_of_quiet⟩
    cases hend : (probe afe 10 d).1 with
    | false => exact .inl ⟨rfl, probe_fails hend⟩
    | true => exact .inr ⟨rfl, probe_succeeds hend⟩

/-! ## Ship mode and the modes (R234, R235) -/

/-- Settles O50: the places are those of `ctrlByte`, which differ. -/
theorem shipModeIsFourWrites : Obligations.ShipModeIsFourWrites := by
  have hne : Config.shipUpper.val ≠ shipLower.val := fun h => shipLower_ne_upper (Fin.ext h.symm)
  refine ⟨fun afe d hmode => ?writes, ⟨Config.shipUpper, shipLower, Config.shipUpper.isLt,
    shipLower.isLt, hne, fun pattern => ⟨?upper, ?lower, fun j hj hupper hlower => ?others⟩⟩,
    fun afe d hmode => if_neg hmode⟩
  case writes => exact ⟨_, if_pos hmode, by simp [shipPatterns], rfl, rfl⟩
  case upper => rw [ctrlByte_getLsbD _ _ Config.shipUpper.isLt, if_neg hne, if_pos rfl]
  case lower => rw [ctrlByte_getLsbD _ _ shipLower.isLt, if_pos rfl]
  case others => rw [ctrlByte_getLsbD _ _ hj, if_neg hlower, if_neg hupper]

/-- A procedure that keeps the mode where it runs keeps it always. -/
theorem unlessShip_mode {α : Type} {p : Driver → α × Driver} {d : Driver}
    (h : (p d).2.mode = d.mode) : (unlessShip p d).2.mode = d.mode := by
  unfold unlessShip
  split
  · rfl
  · exact h

@[simp] theorem selectCategory_mode (afe : Afe) (ch : Channel) (d : Driver) :
    (selectCategory afe ch d).mode = d.mode := by
  unfold selectCategory
  split <;> rfl

theorem balanceCell_mode (afe : Afe) (idx : Byte) (en : Bool) (d : Driver) :
    (balanceCell afe idx en d).2.mode = d.mode := by
  dsimp only [balanceCell]
  split <;> rfl

theorem serveInterrupt_mode (afe : Afe) (d : Driver) : (serveInterrupt afe d).2.mode = d.mode := by
  unfold serveInterrupt
  split <;> rfl

theorem onInterrupt_mode (d : Driver) : (onInterrupt d).mode = d.mode := by
  unfold onInterrupt
  split <;> rfl

/-- Bring-up leaves normal mode, or the mode as it was where the probe fails (R233, R234). -/
theorem runBringUp_mode (afe : Afe) (cmp : TripCompare) (d : Driver) :
    (runBringUp afe cmp d).2.mode = d.mode ∨ (runBringUp afe cmp d).2.mode = .normal := by
  dsimp only [runBringUp]
  split
  · exact .inr rfl
  · exact .inl (probe_frame afe 10 d).2

theorem bringUp_mode (afe : Afe) (cmp : TripCompare) (d : Driver) :
    (bringUp afe cmp d).2.mode = d.mode ∨
      d.mode ≠ .ship ∧ (bringUp afe cmp d).2.mode = .normal := by
  by_cases hship : d.mode = .ship
  · exact .inl (congrArg (·.2.mode) (unlessShip_ship hship (runBringUp afe cmp)))
  · rw [bringUp, unlessShip_run hship]
    exact (runBringUp_mode afe cmp d).imp_right fun h => ⟨hship, h⟩

/-- Every change of the mode: bring-up to normal, and from there the transition to ship. -/
theorem perform_mode (afe : Afe) (call : HostCall) (d : Driver) :
    (d.perform afe call).mode = d.mode ∨
    (d.mode = .uninitialized ∧ (∃ cmp, call = .bringUp cmp) ∧ (d.perform afe call).mode = .normal) ∨
    (d.mode = .normal ∧ call = .enterShipMode ∧ (d.perform afe call).mode = .ship) := by
  cases call with
  | measure pair command => exact .inl (unlessShip_mode rfl)
  | setBalancing idx en => exact .inl (unlessShip_mode (balanceCell_mode afe idx en d))
  | readTemperature ch => exact .inl (unlessShip_mode (selectCategory_mode afe ch d))
  | interrupt => exact .inl (onInterrupt_mode d)
  | pollInterrupt => exact .inl (unlessShip_mode (serveInterrupt_mode afe d))
  | bringUp cmp =>
    obtain hkept | ⟨hship, hnormal⟩ := bringUp_mode afe cmp d
    · exact .inl hkept
    · cases hmode : d.mode with
      | uninitialized => exact .inr (.inl ⟨rfl, ⟨cmp, rfl⟩, hnormal⟩)
      | normal => exact .inl hnormal
      | ship => exact absurd hmode hship
  | enterShipMode =>
    by_cases hmode : d.mode = .normal
    · exact .inr (.inr ⟨hmode, rfl, by simp [Driver.perform, enterShipMode, hmode]⟩)
    · exact .inl (by simp [Driver.perform, enterShipMode, hmode])

/-- In ship mode the one thing a call can still do is set the interrupt handler's flag (R240). -/
theorem perform_ship {d : Driver} (h : d.mode = .ship) (afe : Afe) (call : HostCall) :
    ∃ flag, d.perform afe call = { d with interruptFlag := flag } := by
  cases call with
  | measure pair command => exact ⟨_, congrArg Prod.snd (unlessShip_ship h _)⟩
  | setBalancing idx en => exact ⟨_, congrArg Prod.snd (unlessShip_ship h _)⟩
  | readTemperature ch => exact ⟨_, congrArg Prod.snd (unlessShip_ship h _)⟩
  | bringUp cmp => exact ⟨_, congrArg Prod.snd (unlessShip_ship h _)⟩
  | pollInterrupt => exact ⟨_, congrArg Prod.snd (unlessShip_ship h _)⟩
  | enterShipMode =>
    have hnone : enterShipMode afe d = none := if_neg (by simp [h])
    exact ⟨_, congrArg (·.getD d) hnone⟩
  | interrupt =>
    by_cases hattached : d.interruptAttached
    · exact ⟨true, if_pos hattached⟩
    · exact ⟨d.interruptFlag, if_neg hattached⟩

theorem performAll_ship {d : Driver} (h : d.mode = .ship) (afe : Afe) (calls : List HostCall) :
    ∃ flag, d.performAll afe calls = { d with interruptFlag := flag } := by
  induction calls generalizing d with
  | nil => exact ⟨_, rfl⟩
  | cons call calls ih =>
    obtain ⟨flag, hcall⟩ := perform_ship h afe call
    obtain ⟨flag', hcalls⟩ := ih (d := { d with interruptFlag := flag }) h
    exact ⟨flag', by rw [Driver.performAll, List.foldl_cons, hcall]; exact hcalls⟩

theorem performAll_initialized {d : Driver} (h : d.mode ≠ .uninitialized) (afe : Afe)
    (calls : List HostCall) : (d.performAll afe calls).mode ≠ .uninitialized := by
  induction calls generalizing d with
  | nil => exact h
  | cons call calls ih =>
    refine ih (d := d.perform afe call) ?_
    obtain hkept | ⟨-, -, hmode⟩ | ⟨-, -, hmode⟩ := perform_mode afe call d
    · exact hkept ▸ h
    · simp [hmode]
    · simp [hmode]

/-- Settles O52: by what one call does to the mode, along the calls. -/
theorem shipIsTerminal : Obligations.ShipIsTerminal := by
  refine ⟨perform_mode, fun afe d hship => ?nothing, fun afe calls d hship => ?sequence,
    fun afe calls d hnormal => performAll_initialized (by simp [hnormal]) afe calls⟩
  case nothing =>
    exact ⟨fun _ _ => unlessShip_ship hship _, fun _ _ => unlessShip_ship hship _,
      fun _ => unlessShip_ship hship _, fun _ => unlessShip_ship hship _, unlessShip_ship hship _,
      if_neg (by simp [hship])⟩
  case sequence =>
    obtain ⟨flag, h⟩ := performAll_ship hship afe calls
    simp only [h, hship, and_self]

/-! ## The thermistor category (R237, R238) -/

theorem selectCategory_of_same {ch : Channel} {d : Driver} (h : d.category = some ch.category)
    (afe : Afe) : selectCategory afe ch d = { d with now := max d.now d.validAfter } := by
  simp only [selectCategory, h, if_true]

/-- A change writes the control bit and waits for two seconds (R237). -/
theorem selectCategory_of_change {ch : Channel} {d : Driver} (h : d.category ≠ some ch.category)
    (afe : Afe) :
    selectCategory afe ch d =
      { writeBit afe .tsel (tselOf ch.category) d with
        category := some ch.category, validAfter := d.now + 2000, now := d.now + 2000 } := by
  simp only [selectCategory, h, if_false, writeBit_now, Nat.max_eq_right (Nat.le_add_right _ _)]

theorem tselOf_category (ch : Channel) :
    tselOf ch.category =
      if ch = .internal then !Config.tselExternal else Config.tselExternal := by
  cases ch <;> rfl

/-- Outside ship mode a reading selects the category, reads the channel's pair and gives its bytes to TEMP. -/
theorem readTemperature_run {d : Driver} (h : d.mode ≠ .ship) (afe : Afe) (ch : Channel) :
    readTemperature afe ch d =
      (some (convertTemperature afe ch d).1, (convertTemperature afe ch d).2) :=
  unlessShip_run h _

/-- After a reading its category is selected, and further readings of it are valid at once. -/
theorem selectCategory_of_ready {ch : Channel} {d : Driver} (hcategory : d.category = some ch.category)
    (hvalid : d.validAfter ≤ d.now) (afe : Afe) : selectCategory afe ch d = d := by
  rw [selectCategory_of_same hcategory, Nat.max_eq_left hvalid]

/-- Settles O47: by whether the category changes; what follows the selection keeps category and time. -/
theorem settlingDelayOnCategoryChange : Obligations.SettlingDelayOnCategoryChange := by
  refine ⟨fun afe ch d hchange => ?change, fun afe ch d hsame => selectCategory_of_same hsame afe,
    fun afe afe' ch ch' d hmode hcategory => ?again, fun afe ch d hmode => ?reading⟩
  case change =>
    obtain ⟨new, hbus, hbits⟩ := writeBit_bus afe .tsel (tselOf ch.category) d
    have hbit := hbits _ (Config.bitPlace .tsel).bit.isLt
    rw [if_pos rfl, tselOf_category] at hbit
    dsimp only
    rw [selectCategory_of_change hchange]
    exact ⟨rfl, rfl, rfl, rfl, _, _, new, hbus, rfl, hbit,
      fun j hj hne => (hbits j hj).trans (if_neg hne)⟩
  case again =>
    obtain ⟨hselected, hvalid⟩ := selectCategory_ready afe ch d
    rw [readTemperature_run hmode]
    exact selectCategory_of_ready (d := (convertTemperature afe ch d).2)
      (hselected.trans (congrArg some hcategory)) hvalid afe'
  case reading =>
    refine ⟨_, _, _, readTemperature_run hmode afe ch, readPair_bus afe _ _, ?_⟩
    exact congrArg (Machine.issue _) (selectCategory_vsc afe ch d)

end Sys2Proof.Machine
end

section
/-! PROOFS. Step (h) of the initialization and bring-up as a whole (70_reset_and_hazards.md R233, R234,
90_conflicts.md C7). Everything step (h) asks of the VSC depends on the calibration alone, which none of its commands
writes: whether the target has a byte, which one, and whether a setting is at the target. So each end of
`convergeTrip` is said in terms of the calibration it started from, and a setting that is at the target stays
there. -/

namespace Sys2Proof.Machine

/-! ## Commands that keep the calibration -/

theorem SameCalibration.refl (s : State) : SameCalibration s s := ⟨rfl, rfl, rfl⟩

theorem SameCalibration.trans {s t u : State} (h : SameCalibration s t) (h' : SameCalibration t u) :
    SameCalibration s u :=
  ⟨h.gain.trans h'.gain, h.offs.trans h'.offs, h.calv.trans h'.calv⟩

theorem SameCalibration.symm {s t : State} (h : SameCalibration s t) : SameCalibration t s :=
  ⟨h.gain.symm, h.offs.symm, h.calv.symm⟩

/-- Both states are outside reset, with the same calibration. -/
structure SameService (s s' : State) : Prop where
  calibration : SameCalibration s s'
  released : s.resetAsserted = false
  released' : s'.resetAsserted = false

theorem SameService.refl {s : State} (h : s.resetAsserted = false) : SameService s s :=
  ⟨.refl s, h, h⟩

theorem SameService.trans {s t u : State} (h : SameService s t) (h' : SameService t u) :
    SameService s u :=
  ⟨h.calibration.trans h'.calibration, h.released, h'.released'⟩

theorem SameService.symm {s t : State} (h : SameService s t) : SameService t s :=
  ⟨h.calibration.symm, h.released', h.released⟩

/-- Outside reset an issued command's word runs and leaves the state that `issue` gives. -/
theorem runWord_encode {s : State} (hr : s.resetAsserted = false) (i : Instr) :
    runWord (encode i) s = .next (issue i s) := by
  obtain ⟨t, ht⟩ := runWord_next (encode i) s
  rw [ht, issue_of_next hr ht]

/-- Every command but CALLD leaves the VSC in the same service. -/
theorem issue_sameService {s : State} (hr : s.resetAsserted = false) {i : Instr}
    (hi : ∀ g1 g2 ot, i ≠ .calld g1 g2 ot) : SameService s (issue i s) := by
  have hrun := runWord_encode hr i
  obtain ⟨hreset, -⟩ := runWord_inputs hrun
  obtain hsame | ⟨⟨g1, g2, ot, hcalld⟩, -⟩ := runWord_calibration hrun
  · exact ⟨hsame, hr, hreset.trans hr⟩
  · rw [decodeOfEncode] at hcalld
    injection hcalld with hcalld
    exact absurd hcalld (hi g1 g2 ot)

/-! ## The target of a trip register -/

/-- TRIPENC accepts the kind's target. -/
def HasTarget (k : TripKind) (s : State) : Prop := (issue (.tripenc (tripTarget k)) s).err = 0#4

/-- The byte that TRIPENC gives for the kind's target. -/
def targetByte (k : TripKind) (s : State) : Byte :=
  (issue (.tripenc (tripTarget k)) s).res.setWidth 8

/-- The setting `current` is at the target by the chosen comparison (R234). -/
def AtTarget (cmp : TripCompare) (k : TripKind) (current : Byte) (s : State) : Prop :=
  match cmp with
  | .bytes => current = targetByte k s
  | .voltages =>
    withinStep (linearMicrovolts (tripField k current).toNat s) (tripTarget k) s.gainInt = true

section Target

variable {s s' : State} {cmp : TripCompare} {k : TripKind} {current : Byte}

theorem HasTarget.calv (h : HasTarget k s) (hr : s.resetAsserted = false) : s.calv = true := by
  by_contra hcalv
  have hrun := (runWord_of_decode_ok (decodeOfEncode _) s).symm.trans
    (runWord_encode hr (.tripenc (tripTarget k)))
  exact (refuses_uncalibrated rfl (eq_false_of_ne_true hcalv)).not_success (by decide) hrun h

theorem SameService.hasTarget (h : SameService s s') (ht : HasTarget k s) : HasTarget k s' := by
  obtain ⟨herr, -⟩ := runWord_sameCalibration h.calibration (runWord_encode h.released _)
    (runWord_encode h.released' (.tripenc (tripTarget k)))
  exact herr.symm.trans ht

theorem SameService.targetByte_eq (h : SameService s s') (ht : HasTarget k s) :
    targetByte k s = targetByte k s' := by
  obtain ⟨hres, -⟩ := runWord_sameResults h.calibration (runWord_encode h.released _)
    (runWord_encode h.released' (.tripenc (tripTarget k))) ht (by simp [decodeOfEncode _])
    (by simp [decodeOfEncode _])
  rw [targetByte, hres, targetByte]

theorem SameService.atTarget (h : SameService s s') (ht : HasTarget k s)
    (hat : AtTarget cmp k current s) : AtTarget cmp k current s' := by
  cases cmp with
  | bytes => exact Eq.trans hat (h.targetByte_eq ht)
  | voltages =>
    rw [AtTarget, h.calibration.linearMicrovolts_eq, h.calibration.gainInt_eq] at hat
    exact hat

theorem SameService.atTarget_iff (h : SameService s s') (ht : HasTarget k s) :
    AtTarget cmp k current s ↔ AtTarget cmp k current s' :=
  ⟨h.atTarget ht, h.symm.atTarget (h.hasTarget ht)⟩

/-- Where there is a target, the comparison of step (h) is `AtTarget`, and its TRIPDEC keeps the VSC in
service. -/
theorem tripMatches_iff (hr : s.resetAsserted = false) (ht : HasTarget k s) :
    SameService s (tripMatches cmp k (targetByte k s) current s).2 ∧
      ((tripMatches cmp k (targetByte k s) current s).1 = true ↔ AtTarget cmp k current s) := by
  cases cmp with
  | bytes => exact ⟨.refl hr, beq_iff_eq⟩
  | voltages =>
    have hservice := issue_sameService hr (i := .tripdec k current) (by simp)
    obtain ⟨t, hexec, hres, -⟩ := tripdec_yields (ht.calv hr) k current
    obtain rfl := issue_of_exec hr hexec
    refine ⟨hservice, ?_⟩
    simp only [tripMatches, hres, ← hservice.calibration.gainInt_eq, AtTarget]

/-- The same of the states that step (h) compares in: those after commands that kept the service. -/
theorem SameService.tripMatches_iff (h : SameService s s') (ht : HasTarget k s) :
    SameService s (tripMatches cmp k (targetByte k s) current s').2 ∧
      ((tripMatches cmp k (targetByte k s) current s').1 = true ↔ AtTarget cmp k current s) := by
  obtain ⟨hservice, hmatches⟩ :=
    Machine.tripMatches_iff (cmp := cmp) (current := current) h.released' (h.hasTarget ht)
  rw [← h.targetByte_eq ht] at hservice hmatches
  exact ⟨h.trans hservice, hmatches.trans (h.atTarget_iff ht).symm⟩

end Target

/-! ## How step (h) ends for one register -/

/-- The address of a kind's trip register. -/
def tripAddress (afe : Afe) (k : TripKind) : Nat := afe.address (tripReg k)

/-- The read-back of a kind's trip register after its target's byte was written: the byte read and the driver. -/
def tripReadBack (afe : Afe) (k : TripKind) (d : Driver) : Byte × Driver :=
  readByte afe (tripAddress afe k) (writeByte afe (tripAddress afe k) (targetByte k d.vsc) d)

section ConvergeTrip

variable {afe : Afe} {cmp : TripCompare} {k : TripKind} {current : Byte} {d : Driver}

theorem convergeTrip_of_no_target (hr : d.vsc.resetAsserted = false) (h : ¬ HasTarget k d.vsc) :
    ∃ vsc, SameService d.vsc vsc ∧
      convergeTrip afe cmp k current d = (.noTarget, { d with vsc }) :=
  ⟨_, issue_sameService hr (by simp), if_pos h⟩

theorem convergeTrip_of_at_target (hr : d.vsc.resetAsserted = false) (h : HasTarget k d.vsc)
    (hat : AtTarget cmp k current d.vsc) :
    ∃ vsc, SameService d.vsc vsc ∧
      convergeTrip afe cmp k current d = (.unchanged, { d with vsc }) := by
  have hissue := issue_sameService hr (i := .tripenc (tripTarget k)) (by simp)
  obtain ⟨hbefore, hmatches⟩ := hissue.tripMatches_iff (cmp := cmp) (current := current) h
  exact ⟨_, hbefore, (if_neg (not_not_intro h)).trans (if_pos (hmatches.2 hat))⟩

/-- Off the target the byte is written and read back, and the outcome says whether what was read is at it. -/
theorem convergeTrip_of_off_target (hr : d.vsc.resetAsserted = false) (h : HasTarget k d.vsc)
    (hoff : ¬ AtTarget cmp k current d.vsc) :
    ∃ vsc, SameService d.vsc vsc ∧
      (AtTarget cmp k (tripReadBack afe k d).1 d.vsc ∧
          convergeTrip afe cmp k current d =
            (.converged, { (tripReadBack afe k d).2 with vsc }) ∨
        ¬ AtTarget cmp k (tripReadBack afe k d).1 d.vsc ∧
          convergeTrip afe cmp k current d =
            (.notConverged, { (tripReadBack afe k d).2 with vsc })) := by
  have hissue := issue_sameService hr (i := .tripenc (tripTarget k)) (by simp)
  obtain ⟨hbefore, hmatches⟩ := hissue.tripMatches_iff (cmp := cmp) (current := current) h
  obtain ⟨hafter, hconverged⟩ :=
    hbefore.tripMatches_iff (cmp := cmp) (current := (tripReadBack afe k d).1) h
  refine ⟨_, hafter, ?_⟩
  by_cases hback : AtTarget cmp k (tripReadBack afe k d).1 d.vsc
  · refine .inl ⟨hback, (if_neg (not_not_intro h)).trans ((if_neg (mt hmatches.1 hoff)).trans ?_)⟩
    exact congrArg (Prod.mk · _) (if_pos (hconverged.2 hback))
  · refine .inr ⟨hback, (if_neg (not_not_intro h)).trans ((if_neg (mt hmatches.1 hoff)).trans ?_)⟩
    exact congrArg (Prod.mk · _) (if_neg (mt hconverged.1 hback))

end ConvergeTrip

/-! ## The undervoltage target (90_conflicts.md C7) -/

/-- With a gain that CALLD can load, 3.32 V has a trip byte: its quotient fits 14 bits. -/
theorem hasTarget_under {s : State} (hr : s.resetAsserted = false) (hcalv : s.calv = true)
    (hlow : 365 ≤ s.gain.toNat) (hhigh : s.gain.toNat ≤ 396) : HasTarget .under s := by
  have hoffs := offsInt_range s
  have hgain := gainInt_legal hlow hhigh
  have htarget : ((tripTarget .under).toNat : Int) = 3320000 := rfl
  have hquot := tripQuotient_eq (s := s) (by omega) (tripTarget .under)
  rw [htarget] at hquot
  obtain ⟨-, hle, hlt⟩ := mul_tdiv_of_nonneg (a := 3320000 - 1000 * s.offsInt) (g := s.gainInt)
    (by omega) (by omega)
  have hnonneg : 0 ≤ tripQuotient (tripTarget .under) s := by
    rw [hquot]; exact Int.tdiv_nonneg (by omega) (by omega)
  obtain ⟨q, hq⟩ := Int.eq_ofNat_of_zero_le hnonneg
  rw [← hquot, hq] at hle
  obtain ⟨t, ht, hsucceeds⟩ := tripenc_yields hcalv hq (by nlinarith)
  rw [HasTarget, issue_of_exec hr ht]
  exact hsucceeds.err_eq_zero

/-- No undervoltage byte is at the target where the largest one lies more than a step below 3.32 V. -/
theorem not_atTarget_under {s : State}
    (h : 8176 * s.gainInt + 1000 * s.offsInt + 16 * s.gainInt < 3320000) (current : Byte) :
    ¬ AtTarget .voltages .under current s := by
  have hgain := gainInt_range s
  have hb := current.isLt
  have htarget : ((tripTarget .under).toNat : Int) = 3320000 := rfl
  have hfield : ((tripField .under current).toNat : Int) * s.gainInt ≤ 8176 * s.gainInt := by
    rw [tripField_under]
    exact mul_le_mul_of_nonneg_right (by omega) hgain.1
  simp only [AtTarget, withinStep, linearMicrovolts, htarget, Bool.and_eq_true, decide_eq_true_eq]
  omega

/-- Settles O49: the target has a byte, and neither what the register reads nor what is read back is at it. -/
theorem underTripNeverConverges : Obligations.UnderTripNeverConverges := by
  intro afe current d hr hcalv hlow hhigh hbelow
  have hoff := not_atTarget_under (s := d.vsc) hbelow
  obtain ⟨vsc, -, ⟨hback, -⟩ | ⟨-, hrun⟩⟩ := convergeTrip_of_off_target (afe := afe) hr
    (hasTarget_under hr hcalv hlow hhigh) (hoff current)
  · exact absurd hback (hoff _)
  · exact ⟨_, _, _, hrun, List.append_assoc _ _ _⟩

/-! ## A setting at its target stays there (R234) -/

/-- The register of the kind holds a setting at the target, if there is a target. -/
def Settled (afe : Afe) (cmp : TripCompare) (k : TripKind) (d : Driver) : Prop :=
  HasTarget k d.vsc → AtTarget cmp k (d.regs (tripAddress afe k)) d.vsc

section Settle

variable {afe : Afe} {cmp : TripCompare} {k : TripKind} {current : Byte} {d d' : Driver}

theorem Settled.of_sameService (h : Settled afe cmp k d) (hservice : SameService d.vsc d'.vsc)
    (hregs : d'.regs (tripAddress afe k) = d.regs (tripAddress afe k)) : Settled afe cmp k d' := by
  intro ht
  rw [hregs]
  have ht' := hservice.symm.hasTarget ht
  exact hservice.atTarget ht' (h ht')

/-- A settled register is not written: there is no transaction. -/
theorem convergeTrip_of_settled (hr : d.vsc.resetAsserted = false) (h : Settled afe cmp k d)
    (hcurrent : current = d.regs (tripAddress afe k)) :
    ∃ vsc, SameService d.vsc vsc ∧ (convergeTrip afe cmp k current d).2 = { d with vsc } := by
  subst hcurrent
  by_cases ht : HasTarget k d.vsc
  · obtain ⟨vsc, hservice, hrun⟩ := convergeTrip_of_at_target hr ht (h ht)
    exact ⟨vsc, hservice, congrArg Prod.snd hrun⟩
  · obtain ⟨vsc, hservice, hrun⟩ := convergeTrip_of_no_target hr ht
    exact ⟨vsc, hservice, congrArg Prod.snd hrun⟩

/-- A quiet AFE keeps the byte written, which is then what is read back. -/
theorem tripReadBack_of_quiet (hquiet : afe.Quiet) (k : TripKind) (d : Driver) :
    (tripReadBack afe k d).1 = targetByte k d.vsc ∧
      (tripReadBack afe k d).2.regs = setReg (tripAddress afe k) (targetByte k d.vsc) d.regs := by
  have hregs : (writeByte afe (tripAddress afe k) (targetByte k d.vsc) d).regsNext afe =
      setReg (tripAddress afe k) (targetByte k d.vsc) d.regs := by
    rw [regsNext_of_quiet hquiet, writeByte_regs, regsNext_of_quiet hquiet]
  exact ⟨(congrFun hregs _).trans (setReg_same _ _ _), hregs⟩

/-- With a quiet AFE, bringing a register to its target settles it, unless it ends without convergence, which by
bytes it does not; the other registers stay as they are. -/
theorem convergeTrip_settles (hquiet : afe.Quiet) (hr : d.vsc.resetAsserted = false)
    (hcurrent : current = d.regs (tripAddress afe k)) :
    SameService d.vsc (convergeTrip afe cmp k current d).2.vsc ∧
      (∀ a, a ≠ tripAddress afe k → (convergeTrip afe cmp k current d).2.regs a = d.regs a) ∧
      (cmp = .bytes → (convergeTrip afe cmp k current d).1 ≠ .notConverged) ∧
      ((convergeTrip afe cmp k current d).1 ≠ .notConverged →
        Settled afe cmp k (convergeTrip afe cmp k current d).2) := by
  subst hcurrent
  by_cases ht : HasTarget k d.vsc
  case neg =>
    obtain ⟨vsc, hservice, hrun⟩ := convergeTrip_of_no_target (afe := afe) (cmp := cmp)
      (current := d.regs (tripAddress afe k)) hr ht
    rw [hrun]
    exact ⟨hservice, fun _ _ => rfl, fun _ => by simp,
      fun _ ht' => absurd (hservice.symm.hasTarget ht') ht⟩
  by_cases hat : AtTarget cmp k (d.regs (tripAddress afe k)) d.vsc
  case pos =>
    obtain ⟨vsc, hservice, hrun⟩ := convergeTrip_of_at_target (afe := afe) hr ht hat
    rw [hrun]
    exact ⟨hservice, fun _ _ => rfl, fun _ => by simp, fun _ _ => hservice.atTarget ht hat⟩
  obtain ⟨hback, hregs⟩ := tripReadBack_of_quiet hquiet k d
  obtain ⟨vsc, hservice, ⟨hconverged, hrun⟩ | ⟨hmissed, hrun⟩⟩ :=
    convergeTrip_of_off_target (afe := afe) hr ht hat
  · rw [hrun]
    refine ⟨hservice, fun a ha => ?_, fun _ => by simp, fun _ _ => ?_⟩
    · exact (congrFun hregs a).trans (setReg_other ha _ _)
    · have hreg : (tripReadBack afe k d).1 = (tripReadBack afe k d).2.regs (tripAddress afe k) := by
        rw [hback, hregs, setReg_same]
      have hat' := hservice.atTarget ht hconverged
      rwa [hreg] at hat'
  · rw [hrun]
    refine ⟨hservice, fun a ha => ?_, fun hbytes => ?_, fun hne => absurd rfl hne⟩
    · exact (congrFun hregs a).trans (setReg_other ha _ _)
    · subst hbytes
      exact absurd hback hmissed

end Settle

/-- The driver after step (h) has read both settings. -/
def tripsRead (afe : Afe) (d : Driver) : Driver :=
  (readByte afe (tripAddress afe .over) (readByte afe (tripAddress afe .under) d).2).2

theorem tripsRead_of_quiet {afe : Afe} (hquiet : afe.Quiet) (d : Driver) :
    (tripsRead afe d).regs = d.regs ∧
      (tripsRead afe d).bus = d.bus ++
        [.read (tripAddress afe .under) (d.regs (tripAddress afe .under)),
         .read (tripAddress afe .over) (d.regs (tripAddress afe .over))] := by
  have hfirst : d.regsNext afe = d.regs := regsNext_of_quiet hquiet d
  have hsecond : (readByte afe (tripAddress afe .under) d).2.regsNext afe = d.regs :=
    (regsNext_of_quiet hquiet _).trans hfirst
  refine ⟨hsecond, ?_⟩
  rw [tripsRead, readByte_bus, readByte_bus, hsecond, hfirst, List.append_assoc]
  rfl

/-- Step (h) with a quiet AFE: both settings as they stand, one after the other. -/
theorem convergeTrips_of_quiet {afe : Afe} (hquiet : afe.Quiet) (cmp : TripCompare) (d : Driver) :
    let u := convergeTrip afe cmp .under (d.regs (tripAddress afe .under)) (tripsRead afe d)
    let o := convergeTrip afe cmp .over (d.regs (tripAddress afe .over)) u.2
    convergeTrips afe cmp d = ⟨u.1, o.1, o.2⟩ := by
  have hfirst : d.regsNext afe = d.regs := regsNext_of_quiet hquiet d
  have hsecond : (readByte afe (tripAddress afe .under) d).2.regsNext afe = d.regs :=
    (regsNext_of_quiet hquiet _).trans hfirst
  intro u o
  subst u o
  rw [← congrFun hsecond (tripAddress afe .over), ← congrFun hfirst (tripAddress afe .under)]
  rfl

/-- With both registers settled, step (h) reads them and writes nothing. -/
theorem convergeTrips_of_settled {afe : Afe} (hquiet : afe.Quiet) {cmp : TripCompare} {d : Driver}
    (hr : d.vsc.resetAsserted = false) (hunder : Settled afe cmp .under d)
    (hover : Settled afe cmp .over d) :
    (convergeTrips afe cmp d).driver.bus = (tripsRead afe d).bus := by
  obtain ⟨hregs, -⟩ := tripsRead_of_quiet hquiet d
  obtain ⟨vsc, hservice, hu⟩ := convergeTrip_of_settled (d := tripsRead afe d) hr
    (hunder.of_sameService (.refl hr) (congrFun hregs _)) (congrFun hregs _).symm
  obtain ⟨vsc', -, ho⟩ := convergeTrip_of_settled (d := { tripsRead afe d with vsc })
    hservice.released' (hover.of_sameService hservice (congrFun hregs _)) (congrFun hregs _).symm
  rw [convergeTrips_of_quiet hquiet, hu, ho]

/-- After step (h) both registers are settled, unless one of them ended without convergence. -/
theorem convergeTrips_settles {afe : Afe} (hquiet : afe.Quiet) {cmp : TripCompare} {d : Driver}
    (hr : d.vsc.resetAsserted = false) (hne : tripAddress afe .under ≠ tripAddress afe .over) :
    (convergeTrips afe cmp d).driver.vsc.resetAsserted = false ∧
      (cmp = .bytes →
        (convergeTrips afe cmp d).uv ≠ .notConverged ∧ (convergeTrips afe cmp d).ov ≠ .notConverged) ∧
      ((convergeTrips afe cmp d).uv ≠ .notConverged →
        Settled afe cmp .under (convergeTrips afe cmp d).driver) ∧
      ((convergeTrips afe cmp d).ov ≠ .notConverged →
        Settled afe cmp .over (convergeTrips afe cmp d).driver) := by
  obtain ⟨hregs, -⟩ := tripsRead_of_quiet hquiet d
  obtain ⟨hservice, hkept, hbytes, hsettled⟩ := convergeTrip_settles (cmp := cmp) (k := .under)
    (d := tripsRead afe d) hquiet hr (congrFun hregs _).symm
  have hcurrent := (hkept _ hne.symm).trans (congrFun hregs _)
  obtain ⟨hservice', hkept', hbytes', hsettled'⟩ := convergeTrip_settles (cmp := cmp) (k := .over)
    hquiet hservice.released' hcurrent.symm
  rw [convergeTrips_of_quiet hquiet]
  exact ⟨hservice'.released', fun h => ⟨hbytes h, hbytes' h⟩,
    fun h => (hsettled h).of_sameService hservice' (hkept' _ hne), hsettled'⟩

/-! ## Bring-up (R233, R234) -/

/-- From `d` to `d'` the host has gone on: the VSC is in the same service, the bus holds what it held and more,
and the interrupt is attached as it was. -/
structure Driver.GoesOn (d d' : Driver) : Prop where
  service : SameService d.vsc d'.vsc
  bus : d.bus <+: d'.bus
  attached : d'.interruptAttached = d.interruptAttached

section GoesOn

variable {d d' d'' : Driver}

theorem Driver.GoesOn.refl (hr : d.vsc.resetAsserted = false) : d.GoesOn d :=
  ⟨.refl hr, List.prefix_rfl, rfl⟩

theorem Driver.GoesOn.trans (h : d.GoesOn d') (h' : d'.GoesOn d'') : d.GoesOn d'' :=
  ⟨h.service.trans h'.service, h.bus.trans h'.bus, h'.attached.trans h.attached⟩

theorem Driver.GoesOn.read (h : d.GoesOn d') (afe : Afe) (a : Nat) :
    d.GoesOn (readByte afe a d').2 :=
  ⟨h.service, h.bus.trans (List.prefix_append _ _), h.attached⟩

theorem Driver.GoesOn.write (h : d.GoesOn d') (afe : Afe) (a : Nat) (v : Byte) :
    d.GoesOn (writeByte afe a v d') :=
  ⟨h.service, h.bus.trans (List.prefix_append _ _), h.attached⟩

theorem Driver.GoesOn.waited (h : d.GoesOn d') (ms : Nat) : d.GoesOn (d'.wait ms) :=
  ⟨h.service, h.bus, h.attached⟩

theorem Driver.GoesOn.withVsc (h : d.GoesOn d') {vsc : State} (hservice : SameService d.vsc vsc) :
    d.GoesOn { d' with vsc } :=
  ⟨hservice, h.bus, h.attached⟩

theorem faultRecheck_goesOn (hr : d.vsc.resetAsserted = false) (afe : Afe) :
    d.GoesOn (faultRecheck afe d).2 := by
  have hfirst := (Driver.GoesOn.refl hr).read afe (afe.address .faultStat)
  dsimp only [faultRecheck]
  split
  · exact ((hfirst.waited 500).write afe _ _).read afe _
  · exact hfirst

theorem convergeTrip_goesOn (hr : d.vsc.resetAsserted = false) (afe : Afe) (cmp : TripCompare)
    (k : TripKind) (current : Byte) : d.GoesOn (convergeTrip afe cmp k current d).2 := by
  have hstart := Driver.GoesOn.refl hr
  by_cases ht : HasTarget k d.vsc
  case neg =>
    obtain ⟨vsc, hservice, hrun⟩ := convergeTrip_of_no_target (afe := afe) hr ht
    rw [hrun]
    exact hstart.withVsc hservice
  by_cases hat : AtTarget cmp k current d.vsc
  case pos =>
    obtain ⟨vsc, hservice, hrun⟩ := convergeTrip_of_at_target (afe := afe) hr ht hat
    rw [hrun]
    exact hstart.withVsc hservice
  have hback : d.GoesOn (tripReadBack afe k d).2 := (hstart.write afe _ _).read afe _
  obtain ⟨vsc, hservice, ⟨-, hrun⟩ | ⟨-, hrun⟩⟩ := convergeTrip_of_off_target (afe := afe) hr ht hat
  · rw [hrun]
    exact hback.withVsc hservice
  · rw [hrun]
    exact hback.withVsc hservice

theorem Driver.GoesOn.converged (h : d.GoesOn d') (afe : Afe) (cmp : TripCompare) (k : TripKind)
    (current : Byte) : d.GoesOn (convergeTrip afe cmp k current d').2 :=
  h.trans (convergeTrip_goesOn h.service.released' afe cmp k current)

theorem convergeTrips_goesOn (hr : d.vsc.resetAsserted = false) (afe : Afe) (cmp : TripCompare) :
    d.GoesOn (convergeTrips afe cmp d).driver := by
  have hread : d.GoesOn (tripsRead afe d) := ((Driver.GoesOn.refl hr).read afe _).read afe _
  exact (hread.converged afe cmp .under _).converged afe cmp .over _

/-- Steps (g) and (h) of R234. -/
theorem faultRecheck_convergeTrips_goesOn (hr : d.vsc.resetAsserted = false) (afe : Afe)
    (cmp : TripCompare) : d.GoesOn (convergeTrips afe cmp (faultRecheck afe d).2).driver := by
  have hfault := faultRecheck_goesOn hr afe
  exact hfault.trans (convergeTrips_goesOn hfault.service.released' afe cmp)

end GoesOn

/-- Step (f) of R234 reads the three trim bytes and calibrates the VSC from them. -/
theorem loadTrims_run {d : Driver} (hr : d.vsc.resetAsserted = false) (afe : Afe) :
    ∃ g1 g2 ot, (loadTrims afe d).vsc = afterCalld g1 g2 ot d.vsc ∧
      (loadTrims afe d).interruptAttached = d.interruptAttached ∧
      (loadTrims afe d).bus = d.bus ++ [.read (afe.address .gtrim1) g1,
        .read (afe.address .gtrim2) g2, .read (afe.address .otrim) ot] := by
  refine ⟨_, _, _, issue_of_exec hr (exec_calld _ _ _ _), rfl, ?_⟩
  simp [loadTrims]

/-- After a probe that succeeds, bring-up runs all of its steps. -/
theorem runBringUp_of_ready {afe : Afe} {d : Driver} (h : (probe afe 10 d).1 = true)
    (cmp : TripCompare) :
    let fault := faultRecheck afe (loadTrims afe (configure afe (probe afe 10 d).2))
    let trips := convergeTrips afe cmp fault.2
    runBringUp afe cmp d =
      (.running fault.1 trips.uv trips.ov, { trips.driver with mode := .normal }) :=
  if_pos h

theorem runBringUp_of_not_ready {afe : Afe} {d : Driver} (h : (probe afe 10 d).1 = false)
    (cmp : TripCompare) :
    runBringUp afe cmp d = (.startupFailure, (probe afe 10 d).2) :=
  if_neg (by simp [h])

theorem configure_released {d : Driver} (h : d.vsc.resetAsserted = false) (afe : Afe) :
    (configure afe (probe afe 10 d).2).vsc.resetAsserted = false := by
  obtain ⟨hvsc, -⟩ := probe_frame afe 10 d
  exact (congrArg State.resetAsserted hvsc).trans h

/-- Settles O48: the trims are loaded once and the steps that follow keep the calibration; step (h) leaves both
registers settled. -/
theorem bringUpCalibratesAndTripSettingsSettle :
    Obligations.BringUpCalibratesAndTripSettingsSettle := by
  refine ⟨fun afe cmp d hmode hprobe => ?failed, fun afe cmp d hr hmode hprobe => ?calibrated,
    fun afe cmp d hr hquiet hne => ?settled⟩
  case failed =>
    have hrun := unlessShip_run hmode (runBringUp afe cmp)
    rw [runBringUp_of_not_ready hprobe] at hrun
    obtain ⟨hvsc, hkept⟩ := probe_frame afe 10 d
    obtain ⟨hbus, hnow⟩ := probe_fails hprobe
    exact ⟨_, hrun, hvsc, hkept, hnow, hbus⟩
  case calibrated =>
    have hrun := unlessShip_run hmode (runBringUp afe cmp)
    rw [runBringUp_of_ready hprobe] at hrun
    have hready := configure_released hr afe
    obtain ⟨g1, g2, ot, hvsc, hattached, hbus⟩ := loadTrims_run hready afe
    have hgoes := faultRecheck_convergeTrips_goesOn
      (d := loadTrims afe (configure afe (probe afe 10 d).2)) (by rw [hvsc]; exact hready) afe cmp
    obtain ⟨after, hafter⟩ := hgoes.bus
    have hcalibration := hgoes.service.calibration
    refine ⟨_, _, _, _, hrun, rfl, hgoes.attached.trans hattached, ?calv,
      (configure afe (probe afe 10 d).2).bus, after, g1, g2, ot, ?bus, ?offs, ?gain⟩
    case calv => exact hcalibration.calv.symm.trans (hvsc ▸ afterCalld_calv g1 g2 ot _)
    case bus => exact hbus ▸ hafter.symm
    case offs => exact hcalibration.offs.symm.trans (congrArg State.offs hvsc)
    case gain =>
      have hgain := hcalibration.gain.symm.trans (congrArg State.gain hvsc)
      exact (congrArg BitVec.toNat hgain).trans
        ((afterCalld_gain g1 g2 ot _).trans (by rw [gainTrim_toNat]))
  case settled =>
    obtain ⟨hreleased, hbytes, hunder, hover⟩ := convergeTrips_settles (cmp := cmp) hquiet hr hne
    refine ⟨hbytes, fun huv hov => ?_⟩
    rw [convergeTrips_of_settled hquiet hreleased (hunder huv) (hover hov)]
    exact (tripsRead_of_quiet hquiet _).2

end Sys2Proof.Machine
end
